-- ==== Sys2Proof/Word.lean ====
section
/-! DEFINITION. The words of the block: 32-bit registers, CSRs, command words and response data
(00_scope.md rule R5), and bytes. -/

namespace Sys2Proof

/-- A general register, a CSR, a command word, the data word of a response: 32 bits (rule R5). -/
abbrev Word := BitVec 32

/-- A character as a byte (44_text.md rule R243), and a response status (rule R91). -/
abbrev Byte := BitVec 8

end Sys2Proof
end

