-- ==== Sys2Proof/Syntax.lean ====
section
/-! DEFINITION. The block's commands: one constructor per row of spec/opcode_table.json
(30_encoding.md rule R96), operands in the assembler's order. -/

namespace Sys2Proof

/-- A register number r0 to r7; every value of the 3-bit field names a register (rule R93). -/
abbrev Reg := Fin 8

/-- A mode number 0 to 7 (44_text.md rule R240). -/
abbrev Mode := Fin 8

/-- The assigned CSRs (10_state.md rules R25 to R38). -/
inductive Csr where
  | id
  | status
  | errcode
  | errcmd
  | errinfo
  | rscfg
  | bincfg
  | txcfg
  | bitlen
  | rdpos
  | cwlen
  | mrows
  | mcols
  | pathlen
  | chlen
  | modew (k : Mode)
  deriving DecidableEq, Repr

/-- The 40 commands (30_encoding.md rule R96). -/
inductive Instr where
  -- system (40_system.md)
  | nop
  | ldi (rd : Reg) (imm16 : BitVec 16)
  | ldih (rd : Reg) (imm16 : BitVec 16)
  | getr (rs : Reg)
  | csrr (rd : Reg) (csr : Csr)
  | csrw (rs : Reg) (csr : Csr)
  | clrerr
  | srst
  -- bit unit (41_bitstream.md)
  | bclr
  | brwd
  | rdbits (rd : Reg) (n : BitVec 6)
  | apbits (rs : Reg) (n : BitVec 6)
  | avail (rd : Reg)
  | bitoff (rd : Reg)
  -- Reed-Solomon unit (42_reed_solomon.md)
  | rsenc (re : Reg)
  | rsdec (rd re : Reg)
  | cwclr
  | cwap (rs : Reg)
  | cwrd (rd ri : Reg)
  | cwwr (ri rs : Reg)
  | cwtrunc (rn : Reg)
  -- mapper (43_mapper.md)
  | matdim (ry rx : Reg)
  | matwr (ry rx rv : Reg)
  | matrd (rd ry rx : Reg)
  | pathclr
  | pathap (ry rx : Reg)
  | maprd
  | mapwr
  | cwpack (rn : Reg)
  | cwunpk
  | stuff
  | unstuff
  -- text unit (44_text.md)
  | modew (mode : Mode) (w : BitVec 4)
  | tblwr (ri re : Reg)
  | tblrd (rd ri : Reg)
  | chclr
  | chap (rs : Reg)
  | chrd (rd ri : Reg)
  | txdec
  | txenc
  deriving DecidableEq, Repr

end Sys2Proof
end

