-- ==== Sys2Proof/WellFormed.lean ====
section
/-! DEFINITION. Which instruction terms are commands of the block: the operand ranges that the types
of Syntax.lean do not already enforce (30_encoding.md rules R93 and R98). -/

namespace Sys2Proof

/-- The three CSRs that CSRW may name (10_state.md rule R24, 40_system.md rule R125). -/
def Csr.writable : Csr → Bool
  | .rscfg | .bincfg | .txcfg => true
  | .id | .status | .errcode | .errcmd | .errinfo | .bitlen | .rdpos | .cwlen | .mrows | .mcols
  | .pathlen | .chlen | .modew _ => false

/-- A legal bit count n6: 1 to 32 (rule R93). -/
def bitCountOk (n : BitVec 6) : Bool := decide (1 ≤ n.toNat ∧ n.toNat ≤ 32)

/-- A legal code-unit width w4: 1 to 8 (rule R93). -/
def codeWidthOk (w : BitVec 4) : Bool := decide (1 ≤ w.toNat ∧ w.toNat ≤ 8)

/-- The operand values that rule R98 does not reserve. -/
def Instr.wf : Instr → Bool
  | .rdbits _ n => bitCountOk n
  | .apbits _ n => bitCountOk n
  | .modew _ w => codeWidthOk w
  | .csrw _ c => c.writable
  | .nop | .ldi _ _ | .ldih _ _ | .getr _ | .csrr _ _ | .clrerr | .srst | .bclr | .brwd | .avail _
  | .bitoff _ | .rsenc _ | .rsdec _ _ | .cwclr | .cwap _ | .cwrd _ _ | .cwwr _ _ | .cwtrunc _
  | .matdim _ _ | .matwr _ _ _ | .matrd _ _ _ | .pathclr | .pathap _ _ | .maprd | .mapwr | .cwpack _
  | .cwunpk | .stuff | .unstuff | .tblwr _ _ | .tblrd _ _ | .chclr | .chap _ | .chrd _ _ | .txdec
  | .txenc => true

end Sys2Proof
end

