-- ==== Sys2Proof/Decode.lean ====
section
/-! DEFINITION. The decoder, total on all 2^32 command words and rejecting by name
(30_encoding.md rules R92 to R100), then the encoder written from the same tables, the assembler's
written form (rule R101) and the pseudo-instruction LI (rule R102). -/

namespace Sys2Proof

/-- `v[hi:lo]`: the unsigned number made of bits hi down to lo of v (00_scope.md rule R8). -/
def bits {n : Nat} (v : BitVec n) (hi lo : Nat) : Nat := v.toNat / 2 ^ lo % 2 ^ (hi + 1 - lo)

/-- Why a word is no command: rule R97 (`opcode`) or rule R98 (`field`). -/
inductive DecodeError where
  | opcode
  | field
  deriving DecidableEq, Repr

/-- The CSR of a number, where one is assigned (10_state.md rules R25 to R38). -/
def Csr.ofNumber (n : Nat) : Option Csr :=
  match n with
  | 0x00 => some .id
  | 0x01 => some .status
  | 0x02 => some .errcode
  | 0x03 => some .errcmd
  | 0x04 => some .errinfo
  | 0x08 => some .rscfg
  | 0x09 => some .bincfg
  | 0x0A => some .txcfg
  | 0x10 => some .bitlen
  | 0x11 => some .rdpos
  | 0x12 => some .cwlen
  | 0x13 => some .mrows
  | 0x14 => some .mcols
  | 0x15 => some .pathlen
  | 0x16 => some .chlen
  | n => if h : 0x20 ≤ n ∧ n ≤ 0x27 then some (.modew ⟨n - 0x20, by omega⟩) else none

/-- The number of a CSR (10_state.md rules R25 to R38). -/
def Csr.number : Csr → Nat
  | .id => 0x00
  | .status => 0x01
  | .errcode => 0x02
  | .errcmd => 0x03
  | .errinfo => 0x04
  | .rscfg => 0x08
  | .bincfg => 0x09
  | .txcfg => 0x0A
  | .bitlen => 0x10
  | .rdpos => 0x11
  | .cwlen => 0x12
  | .mrows => 0x13
  | .mcols => 0x14
  | .pathlen => 0x15
  | .chlen => 0x16
  | .modew k => 0x20 + k.val

/-- Field a, bits 23:21: the first register operand, or the mode of MODEW (rule R93). -/
def fieldA (w : Word) : Reg := ⟨bits w 23 21, Nat.mod_lt _ (by decide)⟩

/-- Field b, bits 20:18: the second register operand (rule R93). -/
def fieldB (w : Word) : Reg := ⟨bits w 20 18, Nat.mod_lt _ (by decide)⟩

/-- Field c, bits 17:15: the third register operand (rule R93). -/
def fieldC (w : Word) : Reg := ⟨bits w 17 15, Nat.mod_lt _ (by decide)⟩

/-- Format N: bits 23:0 reserved (rule R94). -/
def formN (w : Word) (i : Instr) : Except DecodeError Instr :=
  if bits w 23 0 = 0 then .ok i else .error .field

/-- Format R: a; bits 20:0 reserved. -/
def formR (w : Word) (k : Reg → Instr) : Except DecodeError Instr :=
  if bits w 20 0 = 0 then .ok (k (fieldA w)) else .error .field

/-- Format RR: a, b; bits 17:0 reserved. -/
def formRR (w : Word) (k : Reg → Reg → Instr) : Except DecodeError Instr :=
  if bits w 17 0 = 0 then .ok (k (fieldA w) (fieldB w)) else .error .field

/-- Format RRR: a, b, c; bits 14:0 reserved. -/
def formRRR (w : Word) (k : Reg → Reg → Reg → Instr) : Except DecodeError Instr :=
  if bits w 14 0 = 0 then .ok (k (fieldA w) (fieldB w) (fieldC w)) else .error .field

/-- Format RI: a, imm16; bits 20:16 reserved. -/
def formRI (w : Word) (k : Reg → BitVec 16 → Instr) : Except DecodeError Instr :=
  if bits w 20 16 = 0 then .ok (k (fieldA w) (BitVec.ofNat 16 (bits w 15 0))) else .error .field

/-- Format RN: a, n6 from 1 to 32; bits 20:6 reserved. -/
def formRN (w : Word) (k : Reg → BitVec 6 → Instr) : Except DecodeError Instr :=
  if bits w 20 6 = 0 ∧ bitCountOk (BitVec.ofNat 6 (bits w 5 0)) = true then
    .ok (k (fieldA w) (BitVec.ofNat 6 (bits w 5 0)))
  else .error .field

/-- Format RC: a, an assigned csr that `legal` admits; bits 20:8 reserved. -/
def formRC (w : Word) (legal : Csr → Bool) (k : Reg → Csr → Instr) : Except DecodeError Instr :=
  if bits w 20 8 = 0 then
    match Csr.ofNumber (bits w 7 0) with
    | some c => if legal c = true then .ok (k (fieldA w) c) else .error .field
    | none => .error .field
  else .error .field

/-- Format MW: a (the mode), w4 from 1 to 8; bits 20:4 reserved. -/
def formMW (w : Word) (k : Mode → BitVec 4 → Instr) : Except DecodeError Instr :=
  if bits w 20 4 = 0 ∧ codeWidthOk (BitVec.ofNat 4 (bits w 3 0)) = true then
    .ok (k (fieldA w) (BitVec.ofNat 4 (bits w 3 0)))
  else .error .field

/-- The op field, bits 31:24; it alone selects the row (rule R96). -/
def opcodeOf (w : Word) : Nat := bits w 31 24

/-- The command of a word (rule R96), or the name of why there is none (rules R97, R98). -/
def decode (w : Word) : Except DecodeError Instr :=
  match opcodeOf w with
  | 0x00 => formN w .nop
  | 0x01 => formRI w .ldi
  | 0x02 => formRI w .ldih
  | 0x03 => formR w .getr
  | 0x04 => formRC w (fun _ => true) .csrr
  | 0x05 => formRC w Csr.writable .csrw
  | 0x06 => formN w .clrerr
  | 0x07 => formN w .srst
  | 0x10 => formN w .bclr
  | 0x11 => formN w .brwd
  | 0x12 => formRN w .rdbits
  | 0x13 => formRN w .apbits
  | 0x14 => formR w .avail
  | 0x15 => formR w .bitoff
  | 0x20 => formR w .rsenc
  | 0x21 => formRR w .rsdec
  | 0x28 => formN w .cwclr
  | 0x29 => formR w .cwap
  | 0x2A => formRR w .cwrd
  | 0x2B => formRR w .cwwr
  | 0x2C => formR w .cwtrunc
  | 0x30 => formRR w .matdim
  | 0x31 => formRRR w .matwr
  | 0x32 => formRRR w .matrd
  | 0x33 => formN w .pathclr
  | 0x34 => formRR w .pathap
  | 0x35 => formN w .maprd
  | 0x36 => formN w .mapwr
  | 0x37 => formR w .cwpack
  | 0x38 => formN w .cwunpk
  | 0x39 => formN w .stuff
  | 0x3A => formN w .unstuff
  | 0x40 => formMW w .modew
  | 0x41 => formRR w .tblwr
  | 0x42 => formRR w .tblrd
  | 0x43 => formN w .chclr
  | 0x44 => formR w .chap
  | 0x45 => formRR w .chrd
  | 0x46 => formN w .txdec
  | 0x47 => formN w .txenc
  | _ => .error .opcode

/-- The opcode of each command (rule R96). -/
def Instr.opcode : Instr → Nat
  | .nop => 0x00
  | .ldi _ _ => 0x01
  | .ldih _ _ => 0x02
  | .getr _ => 0x03
  | .csrr _ _ => 0x04
  | .csrw _ _ => 0x05
  | .clrerr => 0x06
  | .srst => 0x07
  | .bclr => 0x10
  | .brwd => 0x11
  | .rdbits _ _ => 0x12
  | .apbits _ _ => 0x13
  | .avail _ => 0x14
  | .bitoff _ => 0x15
  | .rsenc _ => 0x20
  | .rsdec _ _ => 0x21
  | .cwclr => 0x28
  | .cwap _ => 0x29
  | .cwrd _ _ => 0x2A
  | .cwwr _ _ => 0x2B
  | .cwtrunc _ => 0x2C
  | .matdim _ _ => 0x30
  | .matwr _ _ _ => 0x31
  | .matrd _ _ _ => 0x32
  | .pathclr => 0x33
  | .pathap _ _ => 0x34
  | .maprd => 0x35
  | .mapwr => 0x36
  | .cwpack _ => 0x37
  | .cwunpk => 0x38
  | .stuff => 0x39
  | .unstuff => 0x3A
  | .modew _ _ => 0x40
  | .tblwr _ _ => 0x41
  | .tblrd _ _ => 0x42
  | .chclr => 0x43
  | .chap _ => 0x44
  | .chrd _ _ => 0x45
  | .txdec => 0x46
  | .txenc => 0x47

/-- The operand fields of each command as one number below 2^24 (rules R93, R94, R96):
a·2^21 + b·2^18 + c·2^15 + (imm16 or n6 or csr or w4). -/
def Instr.operands : Instr → Nat
  | .nop | .clrerr | .srst | .bclr | .brwd | .cwclr | .pathclr | .maprd | .mapwr | .cwunpk | .stuff
  | .unstuff | .chclr | .txdec | .txenc => 0
  | .getr a | .avail a | .bitoff a | .rsenc a | .cwap a | .cwtrunc a | .cwpack a | .chap a =>
    a.val * 2 ^ 21
  | .rsdec a b | .cwrd a b | .cwwr a b | .matdim a b | .pathap a b | .tblwr a b | .tblrd a b
  | .chrd a b => a.val * 2 ^ 21 + b.val * 2 ^ 18
  | .matwr a b c | .matrd a b c => a.val * 2 ^ 21 + b.val * 2 ^ 18 + c.val * 2 ^ 15
  | .ldi a imm | .ldih a imm => a.val * 2 ^ 21 + imm.toNat
  | .rdbits a n | .apbits a n => a.val * 2 ^ 21 + n.toNat
  | .csrr a c | .csrw a c => a.val * 2 ^ 21 + c.number
  | .modew a w => a.val * 2 ^ 21 + w.toNat

/-- The command word (rule R103: op·2^24 plus the operand fields). -/
def encode (i : Instr) : Word := BitVec.ofNat 32 (i.opcode * 2 ^ 24 + i.operands)

/-- The instruction the decoder reads from bits numbered as spec/opcode_table.json numbers them: a
command is exactly one 32-bit word (rule R92), so bit k of the row is bit k of the word, and bits
above nbits are 0. -/
def decodeTableWord (nbits w : Nat) : Option Instr :=
  match decode (BitVec.ofNat 32 (w % 2 ^ nbits)) with
  | .ok i => some i
  | .error _ => none

/-- LI rd, imm32 stands for LDI and, when the upper half is not 0, LDIH (rule R102). -/
def expandLi (rd : Reg) (imm : Word) : List Instr :=
  if bits imm 31 16 = 0 then [.ldi rd (BitVec.ofNat 16 (bits imm 15 0))]
  else [.ldi rd (BitVec.ofNat 16 (bits imm 15 0)), .ldih rd (BitVec.ofNat 16 (bits imm 31 16))]

/-- A register as the assembler writes it (rule R101). -/
def regName (r : Reg) : String := "r" ++ toString r.val

/-- A CSR as the assembler writes it (rule R101). -/
def Csr.name : Csr → String
  | .id => "ID"
  | .status => "STATUS"
  | .errcode => "ERRCODE"
  | .errcmd => "ERRCMD"
  | .errinfo => "ERRINFO"
  | .rscfg => "RSCFG"
  | .bincfg => "BINCFG"
  | .txcfg => "TXCFG"
  | .bitlen => "BITLEN"
  | .rdpos => "RDPOS"
  | .cwlen => "CWLEN"
  | .mrows => "MROWS"
  | .mcols => "MCOLS"
  | .pathlen => "PATHLEN"
  | .chlen => "CHLEN"
  | .modew k => "MODEW" ++ toString k.val

/-- The mnemonic of each command (rule R96). -/
def Instr.mnemonic : Instr → String
  | .nop => "NOP"
  | .ldi _ _ => "LDI"
  | .ldih _ _ => "LDIH"
  | .getr _ => "GETR"
  | .csrr _ _ => "CSRR"
  | .csrw _ _ => "CSRW"
  | .clrerr => "CLRERR"
  | .srst => "SRST"
  | .bclr => "BCLR"
  | .brwd => "BRWD"
  | .rdbits _ _ => "RDBITS"
  | .apbits _ _ => "APBITS"
  | .avail _ => "AVAIL"
  | .bitoff _ => "BITOFF"
  | .rsenc _ => "RSENC"
  | .rsdec _ _ => "RSDEC"
  | .cwclr => "CWCLR"
  | .cwap _ => "CWAP"
  | .cwrd _ _ => "CWRD"
  | .cwwr _ _ => "CWWR"
  | .cwtrunc _ => "CWTRUNC"
  | .matdim _ _ => "MATDIM"
  | .matwr _ _ _ => "MATWR"
  | .matrd _ _ _ => "MATRD"
  | .pathclr => "PATHCLR"
  | .pathap _ _ => "PATHAP"
  | .maprd => "MAPRD"
  | .mapwr => "MAPWR"
  | .cwpack _ => "CWPACK"
  | .cwunpk => "CWUNPK"
  | .stuff => "STUFF"
  | .unstuff => "UNSTUFF"
  | .modew _ _ => "MODEW"
  | .tblwr _ _ => "TBLWR"
  | .tblrd _ _ => "TBLRD"
  | .chclr => "CHCLR"
  | .chap _ => "CHAP"
  | .chrd _ _ => "CHRD"
  | .txdec => "TXDEC"
  | .txenc => "TXENC"

/-- The operands in the assembler's order, each as the assembler writes it (rules R96, R101). -/
def Instr.operandNames : Instr → List String
  | .nop | .clrerr | .srst | .bclr | .brwd | .cwclr | .pathclr | .maprd | .mapwr | .cwunpk | .stuff
  | .unstuff | .chclr | .txdec | .txenc => []
  | .getr a | .avail a | .bitoff a | .rsenc a | .cwap a | .cwtrunc a | .cwpack a | .chap a =>
    [regName a]
  | .rsdec a b | .cwrd a b | .cwwr a b | .matdim a b | .pathap a b | .tblwr a b | .tblrd a b
  | .chrd a b => [regName a, regName b]
  | .matwr a b c | .matrd a b c => [regName a, regName b, regName c]
  | .ldi a imm | .ldih a imm => [regName a, toString imm.toNat]
  | .rdbits a n | .apbits a n => [regName a, toString n.toNat]
  | .csrr a c | .csrw a c => [regName a, c.name]
  | .modew k w => [toString k.val, toString w.toNat]

/-- One line of assembler text (rule R101). -/
def Instr.asm (i : Instr) : String :=
  match i.operandNames with
  | [] => i.mnemonic
  | ops => i.mnemonic ++ " " ++ String.intercalate ", " ops

/-- The part of a line before its comment (rule R101). -/
def stripComment : List Char → List Char
  | [] => []
  | c :: cs => if c = ';' then [] else c :: stripComment cs

/-- A text without the blanks at its start. -/
def dropBlanks : List Char → List Char
  | [] => []
  | c :: cs => if c.isWhitespace then dropBlanks cs else c :: cs

/-- A text without the blanks at its two ends. -/
def trimBlanks (cs : List Char) : List Char := (dropBlanks (dropBlanks cs).reverse).reverse

/-- The pieces between the commas of a text (rule R101: operands are separated by commas). -/
def splitCommas : List Char → List (List Char)
  | [] => [[]]
  | c :: cs =>
    match splitCommas cs with
    | [] => [[]]
    | p :: ps => if c = ',' then [] :: p :: ps else (c :: p) :: ps

/-- The first word of a text in upper case, and what follows it. -/
def firstWord : List Char → List Char × List Char
  | [] => ([], [])
  | c :: cs =>
    if c.isWhitespace then ([], cs) else (c.toUpper :: (firstWord cs).1, (firstWord cs).2)

/-- A digit's value: 0 to 9, A to F (in either case). -/
def digitValue (c : Char) : Option Nat :=
  if c.isDigit then some (c.toNat - 48)
  else if 65 ≤ c.toUpper.toNat ∧ c.toUpper.toNat ≤ 70 then some (c.toUpper.toNat - 55)
  else none

/-- The number written by digits of the given base after the digits read so far. -/
def readDigits (base acc : Nat) : List Char → Option Nat
  | [] => some acc
  | c :: cs =>
    match digitValue c with
    | some d => if d < base then readDigits base (base * acc + d) cs else none
    | none => none

/-- A number, decimal or 0x hexadecimal (rule R101). -/
def readNumber : List Char → Option Nat
  | '0' :: 'x' :: c :: cs | '0' :: 'X' :: c :: cs => readDigits 16 0 (c :: cs)
  | c :: cs => readDigits 10 0 (c :: cs)
  | [] => none

/-- A number that fits a field of n bits. -/
def readField (n : Nat) (cs : List Char) : Option (BitVec n) :=
  match readNumber cs with
  | some v => if v < 2 ^ n then some (BitVec.ofNat n v) else none
  | none => none

/-- A general register, r0 to r7 (rule R101). -/
def readReg : List Char → Option Reg
  | [r, d] =>
    if r.toUpper = 'R' ∧ d.isDigit ∧ d.toNat - 48 < 8 then some (Fin.ofNat 8 (d.toNat - 48)) else none
  | _ => none

/-- A mode number 0 to 7 (rule R101). -/
def readMode (cs : List Char) : Option Mode :=
  match readNumber cs with
  | some k => if k < 8 then some (Fin.ofNat 8 k) else none
  | none => none

/-- The CSRs that have a name of rule R101, in the order of that rule. -/
def allCsrs : List Csr :=
  [.id, .status, .errcode, .errcmd, .errinfo, .rscfg, .bincfg, .txcfg, .bitlen, .rdpos, .cwlen,
    .mrows, .mcols, .pathlen, .chlen, .modew 0, .modew 1, .modew 2, .modew 3, .modew 4, .modew 5,
    .modew 6, .modew 7]

/-- A CSR by its name or by its number (rule R101). -/
def readCsr (cs : List Char) : Option Csr :=
  match allCsrs.find? (fun c => c.name.toList == cs.map Char.toUpper) with
  | some c => some c
  | none => (readNumber cs).bind Csr.ofNumber

/-- A command without operands. -/
def readNone (k : Instr) : List (List Char) → Option Instr
  | [] => some k
  | _ => none

/-- A command whose operand is a register. -/
def readR (k : Reg → Instr) : List (List Char) → Option Instr
  | [a] => (readReg a).map k
  | _ => none

/-- A command whose operands are two registers. -/
def readRR (k : Reg → Reg → Instr) : List (List Char) → Option Instr
  | [a, b] => (readReg a).bind fun ra => (readReg b).map (k ra)
  | _ => none

/-- A command whose operands are three registers. -/
def readRRR (k : Reg → Reg → Reg → Instr) : List (List Char) → Option Instr
  | [a, b, c] =>
    (readReg a).bind fun ra => (readReg b).bind fun rb => (readReg c).map (k ra rb)
  | _ => none

/-- A command whose operands are a register and a number of n bits. -/
def readRI (n : Nat) (k : Reg → BitVec n → Instr) : List (List Char) → Option Instr
  | [a, b] => (readReg a).bind fun ra => (readField n b).map (k ra)
  | _ => none

/-- A command whose operands are a register and a CSR. -/
def readRC (k : Reg → Csr → Instr) : List (List Char) → Option Instr
  | [a, b] => (readReg a).bind fun ra => (readCsr b).map (k ra)
  | _ => none

/-- A command whose operands are a mode and a width. -/
def readMW (k : Mode → BitVec 4 → Instr) : List (List Char) → Option Instr
  | [a, b] => (readMode a).bind fun m => (readField 4 b).map (k m)
  | _ => none

/-- The command of a mnemonic and its operands in the order of rule R96. -/
def readCommand (m : String) (ops : List (List Char)) : Option Instr :=
  match m with
  | "NOP" => readNone .nop ops
  | "LDI" => readRI 16 .ldi ops
  | "LDIH" => readRI 16 .ldih ops
  | "GETR" => readR .getr ops
  | "CSRR" => readRC .csrr ops
  | "CSRW" => readRC .csrw ops
  | "CLRERR" => readNone .clrerr ops
  | "SRST" => readNone .srst ops
  | "BCLR" => readNone .bclr ops
  | "BRWD" => readNone .brwd ops
  | "RDBITS" => readRI 6 .rdbits ops
  | "APBITS" => readRI 6 .apbits ops
  | "AVAIL" => readR .avail ops
  | "BITOFF" => readR .bitoff ops
  | "RSENC" => readR .rsenc ops
  | "RSDEC" => readRR .rsdec ops
  | "CWCLR" => readNone .cwclr ops
  | "CWAP" => readR .cwap ops
  | "CWRD" => readRR .cwrd ops
  | "CWWR" => readRR .cwwr ops
  | "CWTRUNC" => readR .cwtrunc ops
  | "MATDIM" => readRR .matdim ops
  | "MATWR" => readRRR .matwr ops
  | "MATRD" => readRRR .matrd ops
  | "PATHCLR" => readNone .pathclr ops
  | "PATHAP" => readRR .pathap ops
  | "MAPRD" => readNone .maprd ops
  | "MAPWR" => readNone .mapwr ops
  | "CWPACK" => readR .cwpack ops
  | "CWUNPK" => readNone .cwunpk ops
  | "STUFF" => readNone .stuff ops
  | "UNSTUFF" => readNone .unstuff ops
  | "MODEW" => readMW .modew ops
  | "TBLWR" => readRR .tblwr ops
  | "TBLRD" => readRR .tblrd ops
  | "CHCLR" => readNone .chclr ops
  | "CHAP" => readR .chap ops
  | "CHRD" => readRR .chrd ops
  | "TXDEC" => readNone .txdec ops
  | "TXENC" => readNone .txenc ops
  | _ => none

/-- The operands of a line: none where nothing is written after the mnemonic. -/
def operandTexts (cs : List Char) : List (List Char) :=
  match trimBlanks cs with
  | [] => []
  | c :: rest => (splitCommas (c :: rest)).map trimBlanks

/-- The commands one line of assembler text stands for (rules R101, R102): none of them where the
line holds only blanks and a comment, two at most (LI). Answers nothing where the line is no command
of rule R96 or its word would be refused (rule R98). -/
def readLine (line : List Char) : Option (List Instr) :=
  match dropBlanks (stripComment line) with
  | [] => some []
  | c :: cs =>
    let m := String.ofList (firstWord (c :: cs)).1
    let ops := operandTexts (firstWord (c :: cs)).2
    if m = "LI" then
      match ops with
      | [a, b] => (readReg a).bind fun rd => (readField 32 b).map (expandLi rd)
      | _ => none
    else
      match readCommand m ops with
      | some i =>
        match decode (encode i) with
        | .ok j => if j = i then some [i] else none
        | .error _ => none
      | none => none

end Sys2Proof
end

