-- ==== Sys2Proof/Config.lean ====
section
/-! DEFINITION. What an implementation fixes before reset (00_scope.md rules R5 to R7,
10_state.md rule R47): the capacities, the four field polynomials, the first root of the code
generator. Every command takes them as parameters; `Config.hw` holds the values spec/ gives. -/

namespace Sys2Proof

/-- The parameters of 00_scope.md rules R6 and R7. XLEN = 32, NREG = 8, NMODE = 8 and MAXW = 8 are
not here: they "are not open: the encodings of 30_encoding.md depend on them" (92_eei_decisions.md,
after its table of parameters), so the types fix them. -/
structure Params where
  /-- BITCAP: most bits the bit buffer holds. -/
  bitCap : Nat
  /-- CWCAP: most codewords the codeword buffer holds. -/
  cwCap : Nat
  /-- MATMAX: most rows, and most columns, of the matrix. -/
  matMax : Nat
  /-- PATHCAP: most coordinates the path holds. -/
  pathCap : Nat
  /-- CHCAP: most entries the character buffer holds. -/
  chCap : Nat
  /-- PRIM_6, PRIM_8, PRIM_10, PRIM_12: the reduction polynomials, bit i the coefficient of x^i. -/
  prim6 : Nat
  prim8 : Nat
  prim10 : Nat
  prim12 : Nat
  /-- GENBASE: the exponent of the first root of the code generator. -/
  genBase : Nat
  deriving DecidableEq, Repr

/-- One of the block's Galois-field codes: the width m, the polynomial PRIM_m and GENBASE
(42_reed_solomon.md rules R160 and R167). -/
structure GF where
  /-- The codeword width m. -/
  m : Nat
  /-- PRIM_m. -/
  prim : Nat
  /-- GENBASE. -/
  genBase : Nat
  deriving DecidableEq, Repr

/-- q = 2^m, the number of field elements. -/
def GF.q (F : GF) : Nat := 2 ^ F.m

/-- The defaults of 00_scope.md rules R6 and R7, with which `State.reset` starts. No command names
them: every command takes its parameters from the state. UNVERIFIED, unsafe for claims about these
values: the polynomials and GENBASE are marked there as general knowledge and OPEN (log 2). -/
def Config.hw : Params where
  bitCap := 65536
  cwCap := 4095
  matMax := 256
  pathCap := 65536
  chCap := 4096
  prim6 := 0x43
  prim8 := 0x12D
  prim10 := 0x409
  prim12 := 0x1069
  genBase := 1

/-- The constant the ID register reads (10_state.md rule R25). -/
def Config.idWord : Word := 0x41525A01

end Sys2Proof
end

