-- ==== Sys2Proof/Machine/State.lean ====
section
/-! DEFINITION. The state of the block (10_state.md rules R20 to R48) and of the command port around
it (30_encoding.md rules R90 and R91), as plain data, and its value after reset. -/

namespace Sys2Proof.Machine

/-- A mode-table entry (44_text.md rule R242): the 12-bit values whose kind is 0 to 6 and whose
argument is legal for the kind, by name. No other value can be stored (rule R99); log 6. -/
inductive Entry where
  | undef
  | char (c : Byte)
  | latch (k : Mode)
  | shift (k : Mode)
  | binary
  | pad
  | fnc1
  deriving DecidableEq, Repr

/-- A path coordinate: row y and column x, both from 0 (10_state.md rule R42), as whole numbers. Rules
R42 and 20_memory.md R61 give each 8 bits; what is stored of 256 or more, where MATMAX is above 256,
spec/ leaves open. DESIGN CHOICE, unsafe where MATMAX is above 256, without effect at 256 (log 10). -/
structure Coord where
  y : Nat
  x : Nat
  deriving DecidableEq, Repr

/-- The response to a command (30_encoding.md rule R91). -/
structure Response where
  status : Byte
  data : Word
  deriving DecidableEq, Repr

/-- The architectural state, "the following and nothing else" (10_state.md rule R20). A buffer is the
list of exactly its valid elements, so its length counter is the list's length
(93_implementation_defined.md I7; log 4). -/
structure Block where
  /-- r0 to r7 (R21). -/
  regs : Vector Word 8
  /-- STATUS.FAULT (R23, R26). -/
  fault : Bool
  /-- ERRCODE (R27). -/
  errcode : Byte
  /-- ERRCMD (R28). -/
  errcmd : Word
  /-- ERRINFO (R29). -/
  errinfo : Word
  /-- RSCFG.FSEL (R30). -/
  fsel : BitVec 2
  /-- BINCFG (R31). -/
  bincfg : Word
  /-- TXCFG (R32). -/
  txcfg : Word
  /-- BITBUF[0 .. BITLEN-1] (R39); BITLEN (R33) is its length. -/
  bitbuf : List Bool
  /-- RDPOS (R33). -/
  rdpos : Nat
  /-- CWBUF[0 .. CWLEN-1] (R40); CWLEN (R34) is its length. -/
  cwbuf : List (BitVec 12)
  /-- MROWS (R35). -/
  mrows : Nat
  /-- MCOLS (R35). -/
  mcols : Nat
  /-- MAT (R41): the modules that are 1, by position (`matKey`), rising; every other is 0 (log 5). -/
  mat : List (Nat × Bool)
  /-- PATH[0 .. PATHLEN-1] (R42); PATHLEN (R36) is its length. -/
  path : List Coord
  /-- CHBUF[0 .. CHLEN-1] (R43); CHLEN (R37) is its length. -/
  chbuf : List (BitVec 10)
  /-- MODEW0 to MODEW7 (R38): W[k], 0 where mode k is undefined. -/
  modew : Vector (BitVec 4) 8
  /-- TBL (R44): the entries that are not UNDEF, by table index (`tblKey`), rising; every other is
  UNDEF (log 5). -/
  tbl : List (Nat × Entry)
  deriving DecidableEq, Repr

/-- The command port (30_encoding.md rule R90), the MODEL's own fields: 10_state.md rule R47 makes the
command word an input of the step and R91 the response its output. DESIGN CHOICE, safe (log 1). -/
structure Port where
  /-- The word on the port: the command being executed, or the last one. -/
  cmd : Word
  /-- The words the host has yet to present, in the order of presentation. -/
  pending : List Word
  /-- The response to the last command; none before the first. -/
  resp : Option Response
  deriving DecidableEq, Repr

/-- The machine: the block, its port, and the parameters it was built with. -/
structure State where
  block : Block
  port : Port
  /-- The MODEL's own field: "configuration a model takes as parameters" (R47), held here because a
  step has no other argument. No step changes it. DESIGN CHOICE, safe (log 9). -/
  params : Params
  deriving DecidableEq, Repr

/-- A stop of the machine: there is none. "Every command word in every reachable state has exactly one
outcome" (70_reset_and_hazards.md rule R336) and every command terminates (R338). What spec/ calls a
fault is a NEXT state, with the fault record written (60_exceptions.md rule R296). -/
inductive Fault where
  deriving DecidableEq, Repr

/-- Why an instruction has no meaning. -/
inductive Refusal where
  /-- Raised by an arm of `exec` whose instruction has no meaning yet: none is left. Safe: the machine
  stops where the hardware goes on. -/
  | notModelled (mnemonic : String)
  deriving DecidableEq, Repr

/-- The reset values of the architectural state (10_state.md rule R48). -/
def Block.reset : Block where
  regs := Vector.replicate 8 0
  fault := false
  errcode := 0
  errcmd := 0
  errinfo := 0
  fsel := 0
  bincfg := 0x001F0B05
  txcfg := 0x00000100
  bitbuf := []
  rdpos := 0
  cwbuf := []
  mrows := 0
  mcols := 0
  mat := []
  path := []
  chbuf := []
  modew := Vector.replicate 8 0
  tbl := []

/-- A block built with the parameters p, right after hardware reset (70_reset_and_hazards.md rule
R330): no command presented, no response given (log 1). -/
def State.resetWith (p : Params) : State where
  block := Block.reset
  port := ⟨0, [], none⟩
  params := p

/-- Right after hardware reset, with the defaults of 00_scope.md rules R6 and R7 (log 2). -/
def State.reset : State := State.resetWith Config.hw

end Sys2Proof.Machine
end

