-- ==== Sys2Proof/Machine/Ops.lean ====
section
/-! DEFINITION. The named operations every command is built from: the fault codes, taking a fault and
leaving the fault stop (60_exceptions.md rules R290 to R299), the response, the general registers,
the bit buffer's two primitives (41_bitstream.md rules R140 to R142), and the sparse form in which
MAT and TBL are held. -/

namespace Sys2Proof.Machine

/-- What a step answers. -/
abbrev Answer := Host.Outcome State Fault Refusal

/-! ### Faults -/

/-- The 27 fault codes (60_exceptions.md rule R292). -/
inductive FaultCode where
  | idRdbits | idCwpack | idMapwr
  | feStuff | feTxundef | feTxmode | feRslen | feUnenc
  | ueRs
  | ceCwwidth | ceFsel | ceRslen | ceDim | ceTbl | ceCsr | ceInitmode
  | aeCw | aeMat | aePath | aeCh | aeTbl
  | boBit | boCw | boPath | boCh
  | icOpcode | icField
  deriving DecidableEq, Repr

/-- The seven fault classes (rule R290). -/
inductive FaultClass where
  | insufficientData
  | formatException
  | uncorrectableError
  | configError
  | addressError
  | bufferOverflow
  | illegalCommand
  deriving DecidableEq, Repr

/-- The value of a code in ERRCODE and in the response status (rule R292). -/
def FaultCode.code : FaultCode → Byte
  | .idRdbits => 0x10
  | .idCwpack => 0x11
  | .idMapwr => 0x12
  | .feStuff => 0x20
  | .feTxundef => 0x21
  | .feTxmode => 0x22
  | .feRslen => 0x23
  | .feUnenc => 0x24
  | .ueRs => 0x30
  | .ceCwwidth => 0x40
  | .ceFsel => 0x41
  | .ceRslen => 0x42
  | .ceDim => 0x43
  | .ceTbl => 0x44
  | .ceCsr => 0x45
  | .ceInitmode => 0x46
  | .aeCw => 0x50
  | .aeMat => 0x51
  | .aePath => 0x52
  | .aeCh => 0x53
  | .aeTbl => 0x54
  | .boBit => 0x60
  | .boCw => 0x61
  | .boPath => 0x62
  | .boCh => 0x63
  | .icOpcode => 0x70
  | .icField => 0x71

/-- The class of a code (rule R292). -/
def FaultCode.cls : FaultCode → FaultClass
  | .idRdbits | .idCwpack | .idMapwr => .insufficientData
  | .feStuff | .feTxundef | .feTxmode | .feRslen | .feUnenc => .formatException
  | .ueRs => .uncorrectableError
  | .ceCwwidth | .ceFsel | .ceRslen | .ceDim | .ceTbl | .ceCsr | .ceInitmode => .configError
  | .aeCw | .aeMat | .aePath | .aeCh | .aeTbl => .addressError
  | .boBit | .boCw | .boPath | .boCh => .bufferOverflow
  | .icOpcode | .icField => .illegalCommand

/-- The high nibble of a class (rule R290). -/
def FaultClass.nibble : FaultClass → Nat
  | .insufficientData => 1
  | .formatException => 2
  | .uncorrectableError => 3
  | .configError => 4
  | .addressError => 5
  | .bufferOverflow => 6
  | .illegalCommand => 7

/-- The fault of a word that is no command (30_encoding.md rules R97, R98). -/
def decodeFault : DecodeError → FaultCode
  | .opcode => .icOpcode
  | .field => .icField

/-- Response status OK (30_encoding.md rule R91). -/
def statusOk : Byte := 0x00

/-- Response status REFUSED (30_encoding.md rule R91). -/
def statusRefused : Byte := 0xFF

/-- What a command's own rule yields: its effects with the response data, or a `raise`
(00_scope.md rule R9). Because a `raise` carries no state, nothing of the command survives it
(60_exceptions.md rule R297). -/
inductive Result where
  | done (b : Block) (data : Word)
  | raise (c : FaultCode) (info : Nat)
  deriving DecidableEq, Repr

/-- The fault record written over a block (60_exceptions.md rule R296). -/
def Block.recordFault (b : Block) (c : FaultCode) (cmd : Word) (info : Nat) : Block :=
  { b with fault := true, errcode := c.code, errcmd := cmd, errinfo := BitVec.ofNat 32 info }

/-- The fault record cleared (40_system.md rule R126). -/
def Block.clearFault (b : Block) : Block :=
  { b with fault := false, errcode := 0, errcmd := 0, errinfo := 0 }

/-- The state after a command executed: its effects and the response (OK, data) (rule R295 step 6). -/
def complete (b : Block) (data : Word) (s : State) : State :=
  { s with block := b, port := { s.port with resp := some ⟨statusOk, data⟩ } }

/-- Taking a fault (60_exceptions.md rule R296): the record is written, ERRCMD from the word on the
port and ERRINFO modulo 2^32, the response is (code, 0), nothing else changes (rule R297). -/
def takeFault (c : FaultCode) (info : Nat) (s : State) : State :=
  { s with
    block := s.block.recordFault c s.port.cmd info
    port := { s.port with resp := some ⟨c.code, 0⟩ } }

/-- A command refused (60_exceptions.md rule R298): the response is (REFUSED, 0), nothing changes. -/
def refuse (s : State) : State :=
  { s with port := { s.port with resp := some ⟨statusRefused, 0⟩ } }

/-- A command's own result carried out (rule R295 steps 4 to 6). -/
def finish (r : Result) (s : State) : State :=
  match r with
  | .done b data => complete b data s
  | .raise c info => takeFault c info s

/-- A command that the fault stop refuses (rule R295 step 0, rule R298): 36 of the 40, and every
word that is no command. -/
def command (s : State) (body : Block → Result) : Answer :=
  .next (if s.block.fault = true then refuse s else finish (body s.block) s)

/-- A command that executes in either state of STATUS.FAULT: GETR, CSRR, CLRERR, SRST (rule R298). -/
def commandAnytime (s : State) (body : Block → Result) : Answer :=
  .next (finish (body s.block) s)

/-- A word that is no command: IC_OPCODE or IC_FIELD with info 0 (rule R295 steps 1 and 2), or
REFUSED while STATUS.FAULT = 1 (step 0, and rule R298 for an ill-formed GETR or CSRR). -/
def illegalWord (e : DecodeError) (s : State) : Answer :=
  command s fun _ => .raise (decodeFault e) 0

/-! ### The command port (log 1) -/

/-- The host presents the word w; the words after it are those still to come (30_encoding.md
rule R90). -/
def present (w : Word) (rest : List Word) (s : State) : State :=
  { s with port := { s.port with cmd := w, pending := rest } }

/-! ### General registers (10_state.md rule R21) -/

/-- `r[i]`. -/
def Block.reg (b : Block) (r : Reg) : Word := b.regs[r]

/-- `r[i]` as the natural number that a rule compares with a bound, never truncated
(20_memory.md rule R70). -/
def Block.regNat (b : Block) (r : Reg) : Nat := (b.reg r).toNat

/-- `r[i] <- v`. -/
def Block.setReg (b : Block) (r : Reg) (v : Word) : Block := { b with regs := b.regs.set r v }

/-- `r[i] <- zext_32(v)` for a number below 2^32 (00_scope.md rule R9). -/
def Block.setRegNat (b : Block) (r : Reg) (v : Nat) : Block := b.setReg r (BitVec.ofNat 32 v)

/-! ### Bits, most significant first (20_memory.md rule R62) -/

/-- The number that bits in order of their places, first bit most significant, stand for. -/
def bitsVal (l : List Bool) : Nat := l.foldl (fun v bit => 2 * v + bit.toNat) 0

/-- The n low bits of v, most significant first. -/
def natBits (v : Nat) : Nat → List Bool
  | 0 => []
  | n + 1 => v.testBit n :: natBits v n

/-- BITLEN (10_state.md rule R33). -/
def Block.bitlen (b : Block) : Nat := b.bitbuf.length

/-- The bits not yet read, `BITBUF[RDPOS .. BITLEN-1]`. -/
def Block.unread (b : Block) : List Bool := b.bitbuf.drop b.rdpos

/-- `available()` = BITLEN − RDPOS (41_bitstream.md rule R142). -/
def Block.available (b : Block) : Nat := b.bitlen - b.rdpos

/-- The value `readBits(n)` returns (41_bitstream.md rule R140); its callers check n <= available(). -/
def Block.peekBits (b : Block) (n : Nat) : Nat := bitsVal (b.unread.take n)

/-- The read cursor moved on by n bits, the other half of `readBits(n)`. -/
def Block.skipBits (b : Block) (n : Nat) : Block := { b with rdpos := b.rdpos + n }

/-- A run of bits put at the append end. -/
def Block.pushBits (b : Block) (l : List Bool) : Block := { b with bitbuf := b.bitbuf ++ l }

/-- `appendBits(v, n)` (41_bitstream.md rule R141); its callers check the capacity. -/
def Block.appendBits (b : Block) (v n : Nat) : Block := b.pushBits (natBits v n)

/-! ### Sparse buffers: MAT and TBL, in one canonical form (log 5)

A list of (position, value) pairs, positions strictly rising, no value equal to d, the value that an
unlisted position holds. -/

section Sparse
variable {α : Type} [DecidableEq α]

/-- The value at a position. -/
def sparseGet (d : α) : List (Nat × α) → Nat → α
  | [], _ => d
  | (k', v) :: rest, k => if k = k' then v else sparseGet d rest k

/-- The value at one position replaced; the form is kept. -/
def sparseSet (d : α) : List (Nat × α) → Nat → α → List (Nat × α)
  | [], k, v => if v = d then [] else [(k, v)]
  | (k', v') :: rest, k, v =>
    if k < k' then (if v = d then (k', v') :: rest else (k, v) :: (k', v') :: rest)
    else if k = k' then (if v = d then rest else (k, v) :: rest)
    else (k', v') :: sparseSet d rest k v

/-- The positions from lo to hi − 1 set to d. -/
def sparseErase (lo hi : Nat) (l : List (Nat × α)) : List (Nat × α) :=
  l.filter fun kv => !(decide (lo ≤ kv.1) && decide (kv.1 < hi))

/-- The form: positions at least lo and strictly rising, no value d. -/
def sparseWfFrom (d : α) (lo : Nat) : List (Nat × α) → Bool
  | [] => true
  | (k, v) :: rest => decide (lo ≤ k) && !decide (v = d) && sparseWfFrom d (k + 1) rest

/-- The canonical form of a sparse buffer. -/
def sparseWf (d : α) (l : List (Nat × α)) : Bool := sparseWfFrom d 0 l

end Sparse

/-- The position of module (y, x) in MAT: row by row, for a matrix of `cols` columns. MATDIM, which
alone changes the dimensions, makes every module 0, so no position outlives them. -/
def matKey (cols y x : Nat) : Nat := y * cols + x

/-- `MAT[y][x]` (10_state.md rule R41). -/
def Block.matGet (b : Block) (y x : Nat) : Bool := sparseGet false b.mat (matKey b.mcols y x)

/-- `MAT[y][x] <- v`. -/
def Block.matSet (b : Block) (y x : Nat) (v : Bool) : Block :=
  { b with mat := sparseSet false b.mat (matKey b.mcols y x) v }

/-- The position of `TBL[mode][code]`: the table index {mode[2:0], code[7:0]} (20_memory.md rule R61). -/
def tblKey (mode : Mode) (code : Nat) : Nat := mode.val * 256 + code

/-- `TBL[mode][code]` (10_state.md rule R44). -/
def Block.tblGet (b : Block) (mode : Mode) (code : Nat) : Entry :=
  sparseGet .undef b.tbl (tblKey mode code)

/-- `TBL[mode][code] <- e`. -/
def Block.tblSet (b : Block) (mode : Mode) (code : Nat) (e : Entry) : Block :=
  { b with tbl := sparseSet .undef b.tbl (tblKey mode code) e }

/-- The canonical form of the two sparse buffers. -/
def Memory.wf (b : Block) : Bool := sparseWf false b.mat && sparseWf Entry.undef b.tbl

/-- W[k], the code-unit width of mode k, 0 where the mode is undefined (10_state.md rule R38). -/
def Block.width (b : Block) (k : Mode) : Nat := (b.modew[k]).toNat

end Sys2Proof.Machine
end

