-- ==== Sys2Proof/Machine/Flags.lean ====
section
/-! DEFINITION. The block's one flag, STATUS.FAULT (10_state.md rule R23): how it reads, and which
commands execute while it is set. No command computes a condition; it is set by `takeFault` and
cleared by `Block.clearFault` and reset only. -/

namespace Sys2Proof.Machine

/-- STATUS as a CSR: FAULT in bit 0, bits 31 to 1 zero (10_state.md rule R26). -/
def Block.statusWord (b : Block) : Word := if b.fault = true then 1 else 0

/-- The commands that execute in either state of STATUS.FAULT (60_exceptions.md rule R298). -/
def inFaultStop : Instr → Bool
  | .getr _ | .csrr _ _ | .clrerr | .srst => true
  | .nop | .ldi _ _ | .ldih _ _ | .csrw _ _ | .bclr | .brwd | .rdbits _ _ | .apbits _ _ | .avail _
  | .bitoff _ | .rsenc _ | .rsdec _ _ | .cwclr | .cwap _ | .cwrd _ _ | .cwwr _ _ | .cwtrunc _
  | .matdim _ _ | .matwr _ _ _ | .matrd _ _ _ | .pathclr | .pathap _ _ | .maprd | .mapwr | .cwpack _
  | .cwunpk | .stuff | .unstuff | .modew _ _ | .tblwr _ _ | .tblrd _ _ | .chclr | .chap _ | .chrd _ _
  | .txdec | .txenc => false

end Sys2Proof.Machine
end

