-- ==== Sys2Proof/Machine/Operands.lean ====
section
/-! DEFINITION. What commands read besides general registers: the CSR file and the fields of the
configuration registers (10_state.md rules R24 to R38), the table index (20_memory.md rule R70), and
table entries as 12-bit words (44_text.md rule R242). -/

namespace Sys2Proof

/-- m, the codeword width RSCFG.FSEL selects (10_state.md rule R30). -/
def codewordWidth (fsel : BitVec 2) : Nat :=
  match fsel with
  | 0 => 6
  | 1 => 8
  | 2 => 10
  | 3 => 12

/-- PRIM_m for the width FSEL selects (00_scope.md rule R7). -/
def Params.prim (p : Params) (fsel : BitVec 2) : Nat :=
  match fsel with
  | 0 => p.prim6
  | 1 => p.prim8
  | 2 => p.prim10
  | 3 => p.prim12

/-- The field RSCFG.FSEL selects (10_state.md rule R30), for any parameters. -/
def Params.field (p : Params) (fsel : BitVec 2) : GF := ⟨codewordWidth fsel, p.prim fsel, p.genBase⟩

end Sys2Proof

namespace Sys2Proof.Machine

/-- m, the selected codeword width (10_state.md rule R30). -/
def Block.cwWidth (b : Block) : Nat := codewordWidth b.fsel

/-- BINCFG.LENW1, bits 4:0 (10_state.md rule R31). -/
def Block.lenW1 (b : Block) : Nat := bits b.bincfg 4 0

/-- BINCFG.LENW2, bits 12:8. -/
def Block.lenW2 (b : Block) : Nat := bits b.bincfg 12 8

/-- BINCFG.LENBIAS, bits 31:16. -/
def Block.lenBias (b : Block) : Nat := bits b.bincfg 31 16

/-- TXCFG.INIT, bits 2:0 (10_state.md rule R32). -/
def Block.txInit (b : Block) : Mode := ⟨bits b.txcfg 2 0, Nat.mod_lt _ (by decide)⟩

/-- TXCFG.ACC254, bit 8. -/
def Block.acc254 (b : Block) : Bool := b.txcfg.getLsbD 8

/-- A legal value of RSCFG: bits 31 to 2 zero (rule R30). -/
def rscfgLegal (v : Word) : Bool := decide (bits v 31 2 = 0)

/-- A legal value of BINCFG (rule R31; the checks of 40_system.md rule R125). -/
def bincfgLegal (v : Word) : Bool :=
  decide (bits v 7 5 = 0 ∧ bits v 15 13 = 0 ∧ 1 ≤ bits v 4 0 ∧ bits v 4 0 ≤ 16 ∧ bits v 12 8 ≤ 16
    ∧ bits v 31 16 ≤ 2 ^ bits v 4 0)

/-- A legal value of TXCFG: reserved bits zero (rule R32). -/
def txcfgLegal (v : Word) : Bool := decide (bits v 7 3 = 0 ∧ bits v 31 9 = 0)

/-- The value a CSR reads (10_state.md rules R25 to R38). -/
def csrRead (b : Block) : Csr → Word
  | .id => Config.idWord
  | .status => b.statusWord
  | .errcode => b.errcode.setWidth 32
  | .errcmd => b.errcmd
  | .errinfo => b.errinfo
  | .rscfg => b.fsel.setWidth 32
  | .bincfg => b.bincfg
  | .txcfg => b.txcfg
  | .bitlen => BitVec.ofNat 32 b.bitlen
  | .rdpos => BitVec.ofNat 32 b.rdpos
  | .cwlen => BitVec.ofNat 32 b.cwbuf.length
  | .mrows => BitVec.ofNat 32 b.mrows
  | .mcols => BitVec.ofNat 32 b.mcols
  | .pathlen => BitVec.ofNat 32 b.path.length
  | .chlen => BitVec.ofNat 32 b.chbuf.length
  | .modew k => (b.modew[k]).setWidth 32

/-- The entry a 12-bit value {kind[11:8], arg[7:0]} stands for, where it is legal: bits 31:12 zero, a
kind of 0 to 6, an argument the kind admits (44_text.md rules R242, R247 checks 3 to 5). -/
def Entry.ofWord (e : Word) : Option Entry :=
  let arg := bits e 7 0
  if bits e 31 12 ≠ 0 then none
  else match bits e 11 8 with
    | 0 => if arg = 0 then some .undef else none
    | 1 => some (.char (BitVec.ofNat 8 arg))
    | 2 => if h : arg < 8 then some (.latch ⟨arg, h⟩) else none
    | 3 => if h : arg < 8 then some (.shift ⟨arg, h⟩) else none
    | 4 => if arg = 0 then some .binary else none
    | 5 => if arg = 0 then some .pad else none
    | 6 => if arg = 0 then some .fnc1 else none
    | _ => none

/-- The 12-bit value of an entry, zero-extended (44_text.md rule R242). -/
def Entry.toWord : Entry → Word
  | .undef => 0x000
  | .char c => BitVec.ofNat 32 (0x100 + c.toNat)
  | .latch k => BitVec.ofNat 32 (0x200 + k.val)
  | .shift k => BitVec.ofNat 32 (0x300 + k.val)
  | .binary => 0x400
  | .pad => 0x500
  | .fnc1 => 0x600

/-- The mode and code of a table index, where the entry is valid: idx[31:11] = 0, the mode defined,
the code below 2^W[mode] (20_memory.md rule R70; 44_text.md rule R247 checks 1 and 2). -/
def tblIndex (b : Block) (idx : Word) : Option (Mode × Nat) :=
  let mode : Mode := ⟨bits idx 10 8, Nat.mod_lt _ (by decide)⟩
  let code := bits idx 7 0
  if bits idx 31 11 ≠ 0 then none
  else if b.width mode = 0 ∨ code ≥ 2 ^ b.width mode then none
  else some (mode, code)

end Sys2Proof.Machine
end

