-- ==== Sys2Proof/Machine/BitUnit.lean ====
section
/-! DEFINITION. The bit unit: BCLR, BRWD, RDBITS, APBITS, AVAIL, BITOFF (41_bitstream.md). -/

namespace Sys2Proof.Machine

/-- BCLR (rule R144). -/
def execBclr (s : State) : Answer := command s fun b => .done { b with bitbuf := [], rdpos := 0 } 0

/-- BRWD (rule R145). -/
def execBrwd (s : State) : Answer := command s fun b => .done { b with rdpos := 0 } 0

/-- The rule of RDBITS (rule R146). The first check is IC_FIELD (30_encoding.md rule R98), which the
decoder makes already. -/
def rdbits (rd : Reg) (n : BitVec 6) (b : Block) : Result :=
  if bitCountOk n = false then .raise .icField 0
  else if b.available < n.toNat then .raise .idRdbits b.available
  else .done ((b.skipBits n.toNat).setRegNat rd (b.peekBits n.toNat)) 0

/-- RDBITS rd, n (rule R146). -/
def execRdbits (rd : Reg) (n : BitVec 6) (s : State) : Answer := command s (rdbits rd n)

/-- The rule of APBITS (rule R147), IC_FIELD first as in RDBITS. -/
def apbits (p : Params) (rs : Reg) (n : BitVec 6) (b : Block) : Result :=
  if bitCountOk n = false then .raise .icField 0
  else if b.bitlen + n.toNat > p.bitCap then .raise .boBit b.bitlen
  else .done (b.appendBits (b.regNat rs) n.toNat) 0

/-- APBITS rs, n (rule R147). -/
def execApbits (rs : Reg) (n : BitVec 6) (s : State) : Answer := command s (apbits s.params rs n)

/-- AVAIL rd (rule R148). -/
def execAvail (rd : Reg) (s : State) : Answer :=
  command s fun b => .done (b.setRegNat rd b.available) 0

/-- BITOFF rd (rules R149, R143): bitOffset() = RDPOS. -/
def execBitoff (rd : Reg) (s : State) : Answer :=
  command s fun b => .done (b.setRegNat rd b.rdpos) 0

end Sys2Proof.Machine
end

