-- ==== Sys2Proof/Machine/Text.lean ====
section
/-! DEFINITION. Mode tables and the character buffer: MODEW, TBLWR, TBLRD, CHCLR, CHAP, CHRD
(44_text.md rules R240 to R251). -/

namespace Sys2Proof.Machine

/-- The rule of MODEW (rule R246): the width set, all 256 entries of the mode UNDEF. The first check
is IC_FIELD (30_encoding.md rule R98), which the decoder makes already. -/
def modew (mode : Mode) (w : BitVec 4) (b : Block) : Result :=
  if codeWidthOk w = false then .raise .icField 0
  else
    .done { b with
      modew := b.modew.set mode w
      tbl := sparseErase (tblKey mode 0) (tblKey mode 256) b.tbl } 0

/-- MODEW mode, w (rule R246). -/
def execModew (mode : Mode) (w : BitVec 4) (s : State) : Answer := command s (modew mode w)

/-- The rule of TBLWR (rule R247): the index first, then the entry. -/
def tblwr (ri re : Reg) (b : Block) : Result :=
  match tblIndex b (b.reg ri) with
  | none => .raise .aeTbl (b.regNat ri)
  | some (mode, code) =>
    match Entry.ofWord (b.reg re) with
    | none => .raise .ceTbl (b.regNat re)
    | some e => .done (b.tblSet mode code e) 0

/-- TBLWR ri, re (rule R247). -/
def execTblwr (ri re : Reg) (s : State) : Answer := command s (tblwr ri re)

/-- The rule of TBLRD (rule R248). -/
def tblrd (rd ri : Reg) (b : Block) : Result :=
  match tblIndex b (b.reg ri) with
  | none => .raise .aeTbl (b.regNat ri)
  | some (mode, code) => .done (b.setReg rd (b.tblGet mode code).toWord) 0

/-- TBLRD rd, ri (rule R248). -/
def execTblrd (rd ri : Reg) (s : State) : Answer := command s (tblrd rd ri)

/-- CHCLR (rule R249). -/
def execChclr (s : State) : Answer := command s fun b => .done { b with chbuf := [] } 0

/-- The rule of CHAP (rule R250): bits 9:0 of r[rs]. -/
def chap (p : Params) (rs : Reg) (b : Block) : Result :=
  if b.chbuf.length ≥ p.chCap then .raise .boCh b.chbuf.length
  else .done { b with chbuf := b.chbuf ++ [(b.reg rs).setWidth 10] } 0

/-- CHAP rs (rule R250). -/
def execChap (rs : Reg) (s : State) : Answer := command s (chap s.params rs)

/-- The rule of CHRD (rule R251). -/
def chrd (rd ri : Reg) (b : Block) : Result :=
  match b.chbuf[b.regNat ri]? with
  | none => .raise .aeCh (b.regNat ri)
  | some e => .done (b.setReg rd (e.setWidth 32)) 0

/-- CHRD rd, ri (rule R251). -/
def execChrd (rd ri : Reg) (s : State) : Answer := command s (chrd rd ri)

end Sys2Proof.Machine
end

