-- ==== Sys2Proof/Machine/Compress.lean ====
section
/-! DEFINITION. The compressor TXENC, the deterministic greedy rule of 44_text.md rules R256 to R260. -/

namespace Sys2Proof.Machine

/-- The modes in rising order. -/
def allModes : List Mode := [0, 1, 2, 3, 4, 5, 6, 7]

/-- A defined mode (rule R240). -/
def Block.modeDefined (b : Block) (k : Mode) : Bool := decide (b.width k ≠ 0)

/-- `find(a, e)` (rule R256): the least code of mode a that holds e. -/
def Block.findCode (b : Block) (a : Mode) (e : Entry) : Option Nat :=
  (List.range (2 ^ b.width a)).find? fun v => decide (b.tblGet a v = e)

/-- A defined mode a has a code that holds e. -/
def Block.hasCode (b : Block) (a : Mode) (e : Entry) : Bool :=
  b.modeDefined a && (b.findCode a e).isSome

/-- The classes of rule R257, cheapest first. -/
inductive Cls where
  | direct
  | shifted
  | bin
  deriving DecidableEq, Repr

/-- The number of a class (rule R257). -/
def Cls.rank : Cls → Nat
  | .direct => 0
  | .shifted => 1
  | .bin => 2

/-- Mode s gives c for one shift out of mode a (rules R257, R260). -/
def Block.shiftsTo (b : Block) (a : Mode) (c : Byte) (s : Mode) : Bool :=
  b.hasCode a (.shift s) && b.hasCode s (.char c)

/-- The least mode that gives c for one shift out of mode a. -/
def Block.shiftMode (b : Block) (a : Mode) (c : Byte) : Option Mode :=
  allModes.find? (b.shiftsTo a c)

/-- `loc(a, c)` (rule R257). -/
def Block.loc (b : Block) (a : Mode) (c : Byte) : Option Cls :=
  if b.hasCode a (.char c) = true then some .direct
  else if (b.shiftMode a c).isSome = true then some .shifted
  else if b.hasCode a .binary = true then some .bin
  else none

/-- `edge(a, b)` (rule R258): a latch code from one defined mode to another. -/
def Block.edge (b : Block) (x y : Mode) : Bool := b.hasCode x (.latch y) && b.modeDefined y

/-- The modes one latch away from some mode of a list. -/
def Block.nextLayer (b : Block) (l : List Mode) : List Mode :=
  allModes.filter fun y => l.any fun x => b.edge x y

/-- The modes reached from a by exactly d latches. -/
def Block.layer (b : Block) (a : Mode) : Nat → List Mode
  | 0 => [a]
  | d + 1 => b.nextLayer (b.layer a d)

/-- `dist(a, t)` (rule R258): the least number of latches from a to t, none where there is no path.
A shortest path among eight modes has at most seven edges. -/
def Block.latchDist (b : Block) (a t : Mode) : Option Nat :=
  (List.range 8).find? fun d => (b.layer a d).contains t

/-- A candidate of `choose` (rule R258): class, distance, mode. -/
structure Candidate where
  cls : Cls
  dist : Nat
  mode : Mode
  deriving DecidableEq, Repr

/-- The order of candidates: class first, then distance, then mode (rule R258). -/
def Candidate.before (p q : Candidate) : Bool :=
  decide (p.cls.rank < q.cls.rank ∨ p.cls.rank = q.cls.rank ∧
    (p.dist < q.dist ∨ p.dist = q.dist ∧ p.mode < q.mode))

/-- The candidates of `choose(cur, c, _)` (rule R258). -/
def Block.candidates (b : Block) (cur : Mode) (c : Byte) : List Candidate :=
  allModes.filterMap fun a =>
    if b.modeDefined a = true then
      match b.latchDist cur a, b.loc a c with
      | some d, some k => some ⟨k, d, a⟩
      | _, _ => none
    else none

/-- The least of some candidates. -/
def leastCandidate : List Candidate → Option Candidate
  | [] => none
  | p :: ps =>
    match leastCandidate ps with
    | none => some p
    | some q => some (if q.before p = true then q else p)

/-- `choose(cur, c, nx)` (rule R258): the target mode and the class. -/
def Block.choose (b : Block) (cur : Mode) (c : Byte) (nx : Option Byte) : Option (Mode × Cls) :=
  if b.loc cur c = some .shifted ∧
      (match nx with
       | none => true
       | some c' => decide (b.loc cur c' = some .direct)) = true then
    some (cur, .shifted)
  else (leastCandidate (b.candidates cur c)).map fun p => (p.mode, p.cls)

/-- One code to emit: its value and its width in bits. -/
structure Emit where
  val : Nat
  width : Nat
  deriving DecidableEq, Repr

/-- The code of mode a that holds e, to emit in W[a] bits. Its callers know that there is one. -/
def Block.emitCode (b : Block) (a : Mode) (e : Entry) : Emit :=
  ⟨(b.findCode a e).getD 0, b.width a⟩

/-- The next mode on the latch path from a to t, d latches away (rule R259): the least one latch away
from a from which d − 1 more suffice. -/
def Block.latchStep (b : Block) (a t : Mode) (d : Nat) : Option Mode :=
  allModes.find? fun y => b.edge a y && decide (b.latchDist y t = some (d - 1))

/-- The latch path from a to t (rule R259), at most `k` codes. -/
def Block.latchPath (b : Block) : Nat → Mode → Mode → List Emit
  | 0, _, _ => []
  | k + 1, a, t =>
    if a = t then []
    else
      match b.latchDist a t with
      | none => []
      | some d =>
        match b.latchStep a t d with
        | none => []
        | some y => b.emitCode a (.latch y) :: b.latchPath k y t

/-- The longest binary run one prefix can announce (rule R260). -/
def Block.maxRun (b : Block) : Nat :=
  if b.lenW2 ≠ 0 then 2 ^ b.lenW2 - 1 + b.lenBias else 2 ^ b.lenW1 - 1

/-- The bytes at the front of the text that join a binary run in mode cur, at most `k` (rule R260). -/
def Block.binRun (b : Block) (cur : Mode) : Nat → List Byte → List Byte
  | 0, _ => []
  | _ + 1, [] => []
  | k + 1, c :: rest =>
    if b.choose cur c rest.head? = some (cur, .bin) then c :: b.binRun cur k rest else []

/-- The length prefix of a binary run of L bytes (rule R260). -/
def Block.emitLength (b : Block) (L : Nat) : List Emit :=
  if L ≤ 2 ^ b.lenW1 - 1 then [⟨L, b.lenW1⟩] else [⟨0, b.lenW1⟩, ⟨L - b.lenBias, b.lenW2⟩]

/-- A binary run in mode cur (rule R260). -/
def Block.emitRun (b : Block) (cur : Mode) (run : List Byte) : List Emit :=
  b.emitCode cur .binary :: (b.emitLength run.length ++ run.map fun c => ⟨c.toNat, 8⟩)

/-- The codes of one character in mode cur directly or by a shift (rule R260). -/
def Block.emitShifted (b : Block) (cur : Mode) (c : Byte) : List Emit :=
  match b.shiftMode cur c with
  | none => []
  | some s => [b.emitCode cur (.shift s), b.emitCode s (.char c)]

/-- The loop of rule R260 over the text from index i on, or the index of the first byte that cannot
be encoded. Every pass takes at least one byte, so that as many passes as there are bytes suffice. -/
def txencLoop (b : Block) : Nat → Nat → Mode → List Byte → Except Nat (List Emit)
  | 0, _, _, _ => .ok []
  | _ + 1, _, _, [] => .ok []
  | k + 1, i, cur, c :: rest =>
    match b.choose cur c rest.head? with
    | none => .error i
    | some (t, cls) =>
      let run := match cls with
        | .bin => b.binRun t b.maxRun (c :: rest)
        | .direct | .shifted => [c]
      let codes := match cls with
        | .direct => [b.emitCode t (.char c)]
        | .shifted => b.emitShifted t c
        | .bin => b.emitRun t run
      match txencLoop b k (i + run.length) t ((c :: rest).drop run.length) with
      | .error j => .error j
      | .ok more => .ok (b.latchPath 8 cur t ++ codes ++ more)

/-- The bytes of CHBUF; bits 9:8 of an entry are ignored (rule R260). -/
def Block.text (b : Block) : List Byte := b.chbuf.map fun e => e.setWidth 8

/-- The codes of the whole text from mode `init` on. -/
def compress (b : Block) (init : Mode) : Except Nat (List Emit) :=
  txencLoop b b.text.length 0 init b.text

/-- The bits of codes to emit, in order. -/
def emitBits : List Emit → List Bool
  | [] => []
  | e :: es => natBits e.val e.width ++ emitBits es

/-- The rule of TXENC (rule R260). -/
def txenc (p : Params) (b : Block) : Result :=
  if b.width b.txInit = 0 then .raise .ceInitmode b.txInit.val
  else
    match compress b b.txInit with
    | .error i => .raise .feUnenc i
    | .ok emits =>
      if b.bitlen + (emitBits emits).length > p.bitCap then .raise .boBit b.bitlen
      else .done (b.pushBits (emitBits emits)) 0

/-- TXENC (rule R260). -/
def execTxenc (s : State) : Answer := command s (txenc s.params)

end Sys2Proof.Machine
end

