-- ==== Sys2Proof/Machine/Decompress.lean ====
section
/-! DEFINITION. The decompressor TXDEC (44_text.md rules R243 to R245 and R252 to R255). -/

namespace Sys2Proof.Machine

/-- The session of one TXDEC (rule R244): the latched mode, the mode in which the next code is read,
the entries so far. `rest` is the unread bits, so that available() is its length. The pending-bytes
buffer lives inside one pass: `readBytes` fills it and the run's end flushes it (rule R254). -/
structure Session where
  latch : Mode
  active : Mode
  out : List (BitVec 10)
  rest : List Bool
  deriving DecidableEq, Repr

/-- How the decoding ends (rule R252): normally, with the entries and the bits left over, or in a
`raise`. -/
inductive TxEnd where
  | done (out : List (BitVec 10)) (rest : List Bool)
  | raise (c : FaultCode) (info : Nat)
  deriving DecidableEq, Repr

/-- The entry of a CHAR code: 0x000 | c (rule R243). -/
def charEntry (c : Byte) : BitVec 10 := c.setWidth 10

/-- The entry of a byte of a binary run: 0x100 | b (rule R243). -/
def binEntry (v : Nat) : BitVec 10 := BitVec.ofNat 10 (0x100 + v)

/-- The entry of an FNC1 code (rule R243). -/
def fnc1Entry : BitVec 10 := 0x21D

/-- Up to `n` literal bytes of 8 bits: those read, the bits left, and whether the bits ran out
(rule R254: "short"). -/
def readBytes : Nat → List Bool → List Nat × List Bool × Bool
  | 0, rest => ([], rest, false)
  | n + 1, rest =>
    if rest.length < 8 then ([], rest, true)
    else
      let r := readBytes n (rest.drop 8)
      (bitsVal (rest.take 8) :: r.1, r.2.1, r.2.2)

/-- The run length of a binary run (rule R254): the length, or the bits left when they ran out inside
the prefix. With the bits left behind the prefix. -/
def readRunLength (b : Block) (rest : List Bool) : Except (List Bool) (Nat × List Bool) :=
  if rest.length < b.lenW1 then .error rest
  else
    let L := bitsVal (rest.take b.lenW1)
    let rest := rest.drop b.lenW1
    if L = 0 ∧ b.lenW2 ≠ 0 then
      if rest.length < b.lenW2 then .error rest
      else .ok (bitsVal (rest.take b.lenW2) + b.lenBias, rest.drop b.lenW2)
    else .ok (L, rest)

/-- The special case of rule R255: ACC254 = 1, an 8-bit code 254 without an entry, no bit left. -/
def trailing254 (b : Block) (w v : Nat) (rest : List Bool) : Bool :=
  b.acc254 && decide (w = 8) && decide (v = 254) && rest.isEmpty

/-- One pass of the loop of rule R252: the end, or the session after it. -/
def txPass (b : Block) (ss : Session) : TxEnd ⊕ Session :=
  let w := b.width ss.active
  if ss.rest.length < w then .inl (.done ss.out ss.rest)
  else
    let v := bitsVal (ss.rest.take w)
    let rest := ss.rest.drop w
    match b.tblGet ss.active v with
    | .undef =>
      if trailing254 b w v rest = true then .inl (.done ss.out rest)
      else .inl (.raise .feTxundef (ss.active.val * 256 + v))
    | .char c => .inr { latch := ss.latch, active := ss.latch, out := ss.out ++ [charEntry c], rest := rest }
    | .fnc1 => .inr { latch := ss.latch, active := ss.latch, out := ss.out ++ [fnc1Entry], rest := rest }
    | .pad => .inl (.done ss.out rest)
    | .latch k =>
      if b.width k = 0 then .inl (.raise .feTxmode (ss.active.val * 256 + v))
      else .inr { latch := k, active := k, out := ss.out, rest := rest }
    | .shift k =>
      if b.width k = 0 then .inl (.raise .feTxmode (ss.active.val * 256 + v))
      else .inr { latch := ss.active, active := k, out := ss.out, rest := rest }
    | .binary =>
      match readRunLength b rest with
      | .error rest => .inl (.done ss.out rest)
      | .ok (L, rest) =>
        let r := readBytes L rest
        let out := ss.out ++ r.1.map binEntry
        if r.2.2 = true then .inl (.done out r.2.1)
        else .inr { latch := ss.active, active := ss.active, out := out, rest := r.2.1 }

/-- The loop of rule R252. Every pass takes at least one bit (W >= 1), so that one pass more than
there are bits suffices. -/
def txLoop (b : Block) : Nat → Session → TxEnd
  | 0, ss => .done ss.out ss.rest
  | k + 1, ss =>
    match txPass b ss with
    | .inl e => e
    | .inr ss => txLoop b k ss

/-- The decoding of the unread bits from mode `init` on. -/
def decompress (b : Block) (init : Mode) : TxEnd :=
  txLoop b (b.unread.length + 1) { latch := init, active := init, out := [], rest := b.unread }

/-- The rule of TXDEC (rule R252). The bits left over are the last of BITBUF, so that RDPOS ends at
BITLEN less their number. -/
def txdec (p : Params) (b : Block) : Result :=
  if b.width b.txInit = 0 then .raise .ceInitmode b.txInit.val
  else
    match decompress b b.txInit with
    | .raise c info => .raise c info
    | .done out rest =>
      if out.length > p.chCap then .raise .boCh out.length
      else .done { b with chbuf := out, rdpos := b.bitlen - rest.length } 0

/-- TXDEC (rule R252). -/
def execTxdec (s : State) : Answer := command s (txdec s.params)

end Sys2Proof.Machine
end

