-- ==== Sys2Proof/Machine/Galois.lean ====
section
/-! DEFINITION. The arithmetic of GF(2^m) and the Reed-Solomon code over it (42_reed_solomon.md
rules R160 to R170), for any parameters: a field element is the natural number below 2^m of rule
R160, a polynomial is its list of coefficients, highest power first (rule R165). -/

namespace Sys2Proof.Machine

/-! ### The field (rules R160 to R164) -/

/-- The element a times x, reduced modulo PRIM_m: one pass of the loop of rule R161. -/
def gfTimesX (F : GF) (a : Nat) : Nat :=
  if (2 * a).testBit F.m = true then 2 * a ^^^ F.prim else 2 * a

/-- The loop of rule R161: `k` more bits of b, a shifted, r the sum so far. -/
def gfMulLoop (F : GF) : Nat → Nat → Nat → Nat → Nat
  | 0, _, _, r => r
  | k + 1, a, b, r => gfMulLoop F k (gfTimesX F a) (b / 2) (if b % 2 = 1 then r ^^^ a else r)

/-- `gf_mul(a, b)` for a, b < 2^m (rule R161): b has at most m bits. -/
def gfMul (F : GF) (a b : Nat) : Nat := gfMulLoop F F.m a b 0

/-- α^e, α = 2 (rule R162); `EXP[e]` of rule R163. -/
def alphaPow (F : GF) : Nat → Nat
  | 0 => 1
  | e + 1 => gfMul F (alphaPow F e) 2

/-- `LOG[a]` for a != 0 (rule R163): the exponent below q − 1 of a. No command reads it. -/
def gfLog (F : GF) (a : Nat) : Option Nat :=
  (List.range (F.q - 1)).find? fun i => decide (alphaPow F i = a)

/-- a^e by repeated multiplication. -/
def gfPow (F : GF) (a : Nat) : Nat → Nat
  | 0 => 1
  | e + 1 => gfMul F (gfPow F a e) a

/-- The product of acc with the next `k` squarings s^2, s^4, ... of s. -/
def gfInvLoop (F : GF) : Nat → Nat → Nat → Nat
  | 0, _, acc => acc
  | k + 1, s, acc =>
    let s2 := gfMul F s s
    gfInvLoop F k s2 (gfMul F acc s2)

/-- `gf_inv(a)`, the element with gf_mul(a, gf_inv(a)) = 1 for a != 0 (rule R164), as a^(q−2). -/
def gfInv (F : GF) (a : Nat) : Nat := gfInvLoop F (F.m - 1) a 1

/-- PRIM_m has degree exactly m (rule R160). -/
def DegreeLegal (F : GF) : Prop := 2 ^ F.m ≤ F.prim ∧ F.prim < 2 ^ (F.m + 1)

/-- What rule R160 requires of PRIM_m: degree exactly m, and 2 of order exactly q − 1. -/
def FieldLegal (F : GF) : Prop :=
  DegreeLegal F ∧ alphaPow F (F.q - 1) = 1 ∧ ∀ e, 0 < e → e < F.q - 1 → alphaPow F e ≠ 1

/-! ### Polynomials, highest power first (rules R165 to R168) -/

/-- `poly_eval(c, z)` by Horner's rule (rule R166). -/
def polyEval (F : GF) (c : List Nat) (z : Nat) : Nat :=
  c.foldl (fun acc x => gfMul F acc z ^^^ x) 0

/-- A polynomial times (x + root). -/
def timesRoot (F : GF) (root : Nat) (g : List Nat) : List Nat :=
  List.zipWith (· ^^^ ·) (g ++ [0]) (0 :: g.map fun c => gfMul F c root)

/-- The generator polynomial g_E of E roots from α^GENBASE on (rule R167): E + 1 coefficients. -/
def genPoly (F : GF) : Nat → List Nat
  | 0 => [1]
  | E + 1 => timesRoot F (alphaPow F (F.genBase + E)) (genPoly F E)

/-- The first list added to the front of the second. -/
def xorInto : List Nat → List Nat → List Nat
  | [], r => r
  | _ :: _, [] => []
  | p :: ps, r :: rs => (r ^^^ p) :: xorInto ps rs

/-- `k` steps of the long division of rule R168: the leading coefficient f is taken off and
f·g[1 .. E] added to what follows. (Where f = 0 this adds zeros.) -/
def remLoop (F : GF) (g : List Nat) : Nat → List Nat → List Nat
  | 0, rem => rem
  | _ + 1, [] => []
  | k + 1, f :: rem => remLoop F g k (xorInto (g.tail.map fun c => gfMul F c f) rem)

/-- `parity(D, E)` (rule R168): the E coefficients of the remainder of D(x)·x^E by g_E(x). -/
def parity (F : GF) (D : List Nat) (E : Nat) : List Nat :=
  remLoop F (genPoly F E) D.length (D ++ List.replicate E 0)

/-- The syndromes S_j = R(α^(GENBASE+j)), 0 <= j < E (rules R168, R170). -/
def syndromes (F : GF) (R : List Nat) (E : Nat) : List Nat :=
  (List.range E).map fun j => polyEval F R (alphaPow F (F.genBase + j))

/-! ### Decoding, defined by its result (rules R168, R169) -/

/-- Code(n, E) of rule R168: n field elements whose polynomial vanishes at the E roots. -/
def InCode (F : GF) (n E : Nat) (C : List Nat) : Prop :=
  C.length = n ∧ (∀ c ∈ C, c < F.q) ∧ ∀ j, j < E → polyEval F C (alphaPow F (F.genBase + j)) = 0

/-- `dist(A, B)`: the number of indexes at which two sequences of one length differ (rule R169). -/
def wordDist (A B : List Nat) : Nat := (List.zipWith (fun a b => decide (a ≠ b)) A B).count true

/-- The set S of rule R169: the words of the code within floor(E/2) of R. -/
def InReach (F : GF) (R : List Nat) (E : Nat) (C : List Nat) : Prop :=
  InCode F R.length E C ∧ wordDist C R ≤ E / 2

/-! ### A procedure that meets rule R169: the one of rule R170 (log 3) -/

/-- A polynomial without its leading zeros. -/
def polyTrim (a : List Nat) : List Nat := a.dropWhile (· == 0)

/-- The sum of two polynomials. -/
def polyAdd (a b : List Nat) : List Nat :=
  List.zipWith (· ^^^ ·) (List.replicate (b.length - a.length) 0 ++ a)
    (List.replicate (a.length - b.length) 0 ++ b)

/-- The product of two polynomials. -/
def polyMul (F : GF) (a b : List Nat) : List Nat :=
  a.foldl (fun acc c => polyAdd (acc ++ [0]) (b.map (gfMul F c))) []

/-- `k` steps of long division by a polynomial whose leading coefficient has the inverse `inv` and
whose other coefficients are `bt`: quotient and remainder. -/
def divLoop (F : GF) (inv : Nat) (bt : List Nat) : Nat → List Nat → List Nat × List Nat
  | 0, a => ([], a)
  | _ + 1, [] => ([], [])
  | k + 1, f :: a =>
    let c := gfMul F f inv
    let qr := divLoop F inv bt k (xorInto (bt.map (gfMul F c)) a)
    (c :: qr.1, qr.2)

/-- Quotient and remainder by a polynomial with a nonzero leading coefficient. -/
def polyDivMod (F : GF) (a b : List Nat) : List Nat × List Nat :=
  match b with
  | [] => ([], a)
  | b0 :: bt => divLoop F (gfInv F b0) bt (a.length + 1 - b.length) a

/-- The formal derivative: the coefficients of odd powers, one power lower. -/
def polyDeriv : List Nat → List Nat
  | [] => []
  | [_] => []
  | c :: c' :: rest => (if rest.length % 2 = 0 then c else 0) :: polyDeriv (c' :: rest)

/-- The extended Euclidean algorithm on x^E and S(x), stopped when the remainder's degree falls below
E/2: the locator and the evaluator (rule R170 step 2). -/
def euclid (F : GF) (E : Nat) : Nat → List Nat → List Nat → List Nat → List Nat → List Nat × List Nat
  | 0, _, r1, _, t1 => (t1, r1)
  | k + 1, r0, r1, t0, t1 =>
    if r1 = [] ∨ 2 * (r1.length - 1) < E then (t1, r1)
    else
      let qr := polyDivMod F r0 r1
      euclid F E k r1 (polyTrim qr.2) t1 (polyAdd (polyMul F qr.1 t1) t0)

/-- The error value at the index whose locator is X: 0 where X^-1 is no root of the locator, else
Forney's value X·X^-GENBASE·ω(X^-1)/σ'(X^-1) (rule R170 steps 3 and 4). -/
def errorValue (F : GF) (sigma omega : List Nat) (X : Nat) : Nat :=
  let z := gfInv F X
  if polyEval F sigma z = 0 then
    gfMul F (gfMul F X (gfPow F z F.genBase))
      (gfMul F (polyEval F omega z) (gfInv F (polyEval F (polyDeriv sigma) z)))
  else 0

/-- The error values at the indexes 0 to n − 1 of a word of n codewords. -/
def errorValues (F : GF) (sigma omega : List Nat) (n : Nat) : List Nat :=
  (List.range n).map fun i => errorValue F sigma omega (alphaPow F (n - 1 - i))

/-- `rs_decode(R, E)` (rule R169) by the procedure of rule R170: the corrected word and the number of
codewords corrected, or none. -/
def rsDecode (F : GF) (R : List Nat) (E : Nat) : Option (List Nat × Nat) :=
  let S := syndromes F R E
  if S.all (· == 0) = true then some (R, 0)
  else
    let so := euclid F E (E + 1) (1 :: List.replicate E 0) (polyTrim S.reverse) [] [1]
    let sigma := polyTrim so.1
    let e := sigma.length - 1
    if e = 0 ∨ e > E / 2 ∨ sigma.getLastD 0 = 0 then none
    else
      let errs := errorValues F sigma so.2 R.length
      let C := List.zipWith (· ^^^ ·) R errs
      if errs.countP (· != 0) = e ∧ (syndromes F C E).all (· == 0) = true then some (C, e) else none

end Sys2Proof.Machine
end

