-- ==== Sys2Proof/Machine/ReedSolomon.lean ====
section
/-! DEFINITION. The codeword buffer and the Reed-Solomon commands: CWCLR, CWAP, CWRD, CWWR, CWTRUNC,
RSENC, RSDEC (42_reed_solomon.md rules R171 to R177). -/

namespace Sys2Proof.Machine

/-- CWBUF[0 .. CWLEN-1] as field elements. -/
def Block.cws (b : Block) : List Nat := b.cwbuf.map BitVec.toNat

/-- Codewords as CWBUF holds them, in 12 bits (10_state.md rule R40). -/
def toCodewords (l : List Nat) : List (BitVec 12) := l.map (BitVec.ofNat 12)

/-- CWCLR (rule R171). -/
def execCwclr (s : State) : Answer := command s fun b => .done { b with cwbuf := [] } 0

/-- The rule of CWAP (rule R172). -/
def cwap (p : Params) (rs : Reg) (b : Block) : Result :=
  if b.regNat rs ≥ 2 ^ b.cwWidth then .raise .ceCwwidth (b.regNat rs)
  else if b.cwbuf.length ≥ p.cwCap then .raise .boCw b.cwbuf.length
  else .done { b with cwbuf := b.cwbuf ++ toCodewords [b.regNat rs] } 0

/-- CWAP rs (rule R172). -/
def execCwap (rs : Reg) (s : State) : Answer := command s (cwap s.params rs)

/-- The rule of CWRD (rule R173). -/
def cwrd (rd ri : Reg) (b : Block) : Result :=
  match b.cws[b.regNat ri]? with
  | none => .raise .aeCw (b.regNat ri)
  | some c => .done (b.setRegNat rd c) 0

/-- CWRD rd, ri (rule R173). -/
def execCwrd (rd ri : Reg) (s : State) : Answer := command s (cwrd rd ri)

/-- The rule of CWWR (rule R174). -/
def cwwr (ri rs : Reg) (b : Block) : Result :=
  if b.regNat ri ≥ b.cwbuf.length then .raise .aeCw (b.regNat ri)
  else if b.regNat rs ≥ 2 ^ b.cwWidth then .raise .ceCwwidth (b.regNat rs)
  else .done { b with cwbuf := b.cwbuf.set (b.regNat ri) (BitVec.ofNat 12 (b.regNat rs)) } 0

/-- CWWR ri, rs (rule R174). -/
def execCwwr (ri rs : Reg) (s : State) : Answer := command s (cwwr ri rs)

/-- The rule of CWTRUNC (rule R175). -/
def cwtrunc (rn : Reg) (b : Block) : Result :=
  if b.regNat rn > b.cwbuf.length then .raise .aeCw (b.regNat rn)
  else .done { b with cwbuf := b.cwbuf.take (b.regNat rn) } 0

/-- CWTRUNC rn (rule R175). -/
def execCwtrunc (rn : Reg) (s : State) : Answer := command s (cwtrunc rn)

/-- The rule of RSENC (rule R176). -/
def rsenc (p : Params) (re : Reg) (b : Block) : Result :=
  let E := b.regNat re
  let k := b.cwbuf.length
  if k + E > 2 ^ b.cwWidth - 1 then .raise .ceRslen (k + E)
  else if k + E > p.cwCap then .raise .boCw k
  else .done { b with cwbuf := b.cwbuf ++ toCodewords (parity (p.field b.fsel) b.cws E) } 0

/-- RSENC re (rule R176). -/
def execRsenc (re : Reg) (s : State) : Answer := command s (rsenc s.params re)

/-- The rule of RSDEC (rule R177). -/
def rsdec (p : Params) (rd re : Reg) (b : Block) : Result :=
  let E := b.regNat re
  let n := b.cwbuf.length
  if n > 2 ^ b.cwWidth - 1 then .raise .ceRslen n
  else if E > n then .raise .feRslen E
  else match rsDecode (p.field b.fsel) b.cws E with
    | none => .raise .ueRs 0
    | some (C, e) => .done ({ b with cwbuf := toCodewords C }.setRegNat rd e) 0

/-- RSDEC rd, re (rule R177). -/
def execRsdec (rd re : Reg) (s : State) : Answer := command s (rsdec s.params rd re)

end Sys2Proof.Machine
end

