-- ==== Sys2Proof/Machine/Mapper.lean ====
section
/-! DEFINITION. The mapper: MATDIM, MATWR, MATRD, PATHCLR, PATHAP, MAPRD, MAPWR, CWPACK, CWUNPK,
STUFF, UNSTUFF (43_mapper.md). -/

namespace Sys2Proof.Machine

/-! ### Matrix (rules R203 to R205) -/

/-- The rule of MATDIM (rule R203): every module of the new matrix is 0. -/
def matdim (p : Params) (ry rx : Reg) (b : Block) : Result :=
  let rows := b.regNat ry
  let cols := b.regNat rx
  if rows < 1 ∨ rows > p.matMax then .raise .ceDim rows
  else if cols < 1 ∨ cols > p.matMax then .raise .ceDim cols
  else .done { b with mrows := rows, mcols := cols, mat := [] } 0

/-- MATDIM ry, rx (rule R203). -/
def execMatdim (ry rx : Reg) (s : State) : Answer := command s (matdim s.params ry rx)

/-- The rule of MATWR (rule R204); bits 31:1 of r[rv] are ignored. -/
def matwr (ry rx rv : Reg) (b : Block) : Result :=
  if b.regNat ry ≥ b.mrows then .raise .aeMat (b.regNat ry)
  else if b.regNat rx ≥ b.mcols then .raise .aeMat (b.regNat rx)
  else .done (b.matSet (b.regNat ry) (b.regNat rx) ((b.reg rv).getLsbD 0)) 0

/-- MATWR ry, rx, rv (rule R204). -/
def execMatwr (ry rx rv : Reg) (s : State) : Answer := command s (matwr ry rx rv)

/-- The rule of MATRD (rule R205). -/
def matrd (rd ry rx : Reg) (b : Block) : Result :=
  if b.regNat ry ≥ b.mrows then .raise .aeMat (b.regNat ry)
  else if b.regNat rx ≥ b.mcols then .raise .aeMat (b.regNat rx)
  else .done (b.setRegNat rd (b.matGet (b.regNat ry) (b.regNat rx)).toNat) 0

/-- MATRD rd, ry, rx (rule R205). -/
def execMatrd (rd ry rx : Reg) (s : State) : Answer := command s (matrd rd ry rx)

/-! ### Path (rules R206, R207) -/

/-- PATHCLR (rule R206). -/
def execPathclr (s : State) : Answer := command s fun b => .done { b with path := [] } 0

/-- The rule of PATHAP (rule R207): the coordinate is checked against MATMAX only. -/
def pathap (p : Params) (ry rx : Reg) (b : Block) : Result :=
  if b.regNat ry ≥ p.matMax then .raise .aePath (b.regNat ry)
  else if b.regNat rx ≥ p.matMax then .raise .aePath (b.regNat rx)
  else if b.path.length ≥ p.pathCap then .raise .boPath b.path.length
  else .done { b with path := b.path ++ [⟨b.regNat ry, b.regNat rx⟩] } 0

/-- PATHAP ry, rx (rule R207). -/
def execPathap (ry rx : Reg) (s : State) : Answer := command s (pathap s.params ry rx)

/-! ### Matrix to bits and back (rules R208, R209) -/

/-- A coordinate outside the matrix. -/
def Block.outside (b : Block) (c : Coord) : Bool := decide (c.y ≥ b.mrows ∨ c.x ≥ b.mcols)

/-- The lowest path index whose coordinate lies outside the matrix (check 1 of rules R208, R209). -/
def Block.badPathIndex (b : Block) : Option Nat := b.path.findIdx? b.outside

/-- The modules along the path, in its order. -/
def Block.pathBits (b : Block) : List Bool := b.path.map fun c => b.matGet c.y c.x

/-- The rule of MAPRD (rule R208). -/
def maprd (p : Params) (b : Block) : Result :=
  match b.badPathIndex with
  | some k => .raise .aePath k
  | none =>
    if b.bitlen + b.path.length > p.bitCap then .raise .boBit b.bitlen
    else .done (b.pushBits b.pathBits) 0

/-- MAPRD (rule R208). -/
def execMaprd (s : State) : Answer := command s (maprd s.params)

/-- Bits placed along coordinates, in order, so that the last visit of a module wins. -/
def Block.place (b : Block) : List Coord → List Bool → Block
  | c :: cs, v :: vs => (b.matSet c.y c.x v).place cs vs
  | _, _ => b

/-- The rule of MAPWR (rule R209). -/
def mapwr (b : Block) : Result :=
  match b.badPathIndex with
  | some k => .raise .aePath k
  | none =>
    if b.available < b.path.length then .raise .idMapwr b.available
    else .done ((b.place b.path b.unread).skipBits b.path.length) 0

/-- MAPWR (rule R209). -/
def execMapwr (s : State) : Answer := command s mapwr

/-! ### Bits to codewords and back (rules R202, R210, R211) -/

/-- The next c numbers of m bits each. -/
def unpackBits (m : Nat) : Nat → List Bool → List Nat
  | 0, _ => []
  | c + 1, l => bitsVal (l.take m) :: unpackBits m c (l.drop m)

/-- Numbers as m bits each, in order. -/
def packBits (m : Nat) : List Nat → List Bool
  | [] => []
  | c :: cs => natBits c m ++ packBits m cs

/-- The rule of CWPACK (rule R210). -/
def cwpack (p : Params) (rn : Reg) (b : Block) : Result :=
  let c := b.regNat rn
  if b.available < c * b.cwWidth then .raise .idCwpack b.available
  else if b.cwbuf.length + c > p.cwCap then .raise .boCw b.cwbuf.length
  else
    .done ({ b with cwbuf := b.cwbuf ++ toCodewords (unpackBits b.cwWidth c b.unread) }.skipBits
      (c * b.cwWidth)) 0

/-- CWPACK rn (rule R210). -/
def execCwpack (rn : Reg) (s : State) : Answer := command s (cwpack s.params rn)

/-- The rule of CWUNPK (rule R211). -/
def cwunpk (p : Params) (b : Block) : Result :=
  if b.bitlen + b.cwbuf.length * b.cwWidth > p.bitCap then .raise .boBit b.bitlen
  else .done (b.pushBits (packBits b.cwWidth b.cws)) 0

/-- CWUNPK (rule R211). -/
def execCwunpk (s : State) : Answer := command s (cwunpk s.params)

/-! ### Bit-stuffing (rules R212, R213) -/

/-- The m bits that STUFF looks at: past the end of the unread bits, ones (rule R212). -/
def stuffWord (m : Nat) (l : List Bool) : Nat := bitsVal ((l ++ List.replicate m true).take m)

/-- The loop of rule R212 over the unread bits; every pass takes at least m − 1 of them, so that as
many passes as there are bits suffice. -/
def stuffBits (m : Nat) : Nat → List Bool → List Nat
  | 0, _ => []
  | _ + 1, [] => []
  | k + 1, v :: l =>
    let word := stuffWord m (v :: l)
    if word / 2 = 2 ^ (m - 1) - 1 then (2 ^ m - 1 - 1) :: stuffBits m k ((v :: l).drop (m - 1))
    else if word / 2 = 0 then 1 :: stuffBits m k ((v :: l).drop (m - 1))
    else word :: stuffBits m k ((v :: l).drop m)

/-- The rule of STUFF (rule R212). -/
def stuff (p : Params) (b : Block) : Result :=
  let out := stuffBits b.cwWidth b.unread.length b.unread
  if b.cwbuf.length + out.length > p.cwCap then .raise .boCw b.cwbuf.length
  else .done { b with cwbuf := b.cwbuf ++ toCodewords out, rdpos := b.bitlen } 0

/-- STUFF (rule R212). -/
def execStuff (s : State) : Answer := command s (stuff s.params)

/-- The bits a data codeword stands for (rule R213). -/
def unstuffOne (m c : Nat) : List Bool :=
  if c = 1 then natBits 0 (m - 1)
  else if c = 2 ^ m - 1 - 1 then natBits (2 ^ (m - 1) - 1) (m - 1)
  else natBits c m

/-- The bits that data codewords stand for, in order. -/
def unstuffBits (m : Nat) : List Nat → List Bool
  | [] => []
  | c :: cs => unstuffOne m c ++ unstuffBits m cs

/-- The rule of UNSTUFF (rule R213). -/
def unstuff (p : Params) (b : Block) : Result :=
  match b.cws.findIdx? fun c => c == 0 || c == 2 ^ b.cwWidth - 1 with
  | some i => .raise .feStuff i
  | none =>
    let out := unstuffBits b.cwWidth b.cws
    if b.bitlen + out.length > p.bitCap then .raise .boBit b.bitlen
    else .done (b.pushBits out) 0

/-- UNSTUFF (rule R213). -/
def execUnstuff (s : State) : Answer := command s (unstuff s.params)

end Sys2Proof.Machine
end

