-- ==== Sys2Proof/Machine/System.lean ====
section
/-! DEFINITION. The system commands NOP, LDI, LDIH, GETR, CSRR, CSRW, CLRERR, SRST (40_system.md). -/

namespace Sys2Proof.Machine

/-- NOP (rule R120). -/
def execNop (s : State) : Answer := command s fun b => .done b 0

/-- LDI rd, imm16 (rule R121): zero-extended. -/
def execLdi (rd : Reg) (imm16 : BitVec 16) (s : State) : Answer :=
  command s fun b => .done (b.setReg rd (imm16.setWidth 32)) 0

/-- LDIH rd, imm16 (rule R122): the upper half replaced, the lower half kept. -/
def execLdih (rd : Reg) (imm16 : BitVec 16) (s : State) : Answer :=
  command s fun b => .done (b.setReg rd (imm16 ++ (b.reg rd).setWidth 16)) 0

/-- GETR rs (rule R123): responds r[rs], in either state of STATUS.FAULT. -/
def execGetr (rs : Reg) (s : State) : Answer := commandAnytime s fun b => .done b (b.reg rs)

/-- CSRR rd, csr (rule R124), in either state of STATUS.FAULT. -/
def execCsrr (rd : Reg) (csr : Csr) (s : State) : Answer :=
  commandAnytime s fun b => .done (b.setReg rd (csrRead b csr)) 0

/-- A write of a CSR, checked whole and all or nothing (rule R125; 10_state.md rule R24). -/
def csrWrite (csr : Csr) (v : Word) (b : Block) : Result :=
  match csr with
  | .rscfg =>
    if rscfgLegal v = false then .raise .ceCsr v.toNat
    else if b.cwbuf.length ≠ 0 then .raise .ceFsel b.cwbuf.length
    else .done { b with fsel := v.setWidth 2 } 0
  | .bincfg =>
    if bincfgLegal v = false then .raise .ceCsr v.toNat else .done { b with bincfg := v } 0
  | .txcfg =>
    if txcfgLegal v = false then .raise .ceCsr v.toNat else .done { b with txcfg := v } 0
  -- read-only: IC_FIELD (30_encoding.md rule R98); the decoder refuses these words already
  | .id | .status | .errcode | .errcmd | .errinfo | .bitlen | .rdpos | .cwlen | .mrows | .mcols
  | .pathlen | .chlen | .modew _ => .raise .icField 0

/-- CSRW rs, csr (rule R125). -/
def execCsrw (rs : Reg) (csr : Csr) (s : State) : Answer :=
  command s fun b => csrWrite csr (b.reg rs) b

/-- CLRERR (rule R126), in either state of STATUS.FAULT. -/
def execClrerr (s : State) : Answer := commandAnytime s fun b => .done b.clearFault 0

/-- SRST (rule R127; 70_reset_and_hazards.md rule R331), in either state of STATUS.FAULT: the reset
state of the block. The host's own words and response are not the block's state (log 1). -/
def execSrst (s : State) : Answer := commandAnytime s fun _ => .done Block.reset 0

end Sys2Proof.Machine
end

