-- ==== Sys2Proof/Machine/Dispatch.lean ====
section
/-! DEFINITION. `exec`: one arm per command, each one call of its meaning. -/

namespace Sys2Proof.Machine

/-- What the block does with a command (60_exceptions.md rule R295 from step 3 on, and the fault stop of
step 0). -/
def exec (i : Instr) (s : State) : Host.Outcome State Fault Refusal :=
  match i with
  | .nop => Sys2Proof.Machine.execNop s
  | .ldi rd imm16 => Sys2Proof.Machine.execLdi rd imm16 s
  | .ldih rd imm16 => Sys2Proof.Machine.execLdih rd imm16 s
  | .getr rs => Sys2Proof.Machine.execGetr rs s
  | .csrr rd csr => Sys2Proof.Machine.execCsrr rd csr s
  | .csrw rs csr => Sys2Proof.Machine.execCsrw rs csr s
  | .clrerr => Sys2Proof.Machine.execClrerr s
  | .srst => Sys2Proof.Machine.execSrst s
  | .bclr => Sys2Proof.Machine.execBclr s
  | .brwd => Sys2Proof.Machine.execBrwd s
  | .rdbits rd n => Sys2Proof.Machine.execRdbits rd n s
  | .apbits rs n => Sys2Proof.Machine.execApbits rs n s
  | .avail rd => Sys2Proof.Machine.execAvail rd s
  | .bitoff rd => Sys2Proof.Machine.execBitoff rd s
  | .rsenc re => Sys2Proof.Machine.execRsenc re s
  | .rsdec rd re => Sys2Proof.Machine.execRsdec rd re s
  | .cwclr => Sys2Proof.Machine.execCwclr s
  | .cwap rs => Sys2Proof.Machine.execCwap rs s
  | .cwrd rd ri => Sys2Proof.Machine.execCwrd rd ri s
  | .cwwr ri rs => Sys2Proof.Machine.execCwwr ri rs s
  | .cwtrunc rn => Sys2Proof.Machine.execCwtrunc rn s
  | .matdim ry rx => Sys2Proof.Machine.execMatdim ry rx s
  | .matwr ry rx rv => Sys2Proof.Machine.execMatwr ry rx rv s
  | .matrd rd ry rx => Sys2Proof.Machine.execMatrd rd ry rx s
  | .pathclr => Sys2Proof.Machine.execPathclr s
  | .pathap ry rx => Sys2Proof.Machine.execPathap ry rx s
  | .maprd => Sys2Proof.Machine.execMaprd s
  | .mapwr => Sys2Proof.Machine.execMapwr s
  | .cwpack rn => Sys2Proof.Machine.execCwpack rn s
  | .cwunpk => Sys2Proof.Machine.execCwunpk s
  | .stuff => Sys2Proof.Machine.execStuff s
  | .unstuff => Sys2Proof.Machine.execUnstuff s
  | .modew mode w => Sys2Proof.Machine.execModew mode w s
  | .tblwr ri re => Sys2Proof.Machine.execTblwr ri re s
  | .tblrd rd ri => Sys2Proof.Machine.execTblrd rd ri s
  | .chclr => Sys2Proof.Machine.execChclr s
  | .chap rs => Sys2Proof.Machine.execChap rs s
  | .chrd rd ri => Sys2Proof.Machine.execChrd rd ri s
  | .txdec => Sys2Proof.Machine.execTxdec s
  | .txenc => Sys2Proof.Machine.execTxenc s

end Sys2Proof.Machine
end

