-- ==== Sys2Proof/Machine/Step.lean ====
section
/-! DEFINITION. One step of the machine: the next command word is taken from the port and executed
completely (30_encoding.md rule R90; 60_exceptions.md rule R295). -/

namespace Sys2Proof.Machine

/-- One step. With no word to present the block waits and no state advances
(70_reset_and_hazards.md rules R338, R339). Otherwise the word on the port is decoded (rule R295 steps
1 and 2) and executed. Step 0, the fault stop, stands in `command` and `illegalWord`. -/
def step (s : State) : Host.Outcome State Fault Refusal :=
  match s.port.pending with
  | [] => .next s
  | w :: rest =>
    match decode w with
    | .ok i => exec i (present w rest s)
    | .error e => illegalWord e (present w rest s)

/-- The host presents the word w of nbits bits next, before the words it had yet to present. A command
is one 32-bit word (30_encoding.md rule R92); bits above nbits are 0 (log 1). -/
def State.withFetchWord (s : State) (nbits w : Nat) : State :=
  { s with port := { s.port with
      pending := BitVec.ofNat 32 (w % 2 ^ nbits) :: s.port.pending } }

end Sys2Proof.Machine
end

