-- ==== Sys2Proof/Safety.lean ====
section
/-! DEFINITION. The terms claims are stated in: the invariant of 10_state.md rule R45, legal parameters,
which commands write a general register (rule R21), which have no checks of their own
(60_exceptions.md rule R303), a command carried out with and without a fault, and the loops of STUFF,
TXDEC and TXENC in the terms of their rules. -/

namespace Sys2Proof

/-- The constraints on the parameters (the table of parameters in 92_eei_decisions.md), less that PRIM_m
is primitive, on which no step depends: where a statement needs it, it says `FieldLegal`. -/
structure Params.Legal (p : Params) : Prop where
  bitCap_range : 32 ≤ p.bitCap ∧ p.bitCap < 2 ^ 32
  cwCap_lt : p.cwCap < 2 ^ 32
  matMax_range : 1 ≤ p.matMax ∧ p.matMax < 2 ^ 32
  pathCap_pos : 1 ≤ p.pathCap
  chCap_pos : 1 ≤ p.chCap
  degree : ∀ f : BitVec 2, Machine.DegreeLegal (p.field f)

namespace Machine

/-- The invariant of 10_state.md rule R45, for the parameters p. Item 7 (no result depends on an element that is not valid)
has no clause of its own: a list holds valid elements only, and `mat_valid` and `tbl_valid` say the
same of the two sparse buffers. Of item 6, "kind 0 to 6 and an argument legal for its kind" holds by
the type `Entry`. -/
structure Block.Inv (p : Params) (b : Block) : Prop where
  /-- Item 1. -/
  rdpos_le : b.rdpos ≤ b.bitlen
  bitlen_le : b.bitlen ≤ p.bitCap
  /-- Item 2. -/
  cwlen_le : b.cwbuf.length ≤ p.cwCap
  /-- Item 3. -/
  cw_lt : ∀ c ∈ b.cwbuf, c.toNat < 2 ^ b.cwWidth
  /-- Item 4. -/
  dims : b.mrows = 0 ∧ b.mcols = 0 ∨
    (1 ≤ b.mrows ∧ b.mrows ≤ p.matMax) ∧ 1 ≤ b.mcols ∧ b.mcols ≤ p.matMax
  /-- Item 5. -/
  pathlen_le : b.path.length ≤ p.pathCap
  chlen_le : b.chbuf.length ≤ p.chCap
  path_lt : ∀ c ∈ b.path, c.y < p.matMax ∧ c.x < p.matMax
  /-- Item 6. -/
  width_le : ∀ k, b.width k ≤ 8
  /-- Item 8. -/
  record_clear : b.fault = false → b.errcode = 0 ∧ b.errcmd = 0 ∧ b.errinfo = 0
  record_set : b.fault = true → b.errcode ≠ 0
  /-- Item 9. -/
  bincfg_legal : bincfgLegal b.bincfg = true
  txcfg_legal : txcfgLegal b.txcfg = true
  /-- MAT and TBL in canonical form (log 5). -/
  memory_wf : Memory.wf b = true
  /-- Every listed module lies inside the matrix. -/
  mat_valid : ∀ kv ∈ b.mat, ∃ y x, y < b.mrows ∧ x < b.mcols ∧ kv.1 = matKey b.mcols y x
  /-- Every listed entry is that of a code of a defined mode. -/
  tbl_valid : ∀ kv ∈ b.tbl, ∃ k code, b.width k ≠ 0 ∧ code < 2 ^ b.width k ∧ kv.1 = tblKey k code

/-- The invariant of the machine: legal parameters, and the block's invariant for them. -/
def State.Inv (s : State) : Prop := s.params.Legal ∧ s.block.Inv s.params

/-- The general register a command writes when it executes, if any; SRST writes them all
(10_state.md rule R21). -/
def destination : Instr → Option Reg
  | .ldi rd _ | .ldih rd _ | .csrr rd _ | .rdbits rd _ | .avail rd | .bitoff rd | .cwrd rd _
  | .rsdec rd _ | .matrd rd _ _ | .tblrd rd _ | .chrd rd _ => some rd
  | .nop | .getr _ | .csrw _ _ | .clrerr | .srst | .bclr | .brwd | .apbits _ _ | .rsenc _ | .cwclr
  | .cwap _ | .cwwr _ _ | .cwtrunc _ | .matdim _ _ | .matwr _ _ _ | .pathclr | .pathap _ _ | .maprd
  | .mapwr | .cwpack _ | .cwunpk | .stuff | .unstuff | .modew _ _ | .tblwr _ _ | .chclr | .chap _
  | .txdec | .txenc => none

/-- The commands that have no checks of their own (60_exceptions.md rule R303). -/
def withoutChecks : Instr → Bool
  | .nop | .ldi _ _ | .ldih _ _ | .getr _ | .csrr _ _ | .clrerr | .srst | .bclr | .brwd | .avail _
  | .bitoff _ | .cwclr | .pathclr | .chclr | .modew _ _ => true
  | .csrw _ _ | .rdbits _ _ | .apbits _ _ | .rsenc _ | .rsdec _ _ | .cwap _ | .cwrd _ _ | .cwwr _ _
  | .cwtrunc _ | .matdim _ _ | .matwr _ _ _ | .matrd _ _ _ | .pathap _ _ | .maprd | .mapwr | .cwpack _
  | .cwunpk | .stuff | .unstuff | .tblwr _ _ | .tblrd _ _ | .chap _ | .chrd _ _ | .txdec
  | .txenc => false

/-- The commands that can raise a fault of classes 0x1, 0x2, 0x3 (60_exceptions.md rule R303). -/
def canFailOnData : Instr → Bool
  | .rdbits _ _ | .cwpack _ | .mapwr | .unstuff | .rsdec _ _ | .txdec | .txenc => true
  | .nop | .ldi _ _ | .ldih _ _ | .getr _ | .csrr _ _ | .csrw _ _ | .clrerr | .srst | .bclr | .brwd
  | .apbits _ _ | .avail _ | .bitoff _ | .rsenc _ | .cwclr | .cwap _ | .cwrd _ _ | .cwwr _ _
  | .cwtrunc _ | .matdim _ _ | .matwr _ _ _ | .matrd _ _ _ | .pathclr | .pathap _ _ | .maprd | .cwunpk
  | .stuff | .modew _ _ | .tblwr _ _ | .tblrd _ _ | .chclr | .chap _ | .chrd _ _ => false

/-- The command i, executed in s, answers (OK, 0) and leaves the block b; the port's words and
the parameters stay. -/
def ExecutesTo (i : Instr) (s : State) (b : Block) : Prop :=
  exec i s = .next { s with block := b, port := { s.port with resp := some ⟨0x00, 0⟩ } }

/-- The command i, executed in s, faults with the code c and the info v: the fault record is written,
the response is (code, 0), and nothing else changes (60_exceptions.md rules R296, R297). -/
def FaultsWith (i : Instr) (s : State) (c : FaultCode) (v : Nat) : Prop :=
  exec i s = .next
    { s with
      block := { s.block with
        fault := true, errcode := c.code, errcmd := s.port.cmd, errinfo := BitVec.ofNat 32 v }
      port := { s.port with resp := some ⟨c.code, 0⟩ } }

/-- The reserved-zero mask of the command an opcode selects: the bits that are neither op nor a field of
its format (30_encoding.md rules R94 and R96); none for an unassigned opcode (rule R97). -/
def reservedZero (op : Nat) : Option Nat :=
  if op ∈ [0x00, 0x06, 0x07, 0x10, 0x11, 0x28, 0x33, 0x35, 0x36, 0x38, 0x39, 0x3A, 0x43, 0x46, 0x47] then
    some 0x00FFFFFF
  else if op ∈ [0x03, 0x14, 0x15, 0x20, 0x29, 0x2C, 0x37, 0x44] then some 0x001FFFFF
  else if op ∈ [0x21, 0x2A, 0x2B, 0x30, 0x34, 0x41, 0x42, 0x45] then some 0x0003FFFF
  else if op ∈ [0x31, 0x32] then some 0x00007FFF
  else if op ∈ [0x01, 0x02] then some 0x001F0000
  else if op ∈ [0x12, 0x13] then some 0x001FFFC0
  else if op ∈ [0x04, 0x05] then some 0x001FFF00
  else if op ∈ [0x40] then some 0x001FFFF0
  else none

/-- The operand values that rule R98 reserves: n6 = 0 or above 32, w4 = 0 or above 8, an unassigned csr,
a csr that CSRW may not write. -/
def reservedOperand (w : Word) : Prop :=
  (opcodeOf w = 0x12 ∨ opcodeOf w = 0x13) ∧ (bits w 5 0 = 0 ∨ 32 < bits w 5 0) ∨
  opcodeOf w = 0x40 ∧ (bits w 3 0 = 0 ∨ 8 < bits w 3 0) ∨
  (opcodeOf w = 0x04 ∨ opcodeOf w = 0x05) ∧ (∀ c : Csr, c.number ≠ bits w 7 0) ∨
  opcodeOf w = 0x05 ∧ bits w 7 0 ≠ 0x08 ∧ bits w 7 0 ≠ 0x09 ∧ bits w 7 0 ≠ 0x0A

/-- Commands executed one after the other, each on the state the one before left. -/
def runCommands : List Instr → State → Answer
  | [], s => .next s
  | i :: is, s =>
    match exec i s with
    | .next t => runCommands is t
    | .fault r => .fault r
    | .refused r => .refused r

/-- The table entries TBLWR stores (44_text.md rule R247 checks 3 to 5). -/
def entryLegal (e : Word) : Prop :=
  bits e 31 12 = 0 ∧
    (bits e 11 8 = 1 ∨ (bits e 11 8 = 2 ∨ bits e 11 8 = 3) ∧ bits e 7 0 ≤ 7 ∨
      (bits e 11 8 = 0 ∨ bits e 11 8 = 4 ∨ bits e 11 8 = 5 ∨ bits e 11 8 = 6) ∧ bits e 7 0 = 0)

/-- The first m − 1 bits STUFF looks at, ones past the end of the unread bits (43_mapper.md
rule R212). -/
def stuffHead (m : Nat) (l : List Bool) : List Bool := (l ++ List.replicate m true).take (m - 1)

/-- What STUFF makes of unread bits (43_mapper.md rule R212), with no bound on its passes. -/
inductive Stuffs (m : Nat) : List Bool → List Nat → Prop where
  | nil : Stuffs m [] []
  | ones {l K} (h : l ≠ []) (hd : stuffHead m l = List.replicate (m - 1) true)
      (rest : Stuffs m (l.drop (m - 1)) K) : Stuffs m l ((2 ^ m - 2) :: K)
  | zeros {l K} (h : l ≠ []) (hd : stuffHead m l = List.replicate (m - 1) false)
      (rest : Stuffs m (l.drop (m - 1)) K) : Stuffs m l (1 :: K)
  | plain {l K} (h : l ≠ []) (h1 : stuffHead m l ≠ List.replicate (m - 1) true)
      (h0 : stuffHead m l ≠ List.replicate (m - 1) false)
      (rest : Stuffs m (l.drop m) K) :
      Stuffs m l (bitsVal ((l ++ List.replicate m true).take m) :: K)

/-- The bits a data codeword stands for (43_mapper.md rule R213). -/
def unstuffed (m c : Nat) : List Bool :=
  if c = 1 then List.replicate (m - 1) false
  else if c = 2 ^ m - 2 then List.replicate (m - 1) true
  else natBits c m

/-- The loop of TXDEC (44_text.md rule R252) run to its end, with no bound on its passes. -/
inductive Decodes (b : Block) : Session → TxEnd → Prop where
  | stop {ss e} (h : txPass b ss = .inl e) : Decodes b ss e
  | more {ss ss' e} (h : txPass b ss = .inr ss') (rest : Decodes b ss' e) : Decodes b ss e

/-! ### The encoder in the terms of 44_text.md rules R256 to R260 -/

/-- A defined mode a has a code that holds e: find(a, e) != none (rule R256). -/
def Holds (b : Block) (a : Mode) (e : Entry) : Prop :=
  b.width a ≠ 0 ∧ ∃ v, v < 2 ^ b.width a ∧ b.tblGet a v = e

/-- Mode s gives c for one shift out of mode a (rule R257). -/
def ShiftGives (b : Block) (a : Mode) (c : Byte) (s : Mode) : Prop :=
  Holds b a (.shift s) ∧ Holds b s (.char c)

/-- edge(x, y) (rule R258): both defined, and x has a latch code to y. -/
def LatchEdge (b : Block) (x y : Mode) : Prop := Holds b x (.latch y) ∧ b.width y ≠ 0

/-- The numbers of the classes (rule R257). -/
def clsNumber : Cls → Nat
  | .direct => 0
  | .shifted => 1
  | .bin => 2

/-- One odd character (rule R258): mode cur gives c for a shift, and the byte after it, if any,
directly. -/
def OddCharacter (b : Block) (cur : Mode) (c : Byte) (nx : Option Byte) : Prop :=
  b.loc cur c = some .shifted ∧ ∀ c', nx = some c' → b.loc cur c' = some .direct

/-- A candidate (k, d, a) of choose(cur, c, _) (rule R258). -/
def IsCandidate (b : Block) (cur : Mode) (c : Byte) (k : Cls) (d : Nat) (a : Mode) : Prop :=
  b.width a ≠ 0 ∧ b.latchDist cur a = some d ∧ b.loc a c = some k

/-- The least candidate, "comparing k first, then d, then a" (rule R258). -/
def LeastCandidate (b : Block) (cur : Mode) (c : Byte) (k : Cls) (d : Nat) (a : Mode) : Prop :=
  IsCandidate b cur c k d a ∧ ∀ k' d' a', IsCandidate b cur c k' d' a' →
    clsNumber k < clsNumber k' ∨ clsNumber k = clsNumber k' ∧
      (d < d' ∨ d = d' ∧ a.val ≤ a'.val)

/-- The latch codes from mode a to t (rule R259) and the modes they lead through: at each step the
least-numbered mode one latch away that is one latch nearer to t. -/
inductive LatchCodes (b : Block) (t : Mode) : Mode → List Mode → List Emit → Prop where
  | arrived : LatchCodes b t t [] []
  | latch {a y l es d v} (far : b.latchDist a t = some (d + 1)) (edge : LatchEdge b a y)
      (nearer : b.latchDist y t = some d)
      (least : ∀ z : Mode, z < y → LatchEdge b a z → b.latchDist z t ≠ some d)
      (code : b.findCode a (.latch y) = some v) (rest : LatchCodes b t y l es) :
      LatchCodes b t a (y :: l) (⟨v, b.width a⟩ :: es)

/-- maxrun (rule R260), from BINCFG as rule R31 lays it out. -/
def runLimit (b : Block) : Nat :=
  if bits b.bincfg 12 8 ≠ 0 then 2 ^ bits b.bincfg 12 8 - 1 + bits b.bincfg 31 16
  else 2 ^ bits b.bincfg 4 0 - 1

/-- The length prefix of a binary run of L bytes (rule R260). -/
def runPrefix (b : Block) (L : Nat) : List Emit :=
  if L ≤ 2 ^ bits b.bincfg 4 0 - 1 then [⟨L, bits b.bincfg 4 0⟩]
  else [⟨0, bits b.bincfg 4 0⟩, ⟨L - bits b.bincfg 31 16, bits b.bincfg 12 8⟩]

/-- The bytes `run` that a binary run in mode t takes from a text, and those left (rule R260): as many,
at most maxrun, as choose (t, BIN) one after the other. -/
structure TakesRun (b : Block) (t : Mode) (text run left : List Byte) : Prop where
  split : text = run ++ left
  limit : run.length ≤ runLimit b
  chosen : ∀ j c, run[j]? = some c → b.choose t c text[j + 1]? = some (t, .bin)
  longest : run.length < runLimit b → ∀ c rest, left = c :: rest →
    b.choose t c rest.head? ≠ some (t, .bin)

/-- The loop of TXENC (44_text.md rule R260) over the text from index i on in latched mode cur, run to
its end, with no bound on its passes. -/
inductive Encodes (b : Block) : Nat → Mode → List Byte → Except Nat (List Emit) → Prop where
  | done {i cur} : Encodes b i cur [] (.ok [])
  | stuck {i cur c rest} (h : b.choose cur c rest.head? = none) :
      Encodes b i cur (c :: rest) (.error i)
  | direct {i cur c rest t v r} (h : b.choose cur c rest.head? = some (t, .direct))
      (code : b.findCode t (.char c) = some v) (more : Encodes b (i + 1) t rest r) :
      Encodes b i cur (c :: rest)
        (r.map fun es => b.latchPath 8 cur t ++ [⟨v, b.width t⟩] ++ es)
  | shifted {i cur c rest t k u v r} (h : b.choose cur c rest.head? = some (t, .shifted))
      (gives : ShiftGives b t c k) (least : ∀ z : Mode, z < k → ¬ShiftGives b t c z)
      (shift : b.findCode t (.shift k) = some u) (code : b.findCode k (.char c) = some v)
      (more : Encodes b (i + 1) t rest r) :
      Encodes b i cur (c :: rest)
        (r.map fun es => b.latchPath 8 cur t ++ [⟨u, b.width t⟩, ⟨v, b.width k⟩] ++ es)
  | run {i cur c rest t v run left r} (h : b.choose cur c rest.head? = some (t, .bin))
      (takes : TakesRun b t (c :: rest) run left) (pos : run ≠ [])
      (code : b.findCode t .binary = some v) (more : Encodes b (i + run.length) t left r) :
      Encodes b i cur (c :: rest)
        (r.map fun es => b.latchPath 8 cur t ++
          (⟨v, b.width t⟩ :: (runPrefix b run.length ++ run.map fun x => ⟨x.toNat, 8⟩)) ++ es)

end Machine

end Sys2Proof
end

