-- ==== Sys2Proof/Certificates/Slice0/Obligations.lean ====
section
/-! DEFINITION. The statements for the provers, in the order of spec/: encoding, steps and faults, the
invariant, then every command, family by family. Each completion statement gives the whole next
state, so that it is the command's frame too. -/

open Sys2Proof Sys2Proof.Machine

/-! ### Encoding (30_encoding.md) -/

/-- Decoding the encoded word of a well-formed command gives the command back, every operand at every
value (rules R92 to R96). -/
def Obligations.DecodeOfEncodeIsTheCommand : Prop :=
  ∀ i : Instr, i.wf = true → decode (encode i) = .ok i

/-- A word that decodes is the encoded word of its command, which is well formed: a word has no second
reading and the decoder drops no bit (rules R92 to R98). -/
def Obligations.EncodeOfDecodeIsTheWord : Prop :=
  ∀ (w : Word) (i : Instr), decode w = .ok i → encode i = w ∧ i.wf = true

/-- Rule R103: the worked encodings decode to their commands and are their encodings; the illegal words
are refused by the names given there. -/
def Obligations.WorkedEncodings : Prop :=
  (let worked : List (Word × Instr) :=
    [(0x00000000, .nop), (0x012002B5, .ldi 1 0x2B5), (0x0240FFFF, .ldih 2 0xFFFF),
      (0x03600000, .getr 3), (0x04600012, .csrr 3 .cwlen), (0x05400009, .csrw 2 .bincfg),
      (0x06000000, .clrerr), (0x1320000A, .apbits 1 10), (0x12A00007, .rdbits 5 7),
      (0x20400000, .rsenc 2), (0x21C80000, .rsdec 6 2), (0x2B940000, .cwwr 4 5),
      (0x30280000, .matdim 1 2), (0x32810000, .matrd 4 0 2), (0x32848000, .matrd 4 1 1),
      (0x40200002, .modew 1 2), (0x41280000, .tblwr 1 2), (0x46000000, .txdec)]
   worked.map (fun p => decode p.1) = worked.map (fun p => .ok p.2) ∧
     worked.map (fun p => encode p.2) = worked.map fun p => p.1) ∧
  decode 0x08000000 = .error .opcode ∧
  [0x00000001, 0x12200000, 0x12200021, 0x40000009, 0x04000005, 0x05000010, 0x03610000].map decode =
    List.replicate 7 (.error .field)

/-- Rule R97: a word whose op is none of the assigned values raises IC_OPCODE with info 0, whatever its
other bits, when no fault is recorded. -/
def Obligations.UnassignedOpcodeRaisesIcOpcode : Prop :=
  ∀ (s : State) (w : Word) (rest : List Word), s.port.pending = w :: rest →
    s.block.fault = false →
    (let op := opcodeOf w
     0x08 ≤ op ∧ op ≤ 0x0F ∨ 0x16 ≤ op ∧ op ≤ 0x1F ∨ 0x22 ≤ op ∧ op ≤ 0x27 ∨
       0x2D ≤ op ∧ op ≤ 0x2F ∨ 0x3B ≤ op ∧ op ≤ 0x3F ∨ 0x48 ≤ op) →
    step s = .next
      { s with
        block := { s.block with fault := true, errcode := 0x70, errcmd := w, errinfo := 0 }
        port := ⟨w, rest, some ⟨0x70, 0⟩⟩ }

/-- Rule R98: a word with an assigned op whose reserved bits are not all 0, or with a reserved operand
value, raises IC_FIELD with info 0, decided from the word alone once STATUS.FAULT is 0; and no other
word with an assigned op is refused by the decoder. -/
def Obligations.ReservedBitsRaiseIcField : Prop :=
  ∀ (w : Word) (mask : Nat), reservedZero (opcodeOf w) = some mask →
    (w.toNat &&& mask ≠ 0 ∨ reservedOperand w →
      ∀ (s : State) (rest : List Word), s.port.pending = w :: rest → s.block.fault = false →
        step s = .next
          { s with
            block := { s.block with fault := true, errcode := 0x71, errcmd := w, errinfo := 0 }
            port := ⟨w, rest, some ⟨0x71, 0⟩⟩ }) ∧
    (¬(w.toNat &&& mask ≠ 0 ∨ reservedOperand w) → ∃ i, decode w = .ok i)

/-- Rule R102: LI rd, imm32 is one or two commands that leave imm32 in r[rd] and change nothing else of
the block; the second is there exactly when imm32[31:16] is not 0. -/
def Obligations.LiLoadsTheConstant : Prop :=
  ∀ (rd : Reg) (imm : Word) (s : State), s.block.fault = false →
    (∃ t, runCommands (expandLi rd imm) s = .next t ∧ t.block = s.block.setReg rd imm) ∧
    expandLi rd imm =
      if bits imm 31 16 ≠ 0 then
        [.ldi rd (BitVec.ofNat 16 (bits imm 15 0)), .ldih rd (BitVec.ofNat 16 (bits imm 31 16))]
      else [.ldi rd (BitVec.ofNat 16 (bits imm 15 0))]

/-! ### Steps, responses, faults (30_encoding.md R90, R91; 60_exceptions.md) -/

/-- A step with a word that decodes to i is `exec i`, once the word stands on the port (`cmd`) and is
taken off the words to come. -/
def Obligations.StepExecutesTheDecodedCommand : Prop :=
  ∀ (s : State) (w : Word) (rest : List Word) (i : Instr), s.port.pending = w :: rest →
    decode w = .ok i →
    step s = exec i { s with port := { s.port with cmd := w, pending := rest } }

/-- With no word to present a step leaves the state as it is (rule R339: no state advances between
commands). That the stream of words may end is the model's own choice (log 1). -/
def Obligations.StepWithoutACommandWaits : Prop :=
  ∀ s : State, s.port.pending = [] → step s = .next s

/-- Rule R298: while STATUS.FAULT = 1 only GETR, CSRR, CLRERR and SRST execute; every other word,
assigned or not, well formed or not (an ill-formed GETR or CSRR too), is answered (REFUSED, 0) and
changes nothing of the block. -/
def Obligations.FaultStopRefusesEveryOtherWord : Prop :=
  ∀ (s : State) (w : Word) (rest : List Word), s.port.pending = w :: rest →
    s.block.fault = true →
    (∀ i, decode w = .ok i →
      ((∃ r, i = .getr r) ∨ (∃ r c, i = .csrr r c) ∨ i = .clrerr ∨ i = .srst) →
      ∃ b d, step s = .next { s with block := b, port := ⟨w, rest, some ⟨0x00, d⟩⟩ }) ∧
    ((∀ i, decode w = .ok i →
        ¬((∃ r, i = .getr r) ∨ (∃ r c, i = .csrr r c) ∨ i = .clrerr ∨ i = .srst)) →
      step s = .next { s with port := ⟨w, rest, some ⟨0xFF, 0⟩⟩ })

/-- Rules R296 and R297: a command executed with no fault recorded either completes with status OK or
writes the fault record (FAULT, the code, the command word, info mod 2^32), answers (code, 0) and
keeps every other piece of state. -/
def Obligations.FaultsAreAllOrNothing : Prop :=
  ∀ (i : Instr) (s : State), s.block.fault = false →
    (∃ b d, exec i s = .next { s with block := b, port := { s.port with resp := some ⟨0x00, d⟩ } }) ∨
    ∃ c v, FaultsWith i s c v

/-- Rule R91: the response to every presented word. OK carries r[rs] for GETR and 0 for every other
command; a fault's status is the value ERRCODE then holds, with data 0; REFUSED, with data 0, answers
a word presented while STATUS.FAULT = 1 and not executed. No other status occurs. -/
def Obligations.ResponsesAreOkFaultOrRefused : Prop :=
  ∀ (s : State) (w : Word) (rest : List Word), s.port.pending = w :: rest →
    ∃ t r, step s = .next t ∧ t.port.resp = some r ∧
      (r.status = 0x00 ∧ (∃ i, decode w = .ok i ∧
          ((∃ rs, i = .getr rs ∧ r.data = s.block.reg rs) ∨ (∀ rs, i ≠ .getr rs) ∧ r.data = 0)) ∨
        (∃ c : FaultCode, r.status = c.code) ∧ r.data = 0 ∧ s.block.fault = false ∧
          t.block.fault = true ∧ t.block.errcode = r.status ∧ t.block.errcmd = w ∨
        r.status = 0xFF ∧ r.data = 0 ∧ s.block.fault = true ∧ t.block = s.block)

/-- Rule R23: STATUS.FAULT is set by a step only when its command faults, and cleared only by CLRERR or
SRST. -/
def Obligations.FaultFlagChangesOnlyByFaultClrerrSrst : Prop :=
  ∀ s t : State, step s = .next t →
    (s.block.fault = false → t.block.fault = true →
      ∃ c : FaultCode, t.port.resp = some ⟨c.code, 0⟩ ∧ t.block.errcode = c.code) ∧
    (s.block.fault = true → t.block.fault = false →
      ∃ w rest, s.port.pending = w :: rest ∧ (decode w = .ok .clrerr ∨ decode w = .ok .srst))

/-- Rule R21: a general register changes only as the destination of one of the eleven commands that
write one, or by SRST. -/
def Obligations.RegistersChangeOnlyAsDestinations : Prop :=
  ∀ (i : Instr) (s t : State) (r : Reg), exec i s = .next t → destination i ≠ some r → i ≠ .srst →
    t.block.reg r = s.block.reg r

/-- Rule R303: the commands without checks of their own always succeed when no fault is recorded (MODEW
with its width in range), and a fault of a source-taxonomy class (0x1, 0x2, 0x3) comes from RDBITS,
CWPACK, MAPWR, UNSTUFF, RSDEC, TXDEC and TXENC only. -/
def Obligations.CommandsWithoutChecksSucceed : Prop :=
  ∀ (i : Instr) (s : State), i.wf = true → s.block.fault = false →
    (withoutChecks i = true →
      ∃ b d, exec i s = .next { s with block := b, port := { s.port with resp := some ⟨0x00, d⟩ } }) ∧
    (∀ c v, FaultsWith i s c v → c.cls.nibble ≤ 3 → canFailOnData i = true)

/-- Rules R290 and R292: the class and the value of each of the 27 fault codes. The high nibble of a
value is its class, and no two codes share a value. -/
def Obligations.FaultCodesHaveTheirValuesAndClasses : Prop :=
  (∀ c : FaultCode, (c.code, c.cls) =
    match c with
    | .idRdbits => (0x10, .insufficientData)
    | .idCwpack => (0x11, .insufficientData)
    | .idMapwr => (0x12, .insufficientData)
    | .feStuff => (0x20, .formatException)
    | .feTxundef => (0x21, .formatException)
    | .feTxmode => (0x22, .formatException)
    | .feRslen => (0x23, .formatException)
    | .feUnenc => (0x24, .formatException)
    | .ueRs => (0x30, .uncorrectableError)
    | .ceCwwidth => (0x40, .configError)
    | .ceFsel => (0x41, .configError)
    | .ceRslen => (0x42, .configError)
    | .ceDim => (0x43, .configError)
    | .ceTbl => (0x44, .configError)
    | .ceCsr => (0x45, .configError)
    | .ceInitmode => (0x46, .configError)
    | .aeCw => (0x50, .addressError)
    | .aeMat => (0x51, .addressError)
    | .aePath => (0x52, .addressError)
    | .aeCh => (0x53, .addressError)
    | .aeTbl => (0x54, .addressError)
    | .boBit => (0x60, .bufferOverflow)
    | .boCw => (0x61, .bufferOverflow)
    | .boPath => (0x62, .bufferOverflow)
    | .boCh => (0x63, .bufferOverflow)
    | .icOpcode => (0x70, .illegalCommand)
    | .icField => (0x71, .illegalCommand)) ∧
  [FaultClass.insufficientData, .formatException, .uncorrectableError, .configError, .addressError,
    .bufferOverflow, .illegalCommand].map FaultClass.nibble = [1, 2, 3, 4, 5, 6, 7] ∧
  (∀ c : FaultCode, c.code.toNat / 16 = c.cls.nibble) ∧
  ∀ c d : FaultCode, c.code = d.code → c = d

/-! ### Reset and the invariant (10_state.md) -/

/-- Rules R48 and R330: after reset every general register is 0, every CSR reads its reset value, and
every mode is undefined, whatever the parameters. -/
def Obligations.ResetValues : Prop :=
  ∀ p : Params,
    (∀ r, (State.resetWith p).block.reg r = 0) ∧
    ∀ c : Csr, csrRead (State.resetWith p).block c =
      match c with
      | .id => 0x41525A01
      | .bincfg => 0x001F0B05
      | .txcfg => 0x00000100
      | _ => 0

/-- The state after reset meets the invariant of rule R45, for every legal choice of the parameters,
and those of `State.reset` are a legal choice. -/
def Obligations.ResetMeetsTheInvariant : Prop :=
  (∀ p : Params, p.Legal → (State.resetWith p).Inv) ∧ State.reset.Inv

/-- Every step keeps the invariant of rule R45, whatever word it executes, faulting or not, and changes
no parameter (rule R47). -/
def Obligations.EveryStepKeepsTheInvariant : Prop :=
  ∀ s t : State, s.Inv → step s = .next t → t.Inv ∧ t.params = s.params

/-! ### System commands (40_system.md) -/

/-- Rules R120, R121 and R122: NOP changes nothing, LDI zero-extends its constant, LDIH replaces the
upper half and keeps the lower. -/
def Obligations.NopLdiAndLdih : Prop :=
  encode .nop = 0x00000000 ∧
  (∀ s : State, s.block.fault = false → ExecutesTo .nop s s.block) ∧
  ∀ (rd : Reg) (imm : BitVec 16) (s : State), s.block.fault = false →
    encode (.ldi rd imm) = BitVec.ofNat 32 (0x01 * 2 ^ 24 + rd.val * 2 ^ 21 + imm.toNat) ∧
    encode (.ldih rd imm) = BitVec.ofNat 32 (0x02 * 2 ^ 24 + rd.val * 2 ^ 21 + imm.toNat) ∧
    (∃ v : Word, v.toNat = imm.toNat ∧ ExecutesTo (.ldi rd imm) s (s.block.setReg rd v)) ∧
    ∃ v : Word, v.toNat = imm.toNat * 2 ^ 16 + (s.block.reg rd).toNat % 2 ^ 16 ∧
      ExecutesTo (.ldih rd imm) s (s.block.setReg rd v)

/-- Rule R123: GETR responds the register, in either state of STATUS.FAULT, and changes no state. -/
def Obligations.GetrRespondsTheRegister : Prop :=
  ∀ (rs : Reg) (s : State),
    encode (.getr rs) = BitVec.ofNat 32 (0x03 * 2 ^ 24 + rs.val * 2 ^ 21) ∧
    exec (.getr rs) s =
      .next { s with port := { s.port with resp := some ⟨0x00, s.block.reg rs⟩ } }

/-- Rule R124: CSRR reads the value of rules R25 to R38 from the CSR that has their number, in either
state of STATUS.FAULT, with no side effect on any CSR; a csr number that is not assigned is refused by
the decoder as IC_FIELD. -/
def Obligations.CsrrReadsEveryCsr : Prop :=
  (∀ c : Csr, c.number =
    match c with
    | .id => 0x00
    | .status => 0x01
    | .errcode => 0x02
    | .errcmd => 0x03
    | .errinfo => 0x04
    | .rscfg => 0x08
    | .bincfg => 0x09
    | .txcfg => 0x0A
    | .bitlen => 0x10
    | .rdpos => 0x11
    | .cwlen => 0x12
    | .mrows => 0x13
    | .mcols => 0x14
    | .pathlen => 0x15
    | .chlen => 0x16
    | .modew k => 0x20 + k.val) ∧
  (∀ (rd : Reg) (c : Csr) (s : State),
    encode (.csrr rd c) = BitVec.ofNat 32 (0x04 * 2 ^ 24 + rd.val * 2 ^ 21 + c.number) ∧
    ∃ v : Word, ExecutesTo (.csrr rd c) s (s.block.setReg rd v) ∧
      match c with
      | .id => v = 0x41525A01
      | .status => v = if s.block.fault = true then 1 else 0
      | .errcode => v.toNat = s.block.errcode.toNat
      | .errcmd => v = s.block.errcmd
      | .errinfo => v = s.block.errinfo
      | .rscfg => v.toNat = s.block.fsel.toNat
      | .bincfg => v = s.block.bincfg
      | .txcfg => v = s.block.txcfg
      | .bitlen => v = BitVec.ofNat 32 s.block.bitbuf.length
      | .rdpos => v = BitVec.ofNat 32 s.block.rdpos
      | .cwlen => v = BitVec.ofNat 32 s.block.cwbuf.length
      | .mrows => v = BitVec.ofNat 32 s.block.mrows
      | .mcols => v = BitVec.ofNat 32 s.block.mcols
      | .pathlen => v = BitVec.ofNat 32 s.block.path.length
      | .chlen => v = BitVec.ofNat 32 s.block.chbuf.length
      | .modew k => v.toNat = s.block.width k) ∧
  ∀ w : Word, opcodeOf w = 0x04 → (∀ c : Csr, c.number ≠ bits w 7 0) → decode w = .error .field

/-- Rule R125: CSRW writes a legal value whole; it raises CE_CSR with the value for an illegal one, then
CE_FSEL with CWLEN for RSCFG while the codeword buffer is not empty, even if FSEL would not change; a
CSR that is not writable is IC_FIELD. -/
def Obligations.CsrwWritesLegalValuesOnly : Prop :=
  ∀ (rs : Reg) (s : State), s.block.fault = false →
    let v := s.block.reg rs
    (∀ c, encode (.csrw rs c) = BitVec.ofNat 32 (0x05 * 2 ^ 24 + rs.val * 2 ^ 21 + c.number)) ∧
    (if v.toNat / 2 ^ 2 ≠ 0 then FaultsWith (.csrw rs .rscfg) s .ceCsr v.toNat
      else if s.block.cwbuf ≠ [] then FaultsWith (.csrw rs .rscfg) s .ceFsel s.block.cwbuf.length
      else ExecutesTo (.csrw rs .rscfg) s { s.block with fsel := BitVec.ofNat 2 v.toNat }) ∧
    (if bits v 7 5 ≠ 0 ∨ bits v 15 13 ≠ 0 ∨ bits v 4 0 = 0 ∨ 16 < bits v 4 0 ∨ 16 < bits v 12 8 ∨
          2 ^ bits v 4 0 < bits v 31 16 then
        FaultsWith (.csrw rs .bincfg) s .ceCsr v.toNat
      else ExecutesTo (.csrw rs .bincfg) s { s.block with bincfg := v }) ∧
    (if bits v 7 3 ≠ 0 ∨ bits v 31 9 ≠ 0 then FaultsWith (.csrw rs .txcfg) s .ceCsr v.toNat
      else ExecutesTo (.csrw rs .txcfg) s { s.block with txcfg := v }) ∧
    ∀ c : Csr, c ≠ .rscfg → c ≠ .bincfg → c ≠ .txcfg → FaultsWith (.csrw rs c) s .icField 0

/-- Rule R126: CLRERR clears the record in either state of STATUS.FAULT and changes nothing else; with
no fault recorded, in a block that meets rule R45, it changes nothing. -/
def Obligations.ClrerrClearsTheRecord : Prop :=
  encode .clrerr = 0x06000000 ∧
  (∀ s : State, ExecutesTo .clrerr s
    { s.block with fault := false, errcode := 0, errcmd := 0, errinfo := 0 }) ∧
  ∀ s : State, s.Inv → s.block.fault = false → ExecutesTo .clrerr s s.block

/-- Rules R127 and R331: SRST leaves exactly the reset state of the block, from any state. -/
def Obligations.SrstIsReset : Prop :=
  encode .srst = 0x07000000 ∧ ∀ s : State, ExecutesTo .srst s (State.resetWith s.params).block

/-! ### Bit unit (41_bitstream.md) -/

/-- Rules R144 and R145. -/
def Obligations.BclrEmptiesAndBrwdRewinds : Prop :=
  encode .bclr = 0x10000000 ∧ encode .brwd = 0x11000000 ∧
  ∀ s : State, s.block.fault = false →
    ExecutesTo .bclr s { s.block with bitbuf := [], rdpos := 0 } ∧
    ExecutesTo .brwd s { s.block with rdpos := 0 }

/-- Rule R146: RDBITS takes the next n bits, the first most significant, zero-extended; with fewer left
it raises ID_RDBITS with their number; n = 0 and n > 32 are IC_FIELD. -/
def Obligations.RdbitsReadsMsbFirst : Prop :=
  ∀ (rd : Reg) (n : BitVec 6) (s : State), s.block.fault = false →
    encode (.rdbits rd n) = BitVec.ofNat 32 (0x12 * 2 ^ 24 + rd.val * 2 ^ 21 + n.toNat) ∧
    if n.toNat < 1 ∨ 32 < n.toNat then FaultsWith (.rdbits rd n) s .icField 0
    else if s.block.bitbuf.length - s.block.rdpos < n.toNat then
      FaultsWith (.rdbits rd n) s .idRdbits (s.block.bitbuf.length - s.block.rdpos)
    else
      ∃ v : Word,
        ExecutesTo (.rdbits rd n) s { s.block.setReg rd v with rdpos := s.block.rdpos + n.toNat } ∧
        (∀ i, i < n.toNat →
          s.block.bitbuf[s.block.rdpos + i]? = some (v.getLsbD (n.toNat - 1 - i))) ∧
        v.toNat < 2 ^ n.toNat

/-- Rule R147: APBITS appends r[rs][n−1] first and r[rs][0] last and ignores the bits above; past BITCAP
it raises BO_BIT with BITLEN; n = 0 and n > 32 are IC_FIELD. -/
def Obligations.ApbitsAppendsMsbFirst : Prop :=
  ∀ (rs : Reg) (n : BitVec 6) (s : State), s.block.fault = false →
    encode (.apbits rs n) = BitVec.ofNat 32 (0x13 * 2 ^ 24 + rs.val * 2 ^ 21 + n.toNat) ∧
    if n.toNat < 1 ∨ 32 < n.toNat then FaultsWith (.apbits rs n) s .icField 0
    else if s.block.bitbuf.length + n.toNat > s.params.bitCap then
      FaultsWith (.apbits rs n) s .boBit s.block.bitbuf.length
    else
      ∃ l : List Bool, ExecutesTo (.apbits rs n) s { s.block with bitbuf := s.block.bitbuf ++ l } ∧
        l.length = n.toNat ∧
        ∀ i, i < n.toNat → l[i]? = some ((s.block.reg rs).getLsbD (n.toNat - 1 - i))

/-- Rules R148 and R149: AVAIL gives BITLEN − RDPOS and BITOFF gives RDPOS; in a block that meets rule
R45 the two add up to BITLEN (rule R150 item 4). -/
def Obligations.AvailAndBitoffReadTheCursor : Prop :=
  ∀ (rd : Reg) (s : State), s.block.fault = false →
    encode (.avail rd) = BitVec.ofNat 32 (0x14 * 2 ^ 24 + rd.val * 2 ^ 21) ∧
    encode (.bitoff rd) = BitVec.ofNat 32 (0x15 * 2 ^ 24 + rd.val * 2 ^ 21) ∧
    ∃ a o : Word, ExecutesTo (.avail rd) s (s.block.setReg rd a) ∧
      ExecutesTo (.bitoff rd) s (s.block.setReg rd o) ∧
      a = BitVec.ofNat 32 (s.block.bitbuf.length - s.block.rdpos) ∧
      o = BitVec.ofNat 32 s.block.rdpos ∧
      (s.Inv → a.toNat + o.toNat = s.block.bitbuf.length)

/-- Rule R150 item 2 (and, with n2 unread at the end, item 1): two appends, then one read of both, give
the two numbers side by side, when nothing was unread before. -/
def Obligations.AppendsReadBackConcatenated : Prop :=
  ∀ (r1 r2 rd : Reg) (n1 n2 n : BitVec 6) (s : State), s.block.fault = false →
    s.block.rdpos = s.block.bitbuf.length → 1 ≤ n1.toNat → 1 ≤ n2.toNat →
    n.toNat = n1.toNat + n2.toNat → n.toNat ≤ 32 → s.block.bitbuf.length + n.toNat ≤ s.params.bitCap →
    ∃ t, runCommands [.apbits r1 n1, .apbits r2 n2, .rdbits rd n] s = .next t ∧
      (t.block.reg rd).toNat =
        (s.block.reg r1).toNat % 2 ^ n1.toNat * 2 ^ n2.toNat +
          (s.block.reg r2).toNat % 2 ^ n2.toNat ∧
      t.block.rdpos = t.block.bitbuf.length

/-! ### Reed-Solomon unit (42_reed_solomon.md) -/

/-- Rules R30, R160 and R161, for any parameters: FSEL selects the width 6, 8, 10 or 12 with the PRIM_m
of that width; gf_mul multiplies by 2 by a shift and a reduction by PRIM_m, and, for a PRIM_m of degree
m, stays below q, is commutative and associative, distributes over exclusive-or, and has 1 as identity
and 0 as annihilator. -/
def Obligations.FieldMultiplicationLaws : Prop :=
  ∀ p : Params,
    (p.field 0 = ⟨6, p.prim6, p.genBase⟩ ∧ p.field 1 = ⟨8, p.prim8, p.genBase⟩ ∧
      p.field 2 = ⟨10, p.prim10, p.genBase⟩ ∧ p.field 3 = ⟨12, p.prim12, p.genBase⟩ ∧
      ∀ b : Block, b.cwWidth = (p.field b.fsel).m) ∧
    ∀ (f : BitVec 2) (a b c : Nat),
      let F := p.field f
      let q := 2 ^ F.m
      F.q = q ∧
      (a < q → gfMul F a 2 = if a < 2 ^ (F.m - 1) then 2 * a else 2 * a ^^^ F.prim) ∧
      (DegreeLegal F → a < q → b < q → c < q →
        gfMul F a b < q ∧ gfMul F a b = gfMul F b a ∧
        gfMul F (gfMul F a b) c = gfMul F a (gfMul F b c) ∧
        gfMul F a (b ^^^ c) = gfMul F a b ^^^ gfMul F a c ∧
        gfMul F 1 b = b ∧ gfMul F 0 b = 0)

/-- Rules R6, R7, R160 and R162, the parameters of `State.reset`: the capacities of rule R6, and for each
of the four widths the default of rule R7 (marked there as general knowledge, log 2), a polynomial of
degree exactly m for which 2 has order exactly q − 1. -/
def Obligations.DefaultParametersArePrimitive : Prop :=
  State.reset.params = ⟨65536, 4095, 256, 65536, 4096, 0x43, 0x12D, 0x409, 0x1069, 1⟩ ∧
  ∀ f : BitVec 2, FieldLegal (State.reset.params.field f)

/-- Rule R164, for any legal parameters and each of the four fields: gf_inv(a) is the inverse of every
nonzero a, and EXP[(q−1 − LOG[a]) mod (q−1)]. -/
def Obligations.EveryNonzeroElementHasItsInverse : Prop :=
  ∀ (p : Params) (f : BitVec 2) (a : Nat),
    let F := p.field f
    FieldLegal F → 0 < a → a < F.q →
      gfMul F a (gfInv F a) = 1 ∧
      ∃ i, gfLog F a = some i ∧ gfInv F a = alphaPow F ((F.q - 1 - i) % (F.q - 1))

/-- Rules R171 and R172: CWCLR empties the codeword buffer; CWAP appends a value below 2^m, raising
CE_CWWIDTH before BO_CW. -/
def Obligations.CwclrAndCwapBuildTheBuffer : Prop :=
  encode .cwclr = 0x28000000 ∧
  ∀ (rs : Reg) (s : State), s.block.fault = false →
    let v := (s.block.reg rs).toNat
    encode (.cwap rs) = BitVec.ofNat 32 (0x29 * 2 ^ 24 + rs.val * 2 ^ 21) ∧
    ExecutesTo .cwclr s { s.block with cwbuf := [] } ∧
    if v ≥ 2 ^ s.block.cwWidth then FaultsWith (.cwap rs) s .ceCwwidth v
    else if s.block.cwbuf.length ≥ s.params.cwCap then FaultsWith (.cwap rs) s .boCw s.block.cwbuf.length
    else
      ∃ c : BitVec 12, c.toNat = v ∧
        ExecutesTo (.cwap rs) s { s.block with cwbuf := s.block.cwbuf ++ [c] }

/-- Rules R173, R174 and R175: CWRD reads and CWWR overwrites one valid codeword, index before width;
CWTRUNC keeps the first r[rn] codewords. The index is the full register value, never truncated. -/
def Obligations.CodewordReadWriteTruncate : Prop :=
  ∀ (ra rb : Reg) (s : State), s.block.fault = false →
    let n := s.block.cwbuf.length
    let va := (s.block.reg ra).toNat
    let vb := (s.block.reg rb).toNat
    encode (.cwrd ra rb) = BitVec.ofNat 32 (0x2A * 2 ^ 24 + ra.val * 2 ^ 21 + rb.val * 2 ^ 18) ∧
    encode (.cwwr ra rb) = BitVec.ofNat 32 (0x2B * 2 ^ 24 + ra.val * 2 ^ 21 + rb.val * 2 ^ 18) ∧
    encode (.cwtrunc ra) = BitVec.ofNat 32 (0x2C * 2 ^ 24 + ra.val * 2 ^ 21) ∧
    (if vb ≥ n then FaultsWith (.cwrd ra rb) s .aeCw vb
      else
        ∃ v : Word, s.block.cwbuf[vb]? = some (v.setWidth 12) ∧ v.toNat < 2 ^ 12 ∧
          ExecutesTo (.cwrd ra rb) s (s.block.setReg ra v)) ∧
    (if va ≥ n then FaultsWith (.cwwr ra rb) s .aeCw va
      else if vb ≥ 2 ^ s.block.cwWidth then FaultsWith (.cwwr ra rb) s .ceCwwidth vb
      else
        ∃ c : BitVec 12, c.toNat = vb ∧
          ExecutesTo (.cwwr ra rb) s { s.block with cwbuf := s.block.cwbuf.set va c }) ∧
    if va > n then FaultsWith (.cwtrunc ra) s .aeCw va
    else ExecutesTo (.cwtrunc ra) s { s.block with cwbuf := s.block.cwbuf.take va }

/-- Rules R176 and R178 item 1: RSENC appends the E codewords of rule R168's parity after the data,
which it does not change, so that the whole buffer is a word of Code(k + E, E); k + E > q − 1 raises
CE_RSLEN with k + E, and then k + E > CWCAP raises BO_CW with k. Stated for any parameters and for
blocks that meet rule R45. -/
def Obligations.RsencMakesACodeWord : Prop :=
  ∀ (re : Reg) (s : State), s.Inv → s.block.fault = false →
    let E := (s.block.reg re).toNat
    let k := s.block.cwbuf.length
    let F := s.params.field s.block.fsel
    encode (.rsenc re) = BitVec.ofNat 32 (0x20 * 2 ^ 24 + re.val * 2 ^ 21) ∧
    if k + E > 2 ^ s.block.cwWidth - 1 then FaultsWith (.rsenc re) s .ceRslen (k + E)
    else if k + E > s.params.cwCap then FaultsWith (.rsenc re) s .boCw k
    else
      ∃ P : List (BitVec 12), P.length = E ∧
        P.map BitVec.toNat = parity F (s.block.cwbuf.map BitVec.toNat) E ∧
        InCode F (k + E) E ((s.block.cwbuf ++ P).map BitVec.toNat) ∧
        ExecutesTo (.rsenc re) s { s.block with cwbuf := s.block.cwbuf ++ P }

/-- Rule R168, for any legal parameters and each of the four fields: D ++ parity(D, E) is in
Code(k + E, E) and is the only word of it whose first k codewords are D. -/
def Obligations.ParityIsTheOnlySystematicWord : Prop :=
  ∀ (p : Params) (f : BitVec 2) (D C : List Nat) (E : Nat),
    let F := p.field f
    FieldLegal F → (∀ d ∈ D, d < F.q) → D.length + E ≤ F.q - 1 →
      InCode F (D.length + E) E (D ++ parity F D E) ∧
      (InCode F (D.length + E) E C → C.take D.length = D → C = D ++ parity F D E)

/-- Rules R169 and R177: RSDEC leaves the word of the code within floor(E/2) of the buffer and its
distance in r[rd], raises UE_RS where there is none, and raises CE_RSLEN, then FE_RSLEN, for lengths
that do not fit. Stated for any legal parameters and for blocks that meet rule R45. -/
def Obligations.RsdecIsBoundedDistanceDecoding : Prop :=
  ∀ (rd re : Reg) (s : State), s.Inv → FieldLegal (s.params.field s.block.fsel) →
    s.block.fault = false →
    let E := (s.block.reg re).toNat
    let n := s.block.cwbuf.length
    let R := s.block.cwbuf.map BitVec.toNat
    let F := s.params.field s.block.fsel
    encode (.rsdec rd re) = BitVec.ofNat 32 (0x21 * 2 ^ 24 + rd.val * 2 ^ 21 + re.val * 2 ^ 18) ∧
    if n > 2 ^ s.block.cwWidth - 1 then FaultsWith (.rsdec rd re) s .ceRslen n
    else if E > n then FaultsWith (.rsdec rd re) s .feRslen E
    else
      (∀ C : List (BitVec 12), InReach F R E (C.map BitVec.toNat) →
        ExecutesTo (.rsdec rd re) s
          ({ s.block with cwbuf := C }.setReg rd
            (BitVec.ofNat 32 (wordDist (C.map BitVec.toNat) R)))) ∧
      ((∀ C, ¬InReach F R E C) → FaultsWith (.rsdec rd re) s .ueRs 0)

/-- Rule R178 item 2: RSENC and then RSDEC with the same E find nothing to correct. -/
def Obligations.RsencThenRsdecFindsNoError : Prop :=
  ∀ (re rd : Reg) (s : State), s.Inv → s.block.fault = false →
    s.block.cwbuf.length + (s.block.reg re).toNat ≤ 2 ^ s.block.cwWidth - 1 →
    s.block.cwbuf.length + (s.block.reg re).toNat ≤ s.params.cwCap →
    ∃ t u, exec (.rsenc re) s = .next t ∧ exec (.rsdec rd re) t = .next u ∧
      u.block = t.block.setReg rd 0 ∧ u.port.resp = some ⟨0x00, 0⟩

/-! ### Mapper (43_mapper.md) -/

/-- Rule R203: MATDIM sets the dimensions and makes every module 0; a dimension of 0 or above MATMAX
raises CE_DIM, rows first. -/
def Obligations.MatdimMakesAWhiteMatrix : Prop :=
  ∀ (ry rx : Reg) (s : State), s.block.fault = false →
    let rows := (s.block.reg ry).toNat
    let cols := (s.block.reg rx).toNat
    encode (.matdim ry rx) = BitVec.ofNat 32 (0x30 * 2 ^ 24 + ry.val * 2 ^ 21 + rx.val * 2 ^ 18) ∧
    if rows < 1 ∨ s.params.matMax < rows then FaultsWith (.matdim ry rx) s .ceDim rows
    else if cols < 1 ∨ s.params.matMax < cols then FaultsWith (.matdim ry rx) s .ceDim cols
    else
      ∃ b, ExecutesTo (.matdim ry rx) s b ∧
        b = { s.block with mrows := rows, mcols := cols, mat := b.mat } ∧
        ∀ y x, y < rows → x < cols → b.matGet y x = false

/-- Rules R204 and R205: MATWR writes bit 0 of r[rv] to one module and leaves every other; MATRD reads
one module as 0 or 1; a coordinate outside the matrix raises AE_MAT, row first. Stated for blocks
that meet rule R45. -/
def Obligations.MatwrAndMatrdReachOneModule : Prop :=
  ∀ (ra rb rc : Reg) (s : State), s.Inv → s.block.fault = false →
    let a := (s.block.reg ra).toNat
    let b := (s.block.reg rb).toNat
    let c := (s.block.reg rc).toNat
    encode (.matwr ra rb rc) = BitVec.ofNat 32
      (0x31 * 2 ^ 24 + ra.val * 2 ^ 21 + rb.val * 2 ^ 18 + rc.val * 2 ^ 15) ∧
    encode (.matrd ra rb rc) = BitVec.ofNat 32
      (0x32 * 2 ^ 24 + ra.val * 2 ^ 21 + rb.val * 2 ^ 18 + rc.val * 2 ^ 15) ∧
    (if a ≥ s.block.mrows then FaultsWith (.matwr ra rb rc) s .aeMat a
      else if b ≥ s.block.mcols then FaultsWith (.matwr ra rb rc) s .aeMat b
      else
        ∃ t, ExecutesTo (.matwr ra rb rc) s t ∧ t = { s.block with mat := t.mat } ∧
          t.matGet a b = decide (c % 2 = 1) ∧
          ∀ y x, y < s.block.mrows → x < s.block.mcols → ¬(y = a ∧ x = b) →
            t.matGet y x = s.block.matGet y x) ∧
    if b ≥ s.block.mrows then FaultsWith (.matrd ra rb rc) s .aeMat b
    else if c ≥ s.block.mcols then FaultsWith (.matrd ra rb rc) s .aeMat c
    else ExecutesTo (.matrd ra rb rc) s
      (s.block.setReg ra (if s.block.matGet b c = true then 1 else 0))

/-- Rules R206 and R207: PATHCLR empties the path; PATHAP appends (r[ry], r[rx]), checked against MATMAX
(row first) and then PATHCAP. That a coordinate of 256 or more, where MATMAX is above 256, is kept whole
is the model's choice (log 10), not a rule of spec/. -/
def Obligations.PathCommandsBuildThePath : Prop :=
  encode .pathclr = 0x33000000 ∧
  ∀ (ry rx : Reg) (s : State), s.block.fault = false →
    let y := (s.block.reg ry).toNat
    let x := (s.block.reg rx).toNat
    encode (.pathap ry rx) = BitVec.ofNat 32 (0x34 * 2 ^ 24 + ry.val * 2 ^ 21 + rx.val * 2 ^ 18) ∧
    ExecutesTo .pathclr s { s.block with path := [] } ∧
    if y ≥ s.params.matMax then FaultsWith (.pathap ry rx) s .aePath y
    else if x ≥ s.params.matMax then FaultsWith (.pathap ry rx) s .aePath x
    else if s.block.path.length ≥ s.params.pathCap then
      FaultsWith (.pathap ry rx) s .boPath s.block.path.length
    else ExecutesTo (.pathap ry rx) s { s.block with path := s.block.path ++ [⟨y, x⟩] }

/-- Rule R208: MAPRD appends the module at every path coordinate, in order; the lowest path index outside
the matrix raises AE_PATH, then a full bit buffer BO_BIT. -/
def Obligations.MaprdAppendsTheModulesAlongThePath : Prop :=
  encode .maprd = 0x35000000 ∧
  ∀ s : State, s.block.fault = false →
    (∀ k c, s.block.path[k]? = some c → (c.y ≥ s.block.mrows ∨ c.x ≥ s.block.mcols) →
      (∀ j d, j < k → s.block.path[j]? = some d → d.y < s.block.mrows ∧ d.x < s.block.mcols) →
      FaultsWith .maprd s .aePath k) ∧
    ((∀ c ∈ s.block.path, c.y < s.block.mrows ∧ c.x < s.block.mcols) →
      if s.block.bitbuf.length + s.block.path.length > s.params.bitCap then
        FaultsWith .maprd s .boBit s.block.bitbuf.length
      else ExecutesTo .maprd s
        { s.block with bitbuf := s.block.bitbuf ++ s.block.path.map fun c => s.block.matGet c.y c.x })

/-- Rule R209: MAPWR reads one bit for every path coordinate, in order, and writes it to that module; of
several visits the last wins, modules off the path keep their value, RDPOS advances by PATHLEN. The
lowest path index outside the matrix raises AE_PATH, then too few bits ID_MAPWR. Stated for blocks
that meet rule R45. -/
def Obligations.MapwrPlacesBitsAlongThePath : Prop :=
  encode .mapwr = 0x36000000 ∧
  ∀ s : State, s.Inv → s.block.fault = false →
    (∀ k c, s.block.path[k]? = some c → (c.y ≥ s.block.mrows ∨ c.x ≥ s.block.mcols) →
      (∀ j d, j < k → s.block.path[j]? = some d → d.y < s.block.mrows ∧ d.x < s.block.mcols) →
      FaultsWith .mapwr s .aePath k) ∧
    ((∀ c ∈ s.block.path, c.y < s.block.mrows ∧ c.x < s.block.mcols) →
      if s.block.bitbuf.length - s.block.rdpos < s.block.path.length then
        FaultsWith .mapwr s .idMapwr (s.block.bitbuf.length - s.block.rdpos)
      else
        ∃ t, ExecutesTo .mapwr s t ∧
          t = { s.block with mat := t.mat, rdpos := s.block.rdpos + s.block.path.length } ∧
          (∀ k c v, s.block.path[k]? = some c → (∀ j, k < j → s.block.path[j]? ≠ some c) →
            s.block.bitbuf[s.block.rdpos + k]? = some v → t.matGet c.y c.x = v) ∧
          ∀ y x, y < s.block.mrows → x < s.block.mcols → (⟨y, x⟩ : Coord) ∉ s.block.path →
            t.matGet y x = s.block.matGet y x)

/-- Rule R214 item 1: with a path inside the matrix that visits no module twice, MAPWR and then MAPRD
append exactly the bits that were placed. -/
def Obligations.MapwrThenMaprdReturnsTheBits : Prop :=
  ∀ s : State, s.Inv → s.block.fault = false → s.block.path.Nodup →
    (∀ c ∈ s.block.path, c.y < s.block.mrows ∧ c.x < s.block.mcols) →
    s.block.path.length ≤ s.block.bitbuf.length - s.block.rdpos →
    s.block.bitbuf.length + s.block.path.length ≤ s.params.bitCap →
    ∃ t, runCommands [.mapwr, .maprd] s = .next t ∧
      t.block.bitbuf =
        s.block.bitbuf ++ (s.block.bitbuf.drop s.block.rdpos).take s.block.path.length

/-- Rules R210 and R211: CWPACK cuts c = r[rn] codewords of m bits out of the unread bits and appends
them, c·m unreduced, bits before capacity; CWUNPK appends every codeword as m bits, index 0 first. -/
def Obligations.CwpackAndCwunpkMoveCodewords : Prop :=
  encode .cwunpk = 0x38000000 ∧
  ∀ (rn : Reg) (s : State), s.block.fault = false →
    let c := (s.block.reg rn).toNat
    let m := s.block.cwWidth
    let n := s.block.cwbuf.length
    let a := s.block.bitbuf.length - s.block.rdpos
    encode (.cwpack rn) = BitVec.ofNat 32 (0x37 * 2 ^ 24 + rn.val * 2 ^ 21) ∧
    (if a < c * m then FaultsWith (.cwpack rn) s .idCwpack a
      else if n + c > s.params.cwCap then FaultsWith (.cwpack rn) s .boCw n
      else
        ∃ K : List (BitVec 12), K.length = c ∧
          ExecutesTo (.cwpack rn) s
            { s.block with cwbuf := s.block.cwbuf ++ K, rdpos := s.block.rdpos + c * m } ∧
          ∀ j k, K[j]? = some k → k.toNat < 2 ^ m ∧
            ∀ i, i < m → s.block.bitbuf[s.block.rdpos + j * m + i]? = some (k.getLsbD (m - 1 - i))) ∧
    if s.block.bitbuf.length + n * m > s.params.bitCap then
      FaultsWith .cwunpk s .boBit s.block.bitbuf.length
    else
      ∃ l : List Bool, l.length = n * m ∧
        ExecutesTo .cwunpk s { s.block with bitbuf := s.block.bitbuf ++ l } ∧
        ∀ j k, s.block.cwbuf[j]? = some k →
          ∀ i, i < m → l[j * m + i]? = some (k.getLsbD (m - 1 - i))

/-- Rule R214 item 2: CWUNPK and then CWPACK of as many codewords, reading the bits CWUNPK wrote, append
a copy of the codewords. -/
def Obligations.CwunpkThenCwpackCopies : Prop :=
  ∀ (rn : Reg) (s : State), s.Inv → s.block.fault = false →
    s.block.rdpos = s.block.bitbuf.length → (s.block.reg rn).toNat = s.block.cwbuf.length →
    2 * s.block.cwbuf.length ≤ s.params.cwCap →
    s.block.bitbuf.length + s.block.cwbuf.length * s.block.cwWidth ≤ s.params.bitCap →
    ∃ t, runCommands [.cwunpk, .cwpack rn] s = .next t ∧
      t.block.cwbuf = s.block.cwbuf ++ s.block.cwbuf ∧ t.block.rdpos = t.block.bitbuf.length

/-- Rules R212 and R214 item 3: STUFF turns every unread bit into codewords by the passes of rule R212,
none of them 0 or max, and consumes all bits; past CWCAP it raises BO_CW with CWLEN. -/
def Obligations.StuffEmitsNoForbiddenCodeword : Prop :=
  encode .stuff = 0x39000000 ∧
  ∀ s : State, s.block.fault = false →
    let m := s.block.cwWidth
    let n := s.block.cwbuf.length
    let unread := s.block.bitbuf.drop s.block.rdpos
    (∃ K, Stuffs m unread K) ∧
    ∀ K, Stuffs m unread K →
      (∀ k ∈ K, 1 ≤ k ∧ k < 2 ^ m - 1) ∧
      if n + K.length > s.params.cwCap then FaultsWith .stuff s .boCw n
      else ExecutesTo .stuff s
        { s.block with
          cwbuf := s.block.cwbuf ++ K.map (BitVec.ofNat 12)
          rdpos := s.block.bitbuf.length }

/-- Rules R213 and R214 item 6: UNSTUFF appends m − 1 zeros for a codeword 1, m − 1 ones for max − 1, and
the m bits of any other; a codeword 0 or max raises FE_STUFF with the lowest such index, whatever else
the buffer holds; past BITCAP it raises BO_BIT. -/
def Obligations.UnstuffExpandsRuns : Prop :=
  encode .unstuff = 0x3A000000 ∧
  ∀ s : State, s.block.fault = false →
    let m := s.block.cwWidth
    let out := (s.block.cwbuf.map fun c => unstuffed m c.toNat).flatten
    (∀ i c, s.block.cwbuf[i]? = some c → (c.toNat = 0 ∨ c.toNat = 2 ^ m - 1) →
      (∀ j d, j < i → s.block.cwbuf[j]? = some d → d.toNat ≠ 0 ∧ d.toNat ≠ 2 ^ m - 1) →
      FaultsWith .unstuff s .feStuff i) ∧
    ((∀ c ∈ s.block.cwbuf, c.toNat ≠ 0 ∧ c.toNat ≠ 2 ^ m - 1) →
      if s.block.bitbuf.length + out.length > s.params.bitCap then
        FaultsWith .unstuff s .boBit s.block.bitbuf.length
      else ExecutesTo .unstuff s { s.block with bitbuf := s.block.bitbuf ++ out })

/-- Rule R214 item 4: with an empty codeword buffer, STUFF, BCLR and UNSTUFF return the bits that were
unread, followed by at most m − 1 ones. -/
def Obligations.StuffThenUnstuffReturnsTheBits : Prop :=
  ∀ s : State, s.Inv → s.block.fault = false → s.block.cwbuf = [] →
    s.block.bitbuf.length - s.block.rdpos ≤ s.params.cwCap * (s.block.cwWidth - 1) →
    s.block.bitbuf.length - s.block.rdpos + (s.block.cwWidth - 1) ≤ s.params.bitCap →
    ∃ t p, runCommands [.stuff, .bclr, .unstuff] s = .next t ∧ p ≤ s.block.cwWidth - 1 ∧
      t.block.bitbuf = s.block.bitbuf.drop s.block.rdpos ++ List.replicate p true ∧
      t.port.resp = some ⟨0x00, 0⟩

/-! ### Text unit (44_text.md) -/

/-- Rule R246: MODEW sets the width and makes all entries of its mode UNDEF, and leaves the entries of
every other mode; a width of 0 or above 8 is IC_FIELD. -/
def Obligations.ModewDefinesAMode : Prop :=
  ∀ (mode : Mode) (w : BitVec 4) (s : State), s.block.fault = false →
    encode (.modew mode w) = BitVec.ofNat 32 (0x40 * 2 ^ 24 + mode.val * 2 ^ 21 + w.toNat) ∧
    if w.toNat < 1 ∨ 8 < w.toNat then FaultsWith (.modew mode w) s .icField 0
    else
      ∃ b, ExecutesTo (.modew mode w) s b ∧
        b = { s.block with modew := s.block.modew.set mode w, tbl := b.tbl } ∧
        ∀ (k : Mode) (v : Nat), v < 256 →
          b.tblGet k v = if k = mode then .undef else s.block.tblGet k v

/-- Rules R247 and R248: TBLWR stores a legal entry at the index {mode, code} and leaves every other;
TBLRD reads one back as its 12-bit value; a malformed index, an undefined mode or a code beyond the
width raises AE_TBL with the index, then an illegal entry CE_TBL with the value. Stated for blocks
that meet rule R45. -/
def Obligations.TableEntriesWriteAndReadBack : Prop :=
  ∀ (ra rb : Reg) (s : State), s.Inv → s.block.fault = false →
    let valid (idx : Word) : Prop := bits idx 31 11 = 0 ∧ ∀ k : Mode, k.val = bits idx 10 8 →
      s.block.width k ≠ 0 ∧ bits idx 7 0 < 2 ^ s.block.width k
    let va := s.block.reg ra
    let vb := s.block.reg rb
    encode (.tblwr ra rb) = BitVec.ofNat 32 (0x41 * 2 ^ 24 + ra.val * 2 ^ 21 + rb.val * 2 ^ 18) ∧
    encode (.tblrd ra rb) = BitVec.ofNat 32 (0x42 * 2 ^ 24 + ra.val * 2 ^ 21 + rb.val * 2 ^ 18) ∧
    (¬valid va → FaultsWith (.tblwr ra rb) s .aeTbl va.toNat) ∧
    (valid va → ¬entryLegal vb → FaultsWith (.tblwr ra rb) s .ceTbl vb.toNat) ∧
    (valid va → entryLegal vb →
      ∃ t, ExecutesTo (.tblwr ra rb) s t ∧ t = { s.block with tbl := t.tbl } ∧
        ∀ (k : Mode) (v : Nat), v < 256 →
          if k.val = bits va 10 8 ∧ v = bits va 7 0 then (t.tblGet k v).toWord = vb
          else t.tblGet k v = s.block.tblGet k v) ∧
    (¬valid vb → FaultsWith (.tblrd ra rb) s .aeTbl vb.toNat) ∧
    (valid vb → ∀ k : Mode, k.val = bits vb 10 8 →
      ExecutesTo (.tblrd ra rb) s (s.block.setReg ra (s.block.tblGet k (bits vb 7 0)).toWord))

/-- Rules R249, R250 and R251: CHCLR empties the character buffer; CHAP appends r[rs][9:0], past CHCAP
BO_CH with CHLEN; CHRD reads one entry, past CHLEN AE_CH with the index. -/
def Obligations.CharacterBufferCommands : Prop :=
  encode .chclr = 0x43000000 ∧
  ∀ (ra rb : Reg) (s : State), s.block.fault = false →
    let n := s.block.chbuf.length
    let vb := (s.block.reg rb).toNat
    encode (.chap ra) = BitVec.ofNat 32 (0x44 * 2 ^ 24 + ra.val * 2 ^ 21) ∧
    encode (.chrd ra rb) = BitVec.ofNat 32 (0x45 * 2 ^ 24 + ra.val * 2 ^ 21 + rb.val * 2 ^ 18) ∧
    ExecutesTo .chclr s { s.block with chbuf := [] } ∧
    (if n ≥ s.params.chCap then FaultsWith (.chap ra) s .boCh n
      else
        ∃ e : BitVec 10, e.toNat = (s.block.reg ra).toNat % 2 ^ 10 ∧
          ExecutesTo (.chap ra) s { s.block with chbuf := s.block.chbuf ++ [e] }) ∧
    if vb ≥ n then FaultsWith (.chrd ra rb) s .aeCh vb
    else
      ∃ (e : BitVec 10) (v : Word), s.block.chbuf[vb]? = some e ∧ v.toNat = e.toNat ∧
        ExecutesTo (.chrd ra rb) s (s.block.setReg ra v)

/-- Rule R252: TXDEC starts in the mode TXCFG[2:0] (rule R32); an undefined one raises CE_INITMODE;
otherwise its loop runs to an end from the session of rule R244, and a raise there is its fault; more
than CHCAP entries raise BO_CH; else the entries replace CHBUF and RDPOS is the position reached. -/
def Obligations.TxdecRunsItsLoopToTheEnd : Prop :=
  encode .txdec = 0x46000000 ∧
  ∀ s : State, s.block.fault = false →
    ∀ init : Mode, init.val = bits s.block.txcfg 2 0 →
    (s.block.width init = 0 → FaultsWith .txdec s .ceInitmode init.val) ∧
    let start : Session := ⟨init, init, [], s.block.bitbuf.drop s.block.rdpos⟩
    (s.block.width init ≠ 0 →
      (∃ e, Decodes s.block start e) ∧
      (∀ c v, Decodes s.block start (.raise c v) → FaultsWith .txdec s c v) ∧
      ∀ out rest, Decodes s.block start (.done out rest) →
        if out.length > s.params.chCap then FaultsWith .txdec s .boCh out.length
        else ExecutesTo .txdec s
          { s.block with chbuf := out, rdpos := s.block.bitbuf.length - rest.length })

/-- Rules R252, R253 and R255, one pass: with fewer unread bits than the active mode's width the
decoding ends normally and leaves them unread (rule R245); on a code v of the active mode a CHAR or FNC1
entry emits it and makes the latched mode active; LATCH and SHIFT entries save the mode they were read
in, then make the new mode active, a LATCH also latched; a mode that is not defined raises FE_TXMODE;
PAD ends the decoding; UNDEF raises FE_TXUNDEF, but for a last 8-bit code 254 while TXCFG[8] (ACC254,
rule R32) is 1. -/
def Obligations.DecoderPassFollowsLatchAndShift : Prop :=
  (∀ (b : Block) (latch active : Mode) (out : List (BitVec 10)) (rest : List Bool),
    rest.length < b.width active →
    txPass b ⟨latch, active, out, rest⟩ = .inl (.done out rest)) ∧
  ∀ (b : Block) (latch active : Mode) (out : List (BitVec 10)) (code rest : List Bool),
    code.length = b.width active →
    let ss : Session := ⟨latch, active, out, code ++ rest⟩
    let v := bitsVal code
    match b.tblGet active v with
    | .char c => txPass b ss = .inr ⟨latch, latch, out ++ [c.setWidth 10], rest⟩
    | .fnc1 => txPass b ss = .inr ⟨latch, latch, out ++ [0x21D], rest⟩
    | .latch k =>
      if b.width k = 0 then txPass b ss = .inl (.raise .feTxmode (active.val * 256 + v))
      else txPass b ss = .inr ⟨k, k, out, rest⟩
    | .shift k =>
      if b.width k = 0 then txPass b ss = .inl (.raise .feTxmode (active.val * 256 + v))
      else txPass b ss = .inr ⟨active, k, out, rest⟩
    | .pad => txPass b ss = .inl (.done out rest)
    | .undef =>
      if b.txcfg.getLsbD 8 = true ∧ b.width active = 8 ∧ v = 254 ∧ rest = [] then
        txPass b ss = .inl (.done out rest)
      else txPass b ss = .inl (.raise .feTxundef (active.val * 256 + v))
    | .binary => ∃ r, txPass b ss = r ∧ ∀ c i, r ≠ .inl (.raise c i)

/-- Rule R254, one pass on a BINARY code: the prefix announces L in LENW1 bits, or, by 0 there when
LENW2 is not 0, L less LENBIAS in LENW2 bits (BINCFG[4:0], [31:16] and [12:8], rule R31); the L literal
bytes come out marked BIN and the active mode is latched. Bits that run out inside the run end the
decoding behind the whole bytes, and bits that run out inside the prefix end it there. -/
def Obligations.BinaryRunReadsItsBytes : Prop :=
  ∀ (b : Block) (latch active : Mode) (out : List (BitVec 10)) (code : List Bool),
    code.length = b.width active → b.tblGet active (bitsVal code) = .binary →
    let w1 := bits b.bincfg 4 0
    let w2 := bits b.bincfg 12 8
    let go (rest : List Bool) := txPass b ⟨latch, active, out, code ++ rest⟩
    let marked (l : List Byte) : List (BitVec 10) := l.map fun v => BitVec.ofNat 10 (0x100 + v.toNat)
    let literal (l : List Byte) : List Bool := (l.map fun v => natBits v.toNat 8).flatten
    let announces (pre : List Bool) (L : Nat) : Prop :=
      pre.length = w1 ∧ bitsVal pre = L ∧ (L ≠ 0 ∨ w2 = 0) ∨
      ∃ p q, pre = p ++ q ∧ p.length = w1 ∧ bitsVal p = 0 ∧ w2 ≠ 0 ∧
        q.length = w2 ∧ L = bitsVal q + bits b.bincfg 31 16
    (∀ pre bytes more, announces pre bytes.length →
      go (pre ++ literal bytes ++ more) = .inr ⟨active, active, out ++ marked bytes, more⟩) ∧
    (∀ pre L bytes more, announces pre L → bytes.length < L → more.length < 8 →
      go (pre ++ literal bytes ++ more) = .inl (.done (out ++ marked bytes) more)) ∧
    (∀ pre, pre.length < w1 → go pre = .inl (.done out pre)) ∧
    ∀ p q, p.length = w1 → bitsVal p = 0 → q.length < w2 →
      go (p ++ q) = .inl (.done out q)

/-- Rule R261 item 4: TXDEC never raises InsufficientData, and on a normal end RDPOS is at most BITLEN. -/
def Obligations.TxdecNeverRunsShort : Prop :=
  ∀ s t : State, s.block.fault = false → exec .txdec s = .next t →
    (∀ c : FaultCode, t.port.resp = some ⟨c.code, 0⟩ → c.cls ≠ .insufficientData) ∧
    (t.block.fault = false → t.block.rdpos ≤ t.block.bitbuf.length)

/-- Rules R256, R257 and R258: find(a, e) is the least code of a defined mode a that holds e; loc(a, c)
is DIRECT, SHIFTED or BIN, the first that mode a offers, and none where it offers none; choose is
(cur, SHIFTED) for one odd character, else the least candidate by class, then distance, then mode, and
none where there is no candidate. (dist of rule R258 is LatchPathIsShortest.) -/
def Obligations.ChooseTakesTheLeastCandidate : Prop :=
  ∀ b : Block,
    (∀ (a : Mode) (e : Entry), b.width a ≠ 0 →
      (∀ v, b.findCode a e = some v ↔
        v < 2 ^ b.width a ∧ b.tblGet a v = e ∧ ∀ u, u < v → b.tblGet a u ≠ e) ∧
      (b.findCode a e = none ↔ ¬Holds b a e)) ∧
    (∀ (a : Mode) (c : Byte),
      (b.loc a c = some .direct ↔ Holds b a (.char c)) ∧
      (b.loc a c = some .shifted ↔ ¬Holds b a (.char c) ∧ ∃ s, ShiftGives b a c s) ∧
      (b.loc a c = some .bin ↔
        ¬Holds b a (.char c) ∧ (¬∃ s, ShiftGives b a c s) ∧ Holds b a .binary)) ∧
    ∀ (cur : Mode) (c : Byte) (nx : Option Byte),
      (OddCharacter b cur c nx → b.choose cur c nx = some (cur, .shifted)) ∧
      (¬OddCharacter b cur c nx →
        (∀ a k, b.choose cur c nx = some (a, k) ↔ ∃ d, LeastCandidate b cur c k d a) ∧
        (b.choose cur c nx = none ↔ ∀ k d a, ¬IsCandidate b cur c k d a))

/-- Rule R260: TXENC starts in the mode TXCFG[2:0] (rule R32); an undefined one raises CE_INITMODE;
otherwise its loop runs to an end, a byte without a representation raises FE_UNENC with its index, codes
past BITCAP raise BO_BIT, and else their bits are appended. Every binary run takes at least one byte,
and its prefix and its longest length are those of BINCFG (rule R31). Stated for blocks that meet rule
R45. -/
def Obligations.TxencRunsItsLoopToTheEnd : Prop :=
  encode .txenc = 0x47000000 ∧
  ∀ s : State, s.Inv → s.block.fault = false →
    ∀ init : Mode, init.val = bits s.block.txcfg 2 0 →
    (s.block.width init = 0 → FaultsWith .txenc s .ceInitmode init.val) ∧
    let text : List Byte := s.block.chbuf.map fun e => e.setWidth 8
    (s.block.width init ≠ 0 →
      (∃ r, Encodes s.block 0 init text r) ∧
      (∀ i, Encodes s.block 0 init text (.error i) → FaultsWith .txenc s .feUnenc i) ∧
      ∀ es, Encodes s.block 0 init text (.ok es) →
        if s.block.bitbuf.length + (es.map Emit.width).sum > s.params.bitCap then
          FaultsWith .txenc s .boBit s.block.bitbuf.length
        else ExecutesTo .txenc s
          { s.block with
            bitbuf := s.block.bitbuf ++ (es.map fun e => natBits e.val e.width).flatten })

/-- Rules R258 and R259: edge(x, y) holds where both modes are defined and x has a latch code to y;
dist(a, t) is the least length of a chain of edges from a to t, it is attained, and there is none where
there is no chain; the latch path from a to t has dist(a, t) codes, the latch codes along a chain that
takes the least-numbered mode one nearer to t at every step. -/
def Obligations.LatchPathIsShortest : Prop :=
  ∀ b : Block,
    (∀ x y : Mode, b.edge x y = true ↔ LatchEdge b x y) ∧
    ∀ a t : Mode,
      (∀ d, b.latchDist a t = some d →
        ∃ l : List Mode, List.IsChain (LatchEdge b) (a :: l) ∧
          (a :: l).getLast (List.cons_ne_nil _ _) = t ∧ l.length = d ∧
          LatchCodes b t a l (b.latchPath 8 a t) ∧ (b.latchPath 8 a t).length = d) ∧
      ∀ l : List Mode, List.IsChain (LatchEdge b) (a :: l) →
        (a :: l).getLast (List.cons_ne_nil _ _) = t → ∃ d, b.latchDist a t = some d ∧ d ≤ l.length

/-- Rule R261 item 1 (less its last clause): with nothing unread before, if TXENC succeeds then TXDEC
succeeds, consumes exactly the bits appended, and leaves the same bytes, none marked FNC1. -/
def Obligations.TextRoundTrip : Prop :=
  ∀ s t : State, s.Inv → s.block.fault = false → s.block.rdpos = s.block.bitbuf.length →
    exec .txenc s = .next t → t.block.fault = false →
    ∃ u, exec .txdec t = .next u ∧ u.port.resp = some ⟨0x00, 0⟩ ∧
      u.block.rdpos = t.block.bitbuf.length ∧
      u.block.chbuf.map (fun e => e.setWidth 8) =
        (s.block.chbuf.map fun e => e.setWidth 8 : List (BitVec 8)) ∧
      ∀ e ∈ u.block.chbuf, e.getLsbD 9 = false
end

