-- ==== Sys2Proof/Laws/State.lean ====
section
/-! SUPPORT. What each update of the state leaves in each field, true by unfolding once, so that no
later proof unfolds a record update. -/

namespace Sys2Proof.Machine

section Block

@[simp] theorem setReg_regs (b : Block) (r : Reg) (v : Word) :
    (b.setReg r v).regs = b.regs.set r v := rfl
@[simp] theorem setReg_fault (b : Block) (r : Reg) (v : Word) :
    (b.setReg r v).fault = b.fault := rfl
@[simp] theorem setReg_errcode (b : Block) (r : Reg) (v : Word) :
    (b.setReg r v).errcode = b.errcode := rfl
@[simp] theorem setReg_errcmd (b : Block) (r : Reg) (v : Word) :
    (b.setReg r v).errcmd = b.errcmd := rfl
@[simp] theorem setReg_errinfo (b : Block) (r : Reg) (v : Word) :
    (b.setReg r v).errinfo = b.errinfo := rfl
@[simp] theorem setReg_fsel (b : Block) (r : Reg) (v : Word) : (b.setReg r v).fsel = b.fsel := rfl
@[simp] theorem setReg_bincfg (b : Block) (r : Reg) (v : Word) :
    (b.setReg r v).bincfg = b.bincfg := rfl
@[simp] theorem setReg_txcfg (b : Block) (r : Reg) (v : Word) :
    (b.setReg r v).txcfg = b.txcfg := rfl
@[simp] theorem setReg_bitbuf (b : Block) (r : Reg) (v : Word) :
    (b.setReg r v).bitbuf = b.bitbuf := rfl
@[simp] theorem setReg_rdpos (b : Block) (r : Reg) (v : Word) :
    (b.setReg r v).rdpos = b.rdpos := rfl
@[simp] theorem setReg_cwbuf (b : Block) (r : Reg) (v : Word) :
    (b.setReg r v).cwbuf = b.cwbuf := rfl
@[simp] theorem setReg_mrows (b : Block) (r : Reg) (v : Word) :
    (b.setReg r v).mrows = b.mrows := rfl
@[simp] theorem setReg_mcols (b : Block) (r : Reg) (v : Word) :
    (b.setReg r v).mcols = b.mcols := rfl
@[simp] theorem setReg_mat (b : Block) (r : Reg) (v : Word) : (b.setReg r v).mat = b.mat := rfl
@[simp] theorem setReg_path (b : Block) (r : Reg) (v : Word) : (b.setReg r v).path = b.path := rfl
@[simp] theorem setReg_chbuf (b : Block) (r : Reg) (v : Word) :
    (b.setReg r v).chbuf = b.chbuf := rfl
@[simp] theorem setReg_modew (b : Block) (r : Reg) (v : Word) :
    (b.setReg r v).modew = b.modew := rfl
@[simp] theorem setReg_tbl (b : Block) (r : Reg) (v : Word) : (b.setReg r v).tbl = b.tbl := rfl

@[simp] theorem setRegNat_regs (b : Block) (r : Reg) (v : Nat) :
    (b.setRegNat r v).regs = b.regs.set r (BitVec.ofNat 32 v) := rfl
@[simp] theorem setRegNat_fault (b : Block) (r : Reg) (v : Nat) :
    (b.setRegNat r v).fault = b.fault := rfl
@[simp] theorem setRegNat_errcode (b : Block) (r : Reg) (v : Nat) :
    (b.setRegNat r v).errcode = b.errcode := rfl
@[simp] theorem setRegNat_errcmd (b : Block) (r : Reg) (v : Nat) :
    (b.setRegNat r v).errcmd = b.errcmd := rfl
@[simp] theorem setRegNat_errinfo (b : Block) (r : Reg) (v : Nat) :
    (b.setRegNat r v).errinfo = b.errinfo := rfl
@[simp] theorem setRegNat_fsel (b : Block) (r : Reg) (v : Nat) :
    (b.setRegNat r v).fsel = b.fsel := rfl
@[simp] theorem setRegNat_bincfg (b : Block) (r : Reg) (v : Nat) :
    (b.setRegNat r v).bincfg = b.bincfg := rfl
@[simp] theorem setRegNat_txcfg (b : Block) (r : Reg) (v : Nat) :
    (b.setRegNat r v).txcfg = b.txcfg := rfl
@[simp] theorem setRegNat_bitbuf (b : Block) (r : Reg) (v : Nat) :
    (b.setRegNat r v).bitbuf = b.bitbuf := rfl
@[simp] theorem setRegNat_rdpos (b : Block) (r : Reg) (v : Nat) :
    (b.setRegNat r v).rdpos = b.rdpos := rfl
@[simp] theorem setRegNat_cwbuf (b : Block) (r : Reg) (v : Nat) :
    (b.setRegNat r v).cwbuf = b.cwbuf := rfl
@[simp] theorem setRegNat_mrows (b : Block) (r : Reg) (v : Nat) :
    (b.setRegNat r v).mrows = b.mrows := rfl
@[simp] theorem setRegNat_mcols (b : Block) (r : Reg) (v : Nat) :
    (b.setRegNat r v).mcols = b.mcols := rfl
@[simp] theorem setRegNat_mat (b : Block) (r : Reg) (v : Nat) : (b.setRegNat r v).mat = b.mat := rfl
@[simp] theorem setRegNat_path (b : Block) (r : Reg) (v : Nat) :
    (b.setRegNat r v).path = b.path := rfl
@[simp] theorem setRegNat_chbuf (b : Block) (r : Reg) (v : Nat) :
    (b.setRegNat r v).chbuf = b.chbuf := rfl
@[simp] theorem setRegNat_modew (b : Block) (r : Reg) (v : Nat) :
    (b.setRegNat r v).modew = b.modew := rfl
@[simp] theorem setRegNat_tbl (b : Block) (r : Reg) (v : Nat) : (b.setRegNat r v).tbl = b.tbl := rfl

@[simp] theorem recordFault_regs (b : Block) (c : FaultCode) (w : Word) (v : Nat) :
    (b.recordFault c w v).regs = b.regs := rfl
@[simp] theorem recordFault_fault (b : Block) (c : FaultCode) (w : Word) (v : Nat) :
    (b.recordFault c w v).fault = true := rfl
@[simp] theorem recordFault_errcode (b : Block) (c : FaultCode) (w : Word) (v : Nat) :
    (b.recordFault c w v).errcode = c.code := rfl
@[simp] theorem recordFault_errcmd (b : Block) (c : FaultCode) (w : Word) (v : Nat) :
    (b.recordFault c w v).errcmd = w := rfl
@[simp] theorem recordFault_errinfo (b : Block) (c : FaultCode) (w : Word) (v : Nat) :
    (b.recordFault c w v).errinfo = BitVec.ofNat 32 v := rfl
@[simp] theorem recordFault_fsel (b : Block) (c : FaultCode) (w : Word) (v : Nat) :
    (b.recordFault c w v).fsel = b.fsel := rfl
@[simp] theorem recordFault_bincfg (b : Block) (c : FaultCode) (w : Word) (v : Nat) :
    (b.recordFault c w v).bincfg = b.bincfg := rfl
@[simp] theorem recordFault_txcfg (b : Block) (c : FaultCode) (w : Word) (v : Nat) :
    (b.recordFault c w v).txcfg = b.txcfg := rfl
@[simp] theorem recordFault_bitbuf (b : Block) (c : FaultCode) (w : Word) (v : Nat) :
    (b.recordFault c w v).bitbuf = b.bitbuf := rfl
@[simp] theorem recordFault_rdpos (b : Block) (c : FaultCode) (w : Word) (v : Nat) :
    (b.recordFault c w v).rdpos = b.rdpos := rfl
@[simp] theorem recordFault_cwbuf (b : Block) (c : FaultCode) (w : Word) (v : Nat) :
    (b.recordFault c w v).cwbuf = b.cwbuf := rfl
@[simp] theorem recordFault_mrows (b : Block) (c : FaultCode) (w : Word) (v : Nat) :
    (b.recordFault c w v).mrows = b.mrows := rfl
@[simp] theorem recordFault_mcols (b : Block) (c : FaultCode) (w : Word) (v : Nat) :
    (b.recordFault c w v).mcols = b.mcols := rfl
@[simp] theorem recordFault_mat (b : Block) (c : FaultCode) (w : Word) (v : Nat) :
    (b.recordFault c w v).mat = b.mat := rfl
@[simp] theorem recordFault_path (b : Block) (c : FaultCode) (w : Word) (v : Nat) :
    (b.recordFault c w v).path = b.path := rfl
@[simp] theorem recordFault_chbuf (b : Block) (c : FaultCode) (w : Word) (v : Nat) :
    (b.recordFault c w v).chbuf = b.chbuf := rfl
@[simp] theorem recordFault_modew (b : Block) (c : FaultCode) (w : Word) (v : Nat) :
    (b.recordFault c w v).modew = b.modew := rfl
@[simp] theorem recordFault_tbl (b : Block) (c : FaultCode) (w : Word) (v : Nat) :
    (b.recordFault c w v).tbl = b.tbl := rfl

@[simp] theorem clearFault_regs (b : Block) : (b.clearFault).regs = b.regs := rfl
@[simp] theorem clearFault_fault (b : Block) : (b.clearFault).fault = false := rfl
@[simp] theorem clearFault_errcode (b : Block) : (b.clearFault).errcode = 0 := rfl
@[simp] theorem clearFault_errcmd (b : Block) : (b.clearFault).errcmd = 0 := rfl
@[simp] theorem clearFault_errinfo (b : Block) : (b.clearFault).errinfo = 0 := rfl
@[simp] theorem clearFault_fsel (b : Block) : (b.clearFault).fsel = b.fsel := rfl
@[simp] theorem clearFault_bincfg (b : Block) : (b.clearFault).bincfg = b.bincfg := rfl
@[simp] theorem clearFault_txcfg (b : Block) : (b.clearFault).txcfg = b.txcfg := rfl
@[simp] theorem clearFault_bitbuf (b : Block) : (b.clearFault).bitbuf = b.bitbuf := rfl
@[simp] theorem clearFault_rdpos (b : Block) : (b.clearFault).rdpos = b.rdpos := rfl
@[simp] theorem clearFault_cwbuf (b : Block) : (b.clearFault).cwbuf = b.cwbuf := rfl
@[simp] theorem clearFault_mrows (b : Block) : (b.clearFault).mrows = b.mrows := rfl
@[simp] theorem clearFault_mcols (b : Block) : (b.clearFault).mcols = b.mcols := rfl
@[simp] theorem clearFault_mat (b : Block) : (b.clearFault).mat = b.mat := rfl
@[simp] theorem clearFault_path (b : Block) : (b.clearFault).path = b.path := rfl
@[simp] theorem clearFault_chbuf (b : Block) : (b.clearFault).chbuf = b.chbuf := rfl
@[simp] theorem clearFault_modew (b : Block) : (b.clearFault).modew = b.modew := rfl
@[simp] theorem clearFault_tbl (b : Block) : (b.clearFault).tbl = b.tbl := rfl

@[simp] theorem skipBits_regs (b : Block) (n : Nat) : (b.skipBits n).regs = b.regs := rfl
@[simp] theorem skipBits_fault (b : Block) (n : Nat) : (b.skipBits n).fault = b.fault := rfl
@[simp] theorem skipBits_errcode (b : Block) (n : Nat) : (b.skipBits n).errcode = b.errcode := rfl
@[simp] theorem skipBits_errcmd (b : Block) (n : Nat) : (b.skipBits n).errcmd = b.errcmd := rfl
@[simp] theorem skipBits_errinfo (b : Block) (n : Nat) : (b.skipBits n).errinfo = b.errinfo := rfl
@[simp] theorem skipBits_fsel (b : Block) (n : Nat) : (b.skipBits n).fsel = b.fsel := rfl
@[simp] theorem skipBits_bincfg (b : Block) (n : Nat) : (b.skipBits n).bincfg = b.bincfg := rfl
@[simp] theorem skipBits_txcfg (b : Block) (n : Nat) : (b.skipBits n).txcfg = b.txcfg := rfl
@[simp] theorem skipBits_bitbuf (b : Block) (n : Nat) : (b.skipBits n).bitbuf = b.bitbuf := rfl
@[simp] theorem skipBits_rdpos (b : Block) (n : Nat) : (b.skipBits n).rdpos = b.rdpos + n := rfl
@[simp] theorem skipBits_cwbuf (b : Block) (n : Nat) : (b.skipBits n).cwbuf = b.cwbuf := rfl
@[simp] theorem skipBits_mrows (b : Block) (n : Nat) : (b.skipBits n).mrows = b.mrows := rfl
@[simp] theorem skipBits_mcols (b : Block) (n : Nat) : (b.skipBits n).mcols = b.mcols := rfl
@[simp] theorem skipBits_mat (b : Block) (n : Nat) : (b.skipBits n).mat = b.mat := rfl
@[simp] theorem skipBits_path (b : Block) (n : Nat) : (b.skipBits n).path = b.path := rfl
@[simp] theorem skipBits_chbuf (b : Block) (n : Nat) : (b.skipBits n).chbuf = b.chbuf := rfl
@[simp] theorem skipBits_modew (b : Block) (n : Nat) : (b.skipBits n).modew = b.modew := rfl
@[simp] theorem skipBits_tbl (b : Block) (n : Nat) : (b.skipBits n).tbl = b.tbl := rfl

@[simp] theorem pushBits_regs (b : Block) (l : List Bool) : (b.pushBits l).regs = b.regs := rfl
@[simp] theorem pushBits_fault (b : Block) (l : List Bool) : (b.pushBits l).fault = b.fault := rfl
@[simp] theorem pushBits_errcode (b : Block) (l : List Bool) :
    (b.pushBits l).errcode = b.errcode := rfl
@[simp] theorem pushBits_errcmd (b : Block) (l : List Bool) :
    (b.pushBits l).errcmd = b.errcmd := rfl
@[simp] theorem pushBits_errinfo (b : Block) (l : List Bool) :
    (b.pushBits l).errinfo = b.errinfo := rfl
@[simp] theorem pushBits_fsel (b : Block) (l : List Bool) : (b.pushBits l).fsel = b.fsel := rfl
@[simp] theorem pushBits_bincfg (b : Block) (l : List Bool) :
    (b.pushBits l).bincfg = b.bincfg := rfl
@[simp] theorem pushBits_txcfg (b : Block) (l : List Bool) : (b.pushBits l).txcfg = b.txcfg := rfl
@[simp] theorem pushBits_bitbuf (b : Block) (l : List Bool) :
    (b.pushBits l).bitbuf = b.bitbuf ++ l := rfl
@[simp] theorem pushBits_rdpos (b : Block) (l : List Bool) : (b.pushBits l).rdpos = b.rdpos := rfl
@[simp] theorem pushBits_cwbuf (b : Block) (l : List Bool) : (b.pushBits l).cwbuf = b.cwbuf := rfl
@[simp] theorem pushBits_mrows (b : Block) (l : List Bool) : (b.pushBits l).mrows = b.mrows := rfl
@[simp] theorem pushBits_mcols (b : Block) (l : List Bool) : (b.pushBits l).mcols = b.mcols := rfl
@[simp] theorem pushBits_mat (b : Block) (l : List Bool) : (b.pushBits l).mat = b.mat := rfl
@[simp] theorem pushBits_path (b : Block) (l : List Bool) : (b.pushBits l).path = b.path := rfl
@[simp] theorem pushBits_chbuf (b : Block) (l : List Bool) : (b.pushBits l).chbuf = b.chbuf := rfl
@[simp] theorem pushBits_modew (b : Block) (l : List Bool) : (b.pushBits l).modew = b.modew := rfl
@[simp] theorem pushBits_tbl (b : Block) (l : List Bool) : (b.pushBits l).tbl = b.tbl := rfl

@[simp] theorem appendBits_regs (b : Block) (v n : Nat) : (b.appendBits v n).regs = b.regs := rfl
@[simp] theorem appendBits_fault (b : Block) (v n : Nat) : (b.appendBits v n).fault = b.fault := rfl
@[simp] theorem appendBits_errcode (b : Block) (v n : Nat) :
    (b.appendBits v n).errcode = b.errcode := rfl
@[simp] theorem appendBits_errcmd (b : Block) (v n : Nat) :
    (b.appendBits v n).errcmd = b.errcmd := rfl
@[simp] theorem appendBits_errinfo (b : Block) (v n : Nat) :
    (b.appendBits v n).errinfo = b.errinfo := rfl
@[simp] theorem appendBits_fsel (b : Block) (v n : Nat) : (b.appendBits v n).fsel = b.fsel := rfl
@[simp] theorem appendBits_bincfg (b : Block) (v n : Nat) :
    (b.appendBits v n).bincfg = b.bincfg := rfl
@[simp] theorem appendBits_txcfg (b : Block) (v n : Nat) : (b.appendBits v n).txcfg = b.txcfg := rfl
@[simp] theorem appendBits_bitbuf (b : Block) (v n : Nat) :
    (b.appendBits v n).bitbuf = b.bitbuf ++ natBits v n := rfl
@[simp] theorem appendBits_rdpos (b : Block) (v n : Nat) : (b.appendBits v n).rdpos = b.rdpos := rfl
@[simp] theorem appendBits_cwbuf (b : Block) (v n : Nat) : (b.appendBits v n).cwbuf = b.cwbuf := rfl
@[simp] theorem appendBits_mrows (b : Block) (v n : Nat) : (b.appendBits v n).mrows = b.mrows := rfl
@[simp] theorem appendBits_mcols (b : Block) (v n : Nat) : (b.appendBits v n).mcols = b.mcols := rfl
@[simp] theorem appendBits_mat (b : Block) (v n : Nat) : (b.appendBits v n).mat = b.mat := rfl
@[simp] theorem appendBits_path (b : Block) (v n : Nat) : (b.appendBits v n).path = b.path := rfl
@[simp] theorem appendBits_chbuf (b : Block) (v n : Nat) : (b.appendBits v n).chbuf = b.chbuf := rfl
@[simp] theorem appendBits_modew (b : Block) (v n : Nat) : (b.appendBits v n).modew = b.modew := rfl
@[simp] theorem appendBits_tbl (b : Block) (v n : Nat) : (b.appendBits v n).tbl = b.tbl := rfl

@[simp] theorem matSet_regs (b : Block) (y x : Nat) (v : Bool) :
    (b.matSet y x v).regs = b.regs := rfl
@[simp] theorem matSet_fault (b : Block) (y x : Nat) (v : Bool) :
    (b.matSet y x v).fault = b.fault := rfl
@[simp] theorem matSet_errcode (b : Block) (y x : Nat) (v : Bool) :
    (b.matSet y x v).errcode = b.errcode := rfl
@[simp] theorem matSet_errcmd (b : Block) (y x : Nat) (v : Bool) :
    (b.matSet y x v).errcmd = b.errcmd := rfl
@[simp] theorem matSet_errinfo (b : Block) (y x : Nat) (v : Bool) :
    (b.matSet y x v).errinfo = b.errinfo := rfl
@[simp] theorem matSet_fsel (b : Block) (y x : Nat) (v : Bool) :
    (b.matSet y x v).fsel = b.fsel := rfl
@[simp] theorem matSet_bincfg (b : Block) (y x : Nat) (v : Bool) :
    (b.matSet y x v).bincfg = b.bincfg := rfl
@[simp] theorem matSet_txcfg (b : Block) (y x : Nat) (v : Bool) :
    (b.matSet y x v).txcfg = b.txcfg := rfl
@[simp] theorem matSet_bitbuf (b : Block) (y x : Nat) (v : Bool) :
    (b.matSet y x v).bitbuf = b.bitbuf := rfl
@[simp] theorem matSet_rdpos (b : Block) (y x : Nat) (v : Bool) :
    (b.matSet y x v).rdpos = b.rdpos := rfl
@[simp] theorem matSet_cwbuf (b : Block) (y x : Nat) (v : Bool) :
    (b.matSet y x v).cwbuf = b.cwbuf := rfl
@[simp] theorem matSet_mrows (b : Block) (y x : Nat) (v : Bool) :
    (b.matSet y x v).mrows = b.mrows := rfl
@[simp] theorem matSet_mcols (b : Block) (y x : Nat) (v : Bool) :
    (b.matSet y x v).mcols = b.mcols := rfl
@[simp] theorem matSet_mat (b : Block) (y x : Nat) (v : Bool) :
    (b.matSet y x v).mat = sparseSet false b.mat (matKey b.mcols y x) v := rfl
@[simp] theorem matSet_path (b : Block) (y x : Nat) (v : Bool) :
    (b.matSet y x v).path = b.path := rfl
@[simp] theorem matSet_chbuf (b : Block) (y x : Nat) (v : Bool) :
    (b.matSet y x v).chbuf = b.chbuf := rfl
@[simp] theorem matSet_modew (b : Block) (y x : Nat) (v : Bool) :
    (b.matSet y x v).modew = b.modew := rfl
@[simp] theorem matSet_tbl (b : Block) (y x : Nat) (v : Bool) : (b.matSet y x v).tbl = b.tbl := rfl

@[simp] theorem tblSet_regs (b : Block) (k : Mode) (c : Nat) (e : Entry) :
    (b.tblSet k c e).regs = b.regs := rfl
@[simp] theorem tblSet_fault (b : Block) (k : Mode) (c : Nat) (e : Entry) :
    (b.tblSet k c e).fault = b.fault := rfl
@[simp] theorem tblSet_errcode (b : Block) (k : Mode) (c : Nat) (e : Entry) :
    (b.tblSet k c e).errcode = b.errcode := rfl
@[simp] theorem tblSet_errcmd (b : Block) (k : Mode) (c : Nat) (e : Entry) :
    (b.tblSet k c e).errcmd = b.errcmd := rfl
@[simp] theorem tblSet_errinfo (b : Block) (k : Mode) (c : Nat) (e : Entry) :
    (b.tblSet k c e).errinfo = b.errinfo := rfl
@[simp] theorem tblSet_fsel (b : Block) (k : Mode) (c : Nat) (e : Entry) :
    (b.tblSet k c e).fsel = b.fsel := rfl
@[simp] theorem tblSet_bincfg (b : Block) (k : Mode) (c : Nat) (e : Entry) :
    (b.tblSet k c e).bincfg = b.bincfg := rfl
@[simp] theorem tblSet_txcfg (b : Block) (k : Mode) (c : Nat) (e : Entry) :
    (b.tblSet k c e).txcfg = b.txcfg := rfl
@[simp] theorem tblSet_bitbuf (b : Block) (k : Mode) (c : Nat) (e : Entry) :
    (b.tblSet k c e).bitbuf = b.bitbuf := rfl
@[simp] theorem tblSet_rdpos (b : Block) (k : Mode) (c : Nat) (e : Entry) :
    (b.tblSet k c e).rdpos = b.rdpos := rfl
@[simp] theorem tblSet_cwbuf (b : Block) (k : Mode) (c : Nat) (e : Entry) :
    (b.tblSet k c e).cwbuf = b.cwbuf := rfl
@[simp] theorem tblSet_mrows (b : Block) (k : Mode) (c : Nat) (e : Entry) :
    (b.tblSet k c e).mrows = b.mrows := rfl
@[simp] theorem tblSet_mcols (b : Block) (k : Mode) (c : Nat) (e : Entry) :
    (b.tblSet k c e).mcols = b.mcols := rfl
@[simp] theorem tblSet_mat (b : Block) (k : Mode) (c : Nat) (e : Entry) :
    (b.tblSet k c e).mat = b.mat := rfl
@[simp] theorem tblSet_path (b : Block) (k : Mode) (c : Nat) (e : Entry) :
    (b.tblSet k c e).path = b.path := rfl
@[simp] theorem tblSet_chbuf (b : Block) (k : Mode) (c : Nat) (e : Entry) :
    (b.tblSet k c e).chbuf = b.chbuf := rfl
@[simp] theorem tblSet_modew (b : Block) (k : Mode) (c : Nat) (e : Entry) :
    (b.tblSet k c e).modew = b.modew := rfl
@[simp] theorem tblSet_tbl (b : Block) (k : Mode) (c : Nat) (e : Entry) :
    (b.tblSet k c e).tbl = sparseSet .undef b.tbl (tblKey k c) e := rfl

end Block

section State
variable (b : Block) (d : Word) (c : FaultCode) (v : Nat) (w : Word) (l : List Word) (s : State)

@[simp] theorem complete_block : (complete b d s).block = b := rfl
@[simp] theorem complete_port : (complete b d s).port = { s.port with resp := some ⟨0, d⟩ } := rfl
@[simp] theorem takeFault_block :
    (takeFault c v s).block = s.block.recordFault c s.port.cmd v := rfl
@[simp] theorem takeFault_port :
    (takeFault c v s).port = { s.port with resp := some ⟨c.code, 0⟩ } := rfl
@[simp] theorem refuse_block : (refuse s).block = s.block := rfl
@[simp] theorem refuse_port : (refuse s).port = { s.port with resp := some ⟨0xFF, 0⟩ } := rfl
@[simp] theorem present_block : (present w l s).block = s.block := rfl
@[simp] theorem present_port : (present w l s).port = { s.port with cmd := w, pending := l } := rfl
@[simp] theorem withFetchWord_block (n k : Nat) : (s.withFetchWord n k).block = s.block := rfl
@[simp] theorem complete_params : (complete b d s).params = s.params := rfl
@[simp] theorem takeFault_params : (takeFault c v s).params = s.params := rfl
@[simp] theorem refuse_params : (refuse s).params = s.params := rfl
@[simp] theorem present_params : (present w l s).params = s.params := rfl
@[simp] theorem withFetchWord_params (n k : Nat) : (s.withFetchWord n k).params = s.params := rfl
@[simp] theorem finish_params (r : Result) : (finish r s).params = s.params := by cases r <;> rfl
@[simp] theorem finish_done : finish (.done b d) s = complete b d s := rfl
@[simp] theorem finish_raise : finish (.raise c v) s = takeFault c v s := rfl

end State

section Registers
variable (b : Block) (r q : Reg)

/-- The register written reads back. -/
@[simp] theorem reg_setReg_same (v : Word) : (b.setReg r v).reg r = v := by
  simp [Block.reg, Block.setReg]

/-- Every other register is unchanged. -/
theorem reg_setReg_other (v : Word) (h : q ≠ r) : (b.setReg r v).reg q = b.reg q := by
  have : (r : Nat) ≠ q := fun e => h (Fin.ext e.symm)
  simp [Block.reg, Block.setReg, this]

@[simp] theorem reg_setRegNat_same (v : Nat) : (b.setRegNat r v).reg r = BitVec.ofNat 32 v :=
  reg_setReg_same b r _

theorem reg_setRegNat_other (v : Nat) (h : q ≠ r) : (b.setRegNat r v).reg q = b.reg q :=
  reg_setReg_other b r q _ h

/-- The width a MODEW writes. -/
theorem width_set (k j : Mode) (w : BitVec 4) :
    ({ b with modew := b.modew.set k w }.width j) = if j = k then w.toNat else b.width j := by
  by_cases h : j = k
  · simp [Block.width, h]
  · have : (k : Nat) ≠ j := fun e => h (Fin.ext e.symm)
    simp [Block.width, this, h]

end Registers

end Sys2Proof.Machine
end

