-- ==== Sys2Proof/Laws/Bits.lean ====
section
/-! SUPPORT. Numbers as bits, most significant first: lengths, values, round trips, and the unread
bits of the bit buffer. -/

namespace Sys2Proof.Machine

@[simp] theorem natBits_length (v n : Nat) : (natBits v n).length = n := by
  induction n with
  | zero => rfl
  | succ n ih => simp [natBits, ih]

@[simp] theorem bitsVal_nil : bitsVal [] = 0 := rfl

theorem bitsVal_fold (l : List Bool) (a : Nat) :
    l.foldl (fun v bit => 2 * v + bit.toNat) a = a * 2 ^ l.length + bitsVal l := by
  induction l generalizing a with
  | nil => simp
  | cons x l ih =>
    simp only [bitsVal, List.foldl_cons, List.length_cons]
    rw [ih, ih (2 * 0 + x.toNat)]
    ring

theorem bitsVal_cons (x : Bool) (l : List Bool) :
    bitsVal (x :: l) = x.toNat * 2 ^ l.length + bitsVal l := by
  rw [bitsVal, List.foldl_cons, bitsVal_fold]
  simp

theorem bitsVal_append (l m : List Bool) :
    bitsVal (l ++ m) = bitsVal l * 2 ^ m.length + bitsVal m := by
  rw [bitsVal, List.foldl_append, bitsVal_fold]
  rfl

theorem bitsVal_lt (l : List Bool) : bitsVal l < 2 ^ l.length := by
  induction l with
  | nil => simp
  | cons x l ih =>
    rw [bitsVal_cons, List.length_cons, pow_succ]
    cases x <;> simp <;> omega

/-- A number below 2^n, read from its n bits. -/
theorem bitsVal_natBits (v n : Nat) : bitsVal (natBits v n) = v % 2 ^ n := by
  induction n with
  | zero => simp [natBits, Nat.mod_one]
  | succ n ih =>
    rw [natBits, bitsVal_cons, natBits_length, ih, Nat.mod_pow_succ, Nat.toNat_testBit]
    ring

/-- Bits, written from their number. -/
theorem natBits_bitsVal (l : List Bool) : natBits (bitsVal l) l.length = l := by
  induction l with
  | nil => rfl
  | cons x l ih =>
    have hlt := bitsVal_lt l
    have hlow : ∀ n, n ≤ l.length → natBits (bitsVal (x :: l)) n = natBits (bitsVal l) n := by
      intro n
      induction n with
      | zero => intro; rfl
      | succ n ihn =>
        intro hn
        rw [natBits, natBits, ihn (by omega), bitsVal_cons]
        have : (x.toNat * 2 ^ l.length + bitsVal l).testBit n = (bitsVal l).testBit n := by
          rw [Nat.mul_comm, Nat.testBit_two_pow_mul_add _ hlt, if_pos (by omega)]
        rw [this]
    have htop : (bitsVal (x :: l)).testBit l.length = x := by
      rw [bitsVal_cons, Nat.mul_comm, Nat.testBit_two_pow_mul_add _ hlt, if_neg (by omega)]
      cases x <;> simp
    rw [List.length_cons, natBits, hlow _ (le_refl _), ih, htop]

/-- Bit i of the n bits of v is v[n−1−i] (41_bitstream.md rule R141). -/
theorem natBits_getElem (v n i : Nat) (h : i < (natBits v n).length) :
    (natBits v n)[i] = v.testBit (n - 1 - i) := by
  induction n generalizing i with
  | zero => simp at h
  | succ n ih =>
    cases i with
    | zero => simp [natBits]
    | succ i =>
      have h' : i < (natBits v n).length := by simpa using h
      have hn : i < n := by simpa using h'
      simp only [natBits, List.getElem_cons_succ, ih i h']
      congr 1
      omega

/-- As many bits are unread as available() says (41_bitstream.md rule R142). -/
@[simp] theorem unread_length (b : Block) : b.unread.length = b.available := by
  simp [Block.unread, Block.available, Block.bitlen]

/-- An append leaves what was unread in front of what it appended. -/
theorem unread_pushBits (b : Block) (l : List Bool) (h : b.rdpos ≤ b.bitlen) :
    (b.pushBits l).unread = b.unread ++ l := by
  simp only [Block.unread, pushBits_bitbuf, pushBits_rdpos]
  exact List.drop_append_of_le_length h

/-- Every codeword width is from 6 to 12 bits (10_state.md rule R30). -/
theorem codewordWidth_range (f : BitVec 2) : 6 ≤ codewordWidth f ∧ codewordWidth f ≤ 12 := by
  revert f; decide

/-- The width of the selected field is the selected codeword width (10_state.md rule R30). -/
@[simp] theorem field_m (p : Params) (f : BitVec 2) : (p.field f).m = codewordWidth f := rfl

end Sys2Proof.Machine
end

