-- ==== Sys2Proof/Laws/Sparse.lean ====
section
/-! SUPPORT. The sparse buffers: a read after a write, and that every operation on them keeps their
canonical form. -/

namespace Sys2Proof.Machine

section Sparse
variable {α : Type} [DecidableEq α] (d : α)

theorem sparseWfFrom_mono (l : List (Nat × α)) {lo lo' : Nat} (h : lo' ≤ lo)
    (hl : sparseWfFrom d lo l = true) : sparseWfFrom d lo' l = true := by
  cases l with
  | nil => rfl
  | cons p l =>
    simp only [sparseWfFrom, Bool.and_eq_true, decide_eq_true_eq] at hl ⊢
    exact ⟨⟨by omega, hl.1.2⟩, hl.2⟩

/-- A position below the first listed one holds d. -/
theorem sparseGet_below (l : List (Nat × α)) {lo k : Nat} (hl : sparseWfFrom d lo l = true)
    (h : k < lo) : sparseGet d l k = d := by
  induction l generalizing lo with
  | nil => rfl
  | cons p l ih =>
    obtain ⟨k', v⟩ := p
    simp only [sparseWfFrom, Bool.and_eq_true, decide_eq_true_eq] at hl
    have : k ≠ k' := by omega
    simp only [sparseGet, this, if_false]
    exact ih hl.2 (by omega)

/-- The position written reads back. -/
theorem sparseGet_set_same (l : List (Nat × α)) {lo : Nat} (hl : sparseWfFrom d lo l = true)
    (k : Nat) (v : α) : sparseGet d (sparseSet d l k v) k = v := by
  induction l generalizing lo with
  | nil => by_cases hv : v = d <;> simp [sparseSet, sparseGet, hv]
  | cons p l ih =>
    obtain ⟨k', v'⟩ := p
    simp only [sparseWfFrom, Bool.and_eq_true, decide_eq_true_eq] at hl
    by_cases hlt : k < k'
    · by_cases hv : v = d
      · have hne : k ≠ k' := by omega
        simp only [sparseSet, hlt, hv, if_true, sparseGet, hne, if_false]
        exact sparseGet_below d l hl.2 (by omega)
      · simp [sparseSet, hlt, hv, sparseGet]
    · by_cases he : k = k'
      · by_cases hv : v = d
        · subst he
          simp only [sparseSet, hlt, hv, if_true, if_false]
          exact sparseGet_below d l hl.2 (by omega)
        · simp [sparseSet, he, hv, sparseGet]
      · simp only [sparseSet, hlt, he, if_false, sparseGet]
        exact ih hl.2

/-- Every other position is unchanged. -/
theorem sparseGet_set_other (l : List (Nat × α)) (k k2 : Nat) (v : α) (h : k2 ≠ k) :
    sparseGet d (sparseSet d l k v) k2 = sparseGet d l k2 := by
  induction l with
  | nil => by_cases hv : v = d <;> simp [sparseSet, sparseGet, hv, h]
  | cons p l ih =>
    obtain ⟨k', v'⟩ := p
    by_cases hlt : k < k'
    · by_cases hv : v = d <;> simp [sparseSet, hlt, hv, sparseGet, h]
    · by_cases he : k = k'
      · subst he
        by_cases hv : v = d <;> simp [sparseSet, hv, sparseGet, h]
      · simp only [sparseSet, hlt, he, if_false, sparseGet, ih]

/-- A write keeps the form. -/
theorem sparseSet_wfFrom (l : List (Nat × α)) {lo : Nat} (hl : sparseWfFrom d lo l = true)
    (k : Nat) (v : α) (hk : lo ≤ k) : sparseWfFrom d lo (sparseSet d l k v) = true := by
  induction l generalizing lo with
  | nil => by_cases hv : v = d <;> simp [sparseSet, sparseWfFrom, hv, hk]
  | cons p l ih =>
    obtain ⟨k', v'⟩ := p
    have hl' := hl
    simp only [sparseWfFrom, Bool.and_eq_true, decide_eq_true_eq] at hl'
    by_cases hlt : k < k'
    · by_cases hv : v = d
      · simpa [sparseSet, hlt, hv] using hl
      · simp only [sparseSet, hlt, hv, if_true, if_false]
        simp [sparseWfFrom, hk, hv, hl'.1.2, hl'.2, show k + 1 ≤ k' by omega]
    · by_cases he : k = k'
      · subst he
        by_cases hv : v = d
        · simpa [sparseSet, hv] using sparseWfFrom_mono d l (by omega) hl'.2
        · simp [sparseSet, hv, sparseWfFrom, hk, hl'.2]
      · simp only [sparseSet, hlt, he, if_false]
        simp [sparseWfFrom, hl'.1.1, hl'.1.2, ih hl'.2 (by omega)]

theorem sparseSet_wf (l : List (Nat × α)) (hl : sparseWf d l = true) (k : Nat) (v : α) :
    sparseWf d (sparseSet d l k v) = true :=
  sparseSet_wfFrom d l hl k v (Nat.zero_le k)

/-- Erasing a range keeps the form. -/
theorem sparseErase_wfFrom (a z : Nat) (l : List (Nat × α)) {lo : Nat}
    (hl : sparseWfFrom d lo l = true) : sparseWfFrom d lo (sparseErase a z l) = true := by
  induction l generalizing lo with
  | nil => rfl
  | cons p l ih =>
    obtain ⟨k, v⟩ := p
    simp only [sparseWfFrom, Bool.and_eq_true, decide_eq_true_eq] at hl
    have hrest := ih hl.2
    unfold sparseErase at hrest ⊢
    rw [List.filter_cons]
    split
    · simp only [sparseWfFrom, Bool.and_eq_true, decide_eq_true_eq]
      exact ⟨hl.1, hrest⟩
    · exact sparseWfFrom_mono d _ (by omega) hrest

theorem sparseErase_wf (a z : Nat) (l : List (Nat × α)) (hl : sparseWf d l = true) :
    sparseWf d (sparseErase a z l) = true :=
  sparseErase_wfFrom d a z l hl

omit [DecidableEq α] in
/-- What an erased range and the rest read after it. -/
theorem sparseGet_erase (a z : Nat) (l : List (Nat × α)) (k : Nat) :
    sparseGet d (sparseErase a z l) k = if a ≤ k ∧ k < z then d else sparseGet d l k := by
  induction l with
  | nil => simp [sparseErase, sparseGet]
  | cons p l ih =>
    obtain ⟨k', v⟩ := p
    unfold sparseErase at ih ⊢
    rw [List.filter_cons]
    by_cases hin : a ≤ k' ∧ k' < z
    · have hf : (!(decide (a ≤ k') && decide (k' < z))) = false := by simp [hin]
      simp only [hf, Bool.false_eq_true, if_false, ih, sparseGet]
      by_cases he : k = k'
      · subst he; simp [hin]
      · simp [he]
    · have hf : (!(decide (a ≤ k') && decide (k' < z))) = true := by
        simp only [Bool.not_eq_true', Bool.and_eq_false_iff, decide_eq_false_iff_not]
        omega
      simp only [hf, if_true, sparseGet, ih]
      by_cases he : k = k'
      · subst he; simp [hin]
      · simp [he]

end Sparse

/-! ### The two sparse buffers of the block -/

/-- Reset memory has the canonical form. -/
theorem reset_memory_wf : Memory.wf State.reset.block = true := rfl

/-- A write of a module keeps the form. -/
theorem matSet_memory_wf (b : Block) (y x : Nat) (v : Bool) (h : Memory.wf b = true) :
    Memory.wf (b.matSet y x v) = true := by
  simp only [Memory.wf, Bool.and_eq_true, matSet_mat, matSet_tbl] at h ⊢
  exact ⟨sparseSet_wf _ _ h.1 _ _, h.2⟩

/-- A write of a table entry keeps the form. -/
theorem tblSet_memory_wf (b : Block) (k : Mode) (c : Nat) (e : Entry) (h : Memory.wf b = true) :
    Memory.wf (b.tblSet k c e) = true := by
  simp only [Memory.wf, Bool.and_eq_true, tblSet_mat, tblSet_tbl] at h ⊢
  exact ⟨h.1, sparseSet_wf _ _ h.2 _ _⟩

/-- Clearing a mode's table keeps the form. -/
theorem modew_memory_wf (b : Block) (w : Vector (BitVec 4) 8) (a z : Nat)
    (h : Memory.wf b = true) :
    Memory.wf { b with modew := w, tbl := sparseErase a z b.tbl } = true := by
  simp only [Memory.wf, Bool.and_eq_true] at h ⊢
  exact ⟨h.1, sparseErase_wf _ _ _ _ h.2⟩

/-- A new matrix has the form. -/
theorem matdim_memory_wf (b : Block) (r c : Nat) (h : Memory.wf b = true) :
    Memory.wf { b with mrows := r, mcols := c, mat := [] } = true := by
  simp only [Memory.wf, Bool.and_eq_true] at h ⊢
  exact ⟨rfl, h.2⟩

/-- Placing bits along a path keeps the form. -/
theorem place_memory_wf (b : Block) (cs : List Coord) (vs : List Bool) (h : Memory.wf b = true) :
    Memory.wf (b.place cs vs) = true := by
  induction cs generalizing b vs with
  | nil => cases vs <;> exact h
  | cons c cs ih =>
    cases vs with
    | nil => exact h
    | cons v vs => exact ih _ _ (matSet_memory_wf b c.y c.x v h)

/-- Positions in MAT tell modules apart. -/
theorem matKey_inj {cols y x y' x' : Nat} (hx : x < cols) (hx' : x' < cols) :
    matKey cols y x = matKey cols y' x' ↔ y = y' ∧ x = x' := by
  constructor
  · intro h
    unfold matKey at h
    have hy : y = y' := by
      have h' := congrArg (· / cols) h
      have hc : 0 < cols := by omega
      simpa [Nat.mul_comm _ cols, Nat.mul_add_div hc, Nat.div_eq_of_lt hx, Nat.div_eq_of_lt hx']
        using h'
    subst hy
    exact ⟨rfl, by omega⟩
  · rintro ⟨rfl, rfl⟩
    rfl

/-- Positions in TBL tell entries apart. -/
theorem tblKey_inj {k k' : Mode} {c c' : Nat} (h : c < 256) (h' : c' < 256) :
    tblKey k c = tblKey k' c' ↔ k = k' ∧ c = c' := by
  simp only [tblKey, Fin.ext_iff]
  omega

/-- The module written reads back. -/
theorem matGet_matSet_same (b : Block) (y x : Nat) (v : Bool) (h : Memory.wf b = true) :
    (b.matSet y x v).matGet y x = v := by
  simp only [Memory.wf, Bool.and_eq_true] at h
  exact sparseGet_set_same _ _ h.1 _ _

/-- Every other module is unchanged. -/
theorem matGet_matSet_other (b : Block) {y x y' x' : Nat} (v : Bool) (hx : x < b.mcols)
    (hx' : x' < b.mcols) (h : ¬(y' = y ∧ x' = x)) :
    (b.matSet y x v).matGet y' x' = b.matGet y' x' :=
  sparseGet_set_other _ _ _ _ _ fun e => h ((matKey_inj hx' hx).1 e)

/-- The entry written reads back. -/
theorem tblGet_tblSet_same (b : Block) (k : Mode) (c : Nat) (e : Entry) (h : Memory.wf b = true) :
    (b.tblSet k c e).tblGet k c = e := by
  simp only [Memory.wf, Bool.and_eq_true] at h
  exact sparseGet_set_same _ _ h.2 _ _

/-- Every other entry is unchanged. -/
theorem tblGet_tblSet_other (b : Block) {k k' : Mode} {c c' : Nat} (e : Entry) (hc : c < 256)
    (hc' : c' < 256) (h : ¬(k' = k ∧ c' = c)) :
    (b.tblSet k c e).tblGet k' c' = b.tblGet k' c' :=
  sparseGet_set_other _ _ _ _ _ fun e' => h ((tblKey_inj hc' hc).1 e')

end Sys2Proof.Machine
end

