-- ==== Sys2Proof/Laws/Exec.lean ====
section
/-! SUPPORT. Everything `exec` can do, said once: each command is its own rule (`effect`) under the
common steps of 60_exceptions.md rule R295, so that later proofs split on `effect` and never unfold
`exec`. -/

namespace Sys2Proof.Machine

/-- The rule of each command over the block, for the parameters p, less the common steps. -/
def effect (p : Params) : Instr → Block → Result
  | .nop => fun b => .done b 0
  | .ldi rd imm => fun b => .done (b.setReg rd (imm.setWidth 32)) 0
  | .ldih rd imm => fun b => .done (b.setReg rd (imm ++ (b.reg rd).setWidth 16)) 0
  | .getr rs => fun b => .done b (b.reg rs)
  | .csrr rd csr => fun b => .done (b.setReg rd (csrRead b csr)) 0
  | .csrw rs csr => fun b => csrWrite csr (b.reg rs) b
  | .clrerr => fun b => .done b.clearFault 0
  | .srst => fun _ => .done Block.reset 0
  | .bclr => fun b => .done { b with bitbuf := [], rdpos := 0 } 0
  | .brwd => fun b => .done { b with rdpos := 0 } 0
  | .rdbits rd n => rdbits rd n
  | .apbits rs n => apbits p rs n
  | .avail rd => fun b => .done (b.setRegNat rd b.available) 0
  | .bitoff rd => fun b => .done (b.setRegNat rd b.rdpos) 0
  | .rsenc re => rsenc p re
  | .rsdec rd re => rsdec p rd re
  | .cwclr => fun b => .done { b with cwbuf := [] } 0
  | .cwap rs => cwap p rs
  | .cwrd rd ri => cwrd rd ri
  | .cwwr ri rs => cwwr ri rs
  | .cwtrunc rn => cwtrunc rn
  | .matdim ry rx => matdim p ry rx
  | .matwr ry rx rv => matwr ry rx rv
  | .matrd rd ry rx => matrd rd ry rx
  | .pathclr => fun b => .done { b with path := [] } 0
  | .pathap ry rx => pathap p ry rx
  | .maprd => maprd p
  | .mapwr => mapwr
  | .cwpack rn => cwpack p rn
  | .cwunpk => cwunpk p
  | .stuff => stuff p
  | .unstuff => unstuff p
  | .modew mode w => modew mode w
  | .tblwr ri re => tblwr ri re
  | .tblrd rd ri => tblrd rd ri
  | .chclr => fun b => .done { b with chbuf := [] } 0
  | .chap rs => chap p rs
  | .chrd rd ri => chrd rd ri
  | .txdec => txdec p
  | .txenc => txenc p

/-- Every command is its rule under the common steps. -/
theorem exec_eq (i : Instr) (s : State) :
    exec i s = if inFaultStop i = true then commandAnytime s (effect s.params i) else command s (effect s.params i) := by
  cases i <;> rfl

/-- The four commands of the fault stop run their rule in either state of STATUS.FAULT. -/
theorem exec_anytime {i : Instr} (h : inFaultStop i = true) (s : State) :
    exec i s = .next (finish (effect s.params i s.block) s) := by
  rw [exec_eq, if_pos h, commandAnytime]

/-- With STATUS.FAULT = 0 every command runs its rule. -/
theorem exec_unfaulted (i : Instr) {s : State} (h : s.block.fault = false) :
    exec i s = .next (finish (effect s.params i s.block) s) := by
  rw [exec_eq]
  split
  · rfl
  · simp [command, h]

/-- With STATUS.FAULT = 1 every command but the four is refused. -/
theorem exec_refused {i : Instr} (hi : inFaultStop i = false) {s : State}
    (h : s.block.fault = true) : exec i s = .next (refuse s) := by
  rw [exec_eq]
  simp [hi, command, h]

/-- The four commands of the fault stop never raise. -/
theorem effect_anytime {i : Instr} (h : inFaultStop i = true) (p : Params) (b : Block) :
    ∃ b' d, effect p i b = .done b' d := by
  cases i <;> first | exact ⟨_, _, rfl⟩ | simp [inFaultStop] at h

/-- Everything an answer of `exec` can be: refused in the fault stop, or the command's rule done, or
its fault taken with no fault recorded before. -/
theorem exec_cases (i : Instr) (s : State) :
    (s.block.fault = true ∧ inFaultStop i = false ∧ exec i s = .next (refuse s)) ∨
    (∃ b d, effect s.params i s.block = .done b d ∧ (s.block.fault = false ∨ inFaultStop i = true) ∧
      exec i s = .next (complete b d s)) ∨
    (∃ c v, effect s.params i s.block = .raise c v ∧ s.block.fault = false ∧
      exec i s = .next (takeFault c v s)) := by
  cases hf : s.block.fault with
  | true =>
    cases hi : inFaultStop i with
    | false => exact .inl ⟨rfl, rfl, exec_refused hi hf⟩
    | true =>
      obtain ⟨b, d, h⟩ := effect_anytime hi s.params s.block
      exact .inr (.inl ⟨b, d, h, .inr rfl, by rw [exec_anytime hi, h]; rfl⟩)
  | false =>
    cases h : effect s.params i s.block with
    | done b d => exact .inr (.inl ⟨b, d, rfl, .inl rfl, by rw [exec_unfaulted i hf, h]; rfl⟩)
    | raise c v => exact .inr (.inr ⟨c, v, rfl, rfl, by rw [exec_unfaulted i hf, h]; rfl⟩)

/-- A word that is no command is refused in the fault stop and faults outside it. -/
theorem illegalWord_cases (e : DecodeError) (s : State) :
    (s.block.fault = true ∧ illegalWord e s = .next (refuse s)) ∨
    (s.block.fault = false ∧ illegalWord e s = .next (takeFault (decodeFault e) 0 s)) := by
  cases hf : s.block.fault <;> simp [illegalWord, command, hf]

/-- A fault code is neither OK nor REFUSED (60_exceptions.md rule R292). -/
theorem code_ne (c : FaultCode) : c.code ≠ 0 ∧ c.code ≠ 0xFF := by
  cases c <;> decide

end Sys2Proof.Machine
end

