-- ==== Sys2Proof/Laws/PerInstr.lean ====
section
/-! SUPPORT. One statement per command, about the command as syntax: the op field of its encoded word
is its opcode (30_encoding.md rules R93 and R96). -/

namespace Sys2Proof.Laws

/-- Operand fields stay below bit 24, the op field (rule R94). -/
theorem operands_lt (i : Instr) : i.operands < 2 ^ 24 := by
  cases i <;> simp only [Instr.operands] <;> try omega
  all_goals
    rename_i c
    cases c <;> simp only [Csr.number] <;> omega

/-- Every opcode is below 2^8. -/
theorem opcode_lt (i : Instr) : i.opcode < 2 ^ 8 := by
  cases i <;> simp [Instr.opcode]

/-- The word of a command as a number (rule R103). -/
theorem encode_toNat (i : Instr) : (encode i).toNat = i.opcode * 2 ^ 24 + i.operands := by
  have h1 := operands_lt i
  have h2 := opcode_lt i
  rw [encode, BitVec.toNat_ofNat]
  omega

theorem opcodeOf_encode (i : Instr) : opcodeOf (encode i) = i.opcode := by
  have h1 := operands_lt i
  have h2 := opcode_lt i
  rw [opcodeOf, bits, encode_toNat]
  omega

end Sys2Proof.Laws

namespace Sys2Proof.Laws.OpField

/-- The op field of the encoded word is the command's opcode. -/
def Statement (i : Instr) : Prop := opcodeOf (encode i) = i.opcode

theorem nop : Statement .nop := opcodeOf_encode _
theorem ldi (rd : Reg) (imm16 : BitVec 16) : Statement (.ldi rd imm16) := opcodeOf_encode _
theorem ldih (rd : Reg) (imm16 : BitVec 16) : Statement (.ldih rd imm16) := opcodeOf_encode _
theorem getr (rs : Reg) : Statement (.getr rs) := opcodeOf_encode _
theorem csrr (rd : Reg) (csr : Csr) : Statement (.csrr rd csr) := opcodeOf_encode _
theorem csrw (rs : Reg) (csr : Csr) : Statement (.csrw rs csr) := opcodeOf_encode _
theorem clrerr : Statement .clrerr := opcodeOf_encode _
theorem srst : Statement .srst := opcodeOf_encode _
theorem bclr : Statement .bclr := opcodeOf_encode _
theorem brwd : Statement .brwd := opcodeOf_encode _
theorem rdbits (rd : Reg) (n : BitVec 6) : Statement (.rdbits rd n) := opcodeOf_encode _
theorem apbits (rs : Reg) (n : BitVec 6) : Statement (.apbits rs n) := opcodeOf_encode _
theorem avail (rd : Reg) : Statement (.avail rd) := opcodeOf_encode _
theorem bitoff (rd : Reg) : Statement (.bitoff rd) := opcodeOf_encode _
theorem rsenc (re : Reg) : Statement (.rsenc re) := opcodeOf_encode _
theorem rsdec (rd re : Reg) : Statement (.rsdec rd re) := opcodeOf_encode _
theorem cwclr : Statement .cwclr := opcodeOf_encode _
theorem cwap (rs : Reg) : Statement (.cwap rs) := opcodeOf_encode _
theorem cwrd (rd ri : Reg) : Statement (.cwrd rd ri) := opcodeOf_encode _
theorem cwwr (ri rs : Reg) : Statement (.cwwr ri rs) := opcodeOf_encode _
theorem cwtrunc (rn : Reg) : Statement (.cwtrunc rn) := opcodeOf_encode _
theorem matdim (ry rx : Reg) : Statement (.matdim ry rx) := opcodeOf_encode _
theorem matwr (ry rx rv : Reg) : Statement (.matwr ry rx rv) := opcodeOf_encode _
theorem matrd (rd ry rx : Reg) : Statement (.matrd rd ry rx) := opcodeOf_encode _
theorem pathclr : Statement .pathclr := opcodeOf_encode _
theorem pathap (ry rx : Reg) : Statement (.pathap ry rx) := opcodeOf_encode _
theorem maprd : Statement .maprd := opcodeOf_encode _
theorem mapwr : Statement .mapwr := opcodeOf_encode _
theorem cwpack (rn : Reg) : Statement (.cwpack rn) := opcodeOf_encode _
theorem cwunpk : Statement .cwunpk := opcodeOf_encode _
theorem stuff : Statement .stuff := opcodeOf_encode _
theorem unstuff : Statement .unstuff := opcodeOf_encode _
theorem modew (mode : Mode) (w : BitVec 4) : Statement (.modew mode w) := opcodeOf_encode _
theorem tblwr (ri re : Reg) : Statement (.tblwr ri re) := opcodeOf_encode _
theorem tblrd (rd ri : Reg) : Statement (.tblrd rd ri) := opcodeOf_encode _
theorem chclr : Statement .chclr := opcodeOf_encode _
theorem chap (rs : Reg) : Statement (.chap rs) := opcodeOf_encode _
theorem chrd (rd ri : Reg) : Statement (.chrd rd ri) := opcodeOf_encode _
theorem txdec : Statement .txdec := opcodeOf_encode _
theorem txenc : Statement .txenc := opcodeOf_encode _

end Sys2Proof.Laws.OpField
end

