-- ==== Sys2Proof/Tests/Slice0.lean ====
section
/-! SUPPORT. Tests of this model: terms WellFormed refuses, one word of every command written from
30_encoding.md rules R93 to R96, single steps whose results are the worked numbers of spec/ (examples
of the rules, vectors of 95_test_vectors.md), and, for every statement with hypotheses, a concrete
state and operands that meet them. -/

namespace Sys2Proof.Tests

open Sys2Proof.Machine

/-! ### Ill-formed terms (30_encoding.md rule R98) -/

theorem test_wf_bit_counts :
    (Instr.rdbits 2 0).wf = false ∧ (Instr.rdbits 2 33).wf = false ∧ (Instr.apbits 2 0).wf = false ∧
      (Instr.apbits 2 33).wf = false ∧ (Instr.rdbits 2 1).wf = true ∧ (Instr.apbits 2 32).wf = true := by
  decide

theorem test_wf_code_widths :
    (Instr.modew 1 0).wf = false ∧ (Instr.modew 1 9).wf = false ∧ (Instr.modew 1 1).wf = true ∧
      (Instr.modew 1 8).wf = true := by
  decide

theorem test_wf_csrw_targets :
    (∀ c ∈ ([.id, .status, .errcode, .errcmd, .errinfo, .bitlen, .rdpos, .cwlen, .mrows, .mcols,
        .pathlen, .chlen, .modew 0, .modew 7] : List Csr), (Instr.csrw 1 c).wf = false) ∧
      (Instr.csrw 1 .rscfg).wf = true ∧ (Instr.csrw 1 .bincfg).wf = true ∧
      (Instr.csrw 1 .txcfg).wf = true := by
  decide

/-! ### Words, one for every command

op·2^24 + a·2^21 + b·2^18 + c·2^15 + the low field, most of them printed in spec/. -/

theorem test_decode_nop : decode 0x00000000 = .ok .nop := by decide
theorem test_decode_ldi : decode 0x012002B5 = .ok (.ldi 1 0x2B5) := by decide
theorem test_decode_ldih : decode 0x0240FFFF = .ok (.ldih 2 0xFFFF) := by decide
theorem test_decode_getr : decode 0x03600000 = .ok (.getr 3) := by decide
theorem test_decode_csrr : decode 0x04600012 = .ok (.csrr 3 .cwlen) := by decide
theorem test_decode_csrw : decode 0x05400009 = .ok (.csrw 2 .bincfg) := by decide
theorem test_decode_clrerr : decode 0x06000000 = .ok .clrerr := by decide
theorem test_decode_srst : decode 0x07000000 = .ok .srst := by decide
theorem test_decode_bclr : decode 0x10000000 = .ok .bclr := by decide
theorem test_decode_brwd : decode 0x11000000 = .ok .brwd := by decide
theorem test_decode_rdbits : decode 0x12A00007 = .ok (.rdbits 5 7) := by decide
theorem test_decode_apbits : decode 0x1320000A = .ok (.apbits 1 10) := by decide
theorem test_decode_avail : decode 0x14600000 = .ok (.avail 3) := by decide
theorem test_decode_bitoff : decode 0x15C00000 = .ok (.bitoff 6) := by decide
theorem test_decode_rsenc : decode 0x20400000 = .ok (.rsenc 2) := by decide
theorem test_decode_rsdec : decode 0x21C80000 = .ok (.rsdec 6 2) := by decide
theorem test_decode_cwclr : decode 0x28000000 = .ok .cwclr := by decide
theorem test_decode_cwap : decode 0x29200000 = .ok (.cwap 1) := by decide
theorem test_decode_cwrd : decode 0x2AF00000 = .ok (.cwrd 7 4) := by decide
theorem test_decode_cwwr : decode 0x2B940000 = .ok (.cwwr 4 5) := by decide
theorem test_decode_cwtrunc : decode 0x2C400000 = .ok (.cwtrunc 2) := by decide
theorem test_decode_matdim : decode 0x304C0000 = .ok (.matdim 2 3) := by decide
theorem test_decode_matwr : decode 0x31298000 = .ok (.matwr 1 2 3) := by decide
theorem test_decode_matrd : decode 0x32A18000 = .ok (.matrd 5 0 3) := by decide
theorem test_decode_pathclr : decode 0x33000000 = .ok .pathclr := by decide
theorem test_decode_pathap : decode 0x34240000 = .ok (.pathap 1 1) := by decide
theorem test_decode_maprd : decode 0x35000000 = .ok .maprd := by decide
theorem test_decode_mapwr : decode 0x36000000 = .ok .mapwr := by decide
theorem test_decode_cwpack : decode 0x37600000 = .ok (.cwpack 3) := by decide
theorem test_decode_cwunpk : decode 0x38000000 = .ok .cwunpk := by decide
theorem test_decode_stuff : decode 0x39000000 = .ok .stuff := by decide
theorem test_decode_unstuff : decode 0x3A000000 = .ok .unstuff := by decide
theorem test_decode_modew : decode 0x40200002 = .ok (.modew 1 2) := by decide
theorem test_decode_tblwr : decode 0x41280000 = .ok (.tblwr 1 2) := by decide
theorem test_decode_tblrd : decode 0x42640000 = .ok (.tblrd 3 1) := by decide
theorem test_decode_chclr : decode 0x43000000 = .ok .chclr := by decide
theorem test_decode_chap : decode 0x44200000 = .ok (.chap 1) := by decide
theorem test_decode_chrd : decode 0x45340000 = .ok (.chrd 1 5) := by decide
theorem test_decode_txdec : decode 0x46000000 = .ok .txdec := by decide
theorem test_decode_txenc : decode 0x47000000 = .ok .txenc := by decide

/-- The illegal words of V-SYS7. -/
theorem test_decode_refuses :
    [0x08000000, 0xFFFFFFFF].map decode = [.error .opcode, .error .opcode] ∧
      [0x03610000, 0x04000005, 0x05200000, 0x12400000, 0x12400021, 0x40000000, 0x40000009].map decode =
        List.replicate 7 (.error .field) := by
  decide

/-! ### A small machine -/

/-- Bits written as 0 and 1, the first bit first. -/
def asBits (l : List Nat) : List Bool := l.map fun n => n == 1

/-- The table T1 of 95_test_vectors.md section 2. -/
def t1 : List (Nat × Entry) :=
  [(0, .shift 2), (1, .char 0x20), (2, .char 0x41), (3, .char 0x42), (4, .latch 1), (6, .pad),
    (7, .binary),
    (256, .char 0x30), (257, .char 0x31), (258, .latch 0), (259, .shift 0),
    (512, .char 0x21), (513, .char 0x3F), (514, .fnc1), (515, .shift 1)]

/-- A block with T1 loaded, six unread bits, three codewords, a 2 × 3 matrix with module (0, 0) set, the
path of V-MP3, and the text "A0B!A". -/
def demo : Block :=
  { Block.reset with
    bincfg := 0x00030302
    bitbuf := asBits [1, 0, 1, 1, 0, 1]
    cwbuf := [9, 17, 42]
    mrows := 2
    mcols := 3
    mat := [(0, true)]
    path := [⟨0, 0⟩, ⟨1, 0⟩, ⟨1, 1⟩, ⟨0, 1⟩, ⟨0, 2⟩, ⟨1, 2⟩]
    chbuf := [0x041, 0x030, 0x042, 0x021, 0x041]
    modew := #v[3, 2, 2, 0, 0, 0, 0, 0]
    tbl := t1 }

/-- The block with values in some registers. -/
def withRegs (b : Block) (l : List (Reg × Word)) : Block := l.foldl (fun b p => b.setReg p.1 p.2) b

/-- A block with one word on the port, and the default parameters. -/
def at' (b : Block) (w : Word) : State := ⟨b, ⟨0, [w], none⟩, Config.hw⟩

/-- One step from s: what `f` sees of the block after, the response status and its data. -/
def afterStep {α : Type} (s : State) (f : Block → α) : Option (α × Byte × Word) :=
  match step s with
  | .next t => t.port.resp.map fun r => (f t.block, r.status, r.data)
  | .fault _ => none
  | .refused _ => none

/-- One step from the block b on the word w, with the default parameters. -/
def after {α : Type} (b : Block) (w : Word) (f : Block → α) : Option (α × Byte × Word) :=
  afterStep (at' b w) f

/-! ### Single steps: system (V-SYS1 to V-SYS8, program P1) -/

theorem test_step_nop : after demo 0x00000000 id = some (demo, 0x00, 0) := by decide

theorem test_step_ldi : after (withRegs demo [(1, 0x1234FFFF)]) 0x01200007 (·.reg 1) =
    some (0x00000007, 0x00, 0) := by decide

theorem test_step_ldih : after (withRegs demo [(1, 0xFFFF)]) 0x02201234 (·.reg 1) =
    some (0x1234FFFF, 0x00, 0) := by decide

theorem test_step_getr : after (withRegs demo [(1, 0x1234FFFF)]) 0x03200000 (·.fault) =
    some (false, 0x00, 0x1234FFFF) := by decide

theorem test_step_csrr : after Block.reset 0x04400000 (·.reg 2) = some (0x41525A01, 0x00, 0) := by decide

theorem test_step_csrr_cwlen : after demo 0x04600012 (·.reg 3) = some (3, 0x00, 0) := by decide

/-- V-SYS4: LENBIAS 5 > 2^2 is refused, LENBIAS 4 is written. -/
theorem test_step_csrw_bincfg :
    after (withRegs demo [(2, 0x00050002)]) 0x05400009 (fun b => (b.bincfg, b.errinfo)) =
      some ((0x00030302, 0x00050002), 0x45, 0) ∧
    after (withRegs demo [(2, 0x00040002)]) 0x05400009 (·.bincfg) = some (0x00040002, 0x00, 0) := by
  decide

/-- V-SYS3: RSCFG with a codeword in the buffer. -/
theorem test_step_csrw_rscfg :
    after (withRegs { Block.reset with cwbuf := [1], fsel := 3 } [(3, 1)]) 0x05600008
      (fun b => (b.fsel, b.errcode, b.errcmd, b.errinfo)) =
        some ((3, 0x41, 0x05600008, 1), 0x41, 0) := by decide

/-- The block demo after a failed RDBITS (rule R296). -/
def stopped : Block :=
  { demo with fault := true, errcode := 0x10, errcmd := 0x12400001, errinfo := 2 }

theorem test_step_clrerr : after stopped 0x06000000 id = some (demo, 0x00, 0) := by decide

theorem test_step_srst : after stopped 0x07000000 id = some (Block.reset, 0x00, 0) := by decide

/-- V-SYS8: what the fault stop refuses, and what it lets through. -/
theorem test_step_fault_stop :
    [0x01200009, 0x29200000, 0x12400001, 0x08000000, 0x03610000, 0x04000005, 0x05200008].map
      (fun w => after stopped w id) = List.replicate 7 (some (stopped, 0xFF, 0)) ∧
    after stopped 0x04600003 (·.reg 3) = some (0x12400001, 0x00, 0) := by
  decide

/-! ### Single steps: bit unit (V-BS1 to V-BS4) -/

theorem test_step_bclr : after { demo with rdpos := 2 } 0x10000000 (fun b => (b.bitbuf, b.rdpos)) =
    some (([], 0), 0x00, 0) := by decide

theorem test_step_brwd : after { demo with rdpos := 2 } 0x11000000 (fun b => (b.bitlen, b.rdpos)) =
    some ((6, 0), 0x00, 0) := by decide

/-- The bits of V-BS1. -/
def bs1 : Block := { Block.reset with bitbuf := asBits [1, 0, 1, 0, 1, 1, 0, 1, 0, 1, 1, 1, 1] }

theorem test_step_rdbits :
    after { bs1 with rdpos := 4 } 0x12A00007 (fun b => (b.reg 5, b.rdpos)) =
      some ((0x6B, 11), 0x00, 0) := by decide

theorem test_step_rdbits_short :
    after { bs1 with rdpos := 11 } 0x12E00003
      (fun b => (b.reg 7, b.rdpos, b.errcode, b.errinfo, b.errcmd)) =
        some ((0, 11, 0x10, 2, 0x12E00003), 0x10, 0) := by decide

theorem test_step_apbits :
    after (withRegs Block.reset [(1, 0x2B5)]) 0x1320000A (·.bitbuf) =
      some (asBits [1, 0, 1, 0, 1, 1, 0, 1, 0, 1], 0x00, 0) := by decide

/-- V-BS2: 31 bits of 0x80000001 are thirty zeros and a one. -/
theorem test_step_apbits_ignores_high_bits :
    after (withRegs Block.reset [(1, 0x80000001)]) 0x1320001F (·.bitbuf) =
      some (List.replicate 30 false ++ [true], 0x00, 0) := by decide

theorem test_step_avail : after { bs1 with rdpos := 11 } 0x14600000 (·.reg 3) = some (2, 0x00, 0) := by
  decide

theorem test_step_bitoff : after { bs1 with rdpos := 11 } 0x15C00000 (·.reg 6) =
    some (11, 0x00, 0) := by decide

/-! ### The fields (V-GF2, V-GF3, V-GF4) -/

theorem test_gfMul :
    gfMul (Config.hw.field 0) 63 63 = 42 ∧ gfMul (Config.hw.field 1) 255 255 = 52 ∧
      gfMul (Config.hw.field 2) 1023 1023 = 698 ∧ gfMul (Config.hw.field 3) 4095 4095 = 349 := by
  decide

theorem test_gfInv :
    gfInv (Config.hw.field 0) 63 = 32 ∧ gfInv (Config.hw.field 1) 255 = 156 ∧
      gfInv (Config.hw.field 2) 1023 = 387 ∧ gfInv (Config.hw.field 3) 4095 = 2429 := by
  decide +kernel

theorem test_genPoly :
    genPoly (Config.hw.field 1) 5 = [1, 62, 111, 15, 48, 228] ∧
      genPoly (Config.hw.field 3) 4 = [1, 30, 216, 960, 1024] := by
  decide

/-! ### Single steps: Reed-Solomon unit (V-RS1 to V-RS9) -/

theorem test_step_rsenc :
    after (withRegs demo [(2, 4)]) 0x20400000 (·.cws) =
      some ([9, 17, 42, 37, 10, 16, 49], 0x00, 0) ∧
    after (withRegs { Block.reset with fsel := 3, cwbuf := [4095, 1, 2048, 77] } [(2, 4)]) 0x20400000
      (·.cws) = some ([4095, 1, 2048, 77, 136, 441, 3136, 1027], 0x00, 0) := by decide +kernel

/-- Other parameters: x^6 + x^5 + 1, GENBASE 0 (g_4 is 1, 15, 54, 25, 33; the parity computed by hand
from rules R161, R167 and R168), and CWCAP 7, which a fifth codeword of parity would pass (rule R176). -/
theorem test_step_rsenc_other_parameters :
    let p : Params := { Config.hw with prim6 := 0x61, genBase := 0, cwCap := 7 }
    afterStep { at' (withRegs demo [(2, 4)]) 0x20400000 with params := p } (·.cws) =
      some ([9, 17, 42, 1, 12, 57, 6], 0x00, 0) ∧
    afterStep { at' (withRegs demo [(2, 5)]) 0x20400000 with params := p } (·.errinfo) =
      some (3, 0x61, 0) := by decide

theorem test_step_rsdec :
    after (withRegs { demo with cwbuf := [9, 63, 42, 37, 10, 0, 49] } [(2, 4)]) 0x21C80000
      (fun b => (b.cws, b.reg 6)) = some (([9, 17, 42, 37, 10, 16, 49], 2), 0x00, 0) := by
  decide +kernel

/-- V-RS3: three changes, no word within reach; the buffer and r6 keep their values. -/
theorem test_step_rsdec_uncorrectable :
    after (withRegs { demo with cwbuf := [8, 17, 43, 37, 10, 16, 1] } [(2, 4), (6, 2)]) 0x21C80000
      (fun b => (b.cws, b.reg 6, b.errinfo)) =
        some (([8, 17, 43, 37, 10, 16, 1], 2, 0), 0x30, 0) := by decide +kernel

theorem test_step_cwclr : after demo 0x28000000 (·.cwbuf) = some ([], 0x00, 0) := by decide

/-- V-RS8: 100 is no 6-bit codeword. -/
theorem test_step_cwap :
    after (withRegs demo [(1, 63)]) 0x29200000 (·.cws) = some ([9, 17, 42, 63], 0x00, 0) ∧
    after (withRegs demo [(1, 100)]) 0x29200000 (fun b => (b.cws, b.errinfo)) =
      some (([9, 17, 42], 100), 0x40, 0) := by decide

theorem test_step_cwrd :
    after (withRegs demo [(4, 1)]) 0x2AF00000 (·.reg 7) = some (17, 0x00, 0) ∧
    after (withRegs demo [(4, 0xFFFFFFFF)]) 0x2AF00000 (fun b => (b.reg 7, b.errinfo)) =
      some ((0, 0xFFFFFFFF), 0x50, 0) := by decide

/-- V-RS8: the index is checked before the value. -/
theorem test_step_cwwr :
    after (withRegs demo [(4, 1), (5, 63)]) 0x2B940000 (·.cws) = some ([9, 63, 42], 0x00, 0) ∧
    after (withRegs demo [(4, 3), (5, 64)]) 0x2B940000 (·.errinfo) = some (3, 0x50, 0) ∧
    after (withRegs demo [(4, 0), (5, 64)]) 0x2B940000 (·.errinfo) = some (64, 0x40, 0) := by decide

theorem test_step_cwtrunc :
    after (withRegs demo [(2, 3)]) 0x2C400000 (·.cws) = some ([9, 17, 42], 0x00, 0) ∧
    after (withRegs demo [(2, 0)]) 0x2C400000 (·.cws) = some ([], 0x00, 0) ∧
    after (withRegs demo [(2, 4)]) 0x2C400000 (·.errinfo) = some (4, 0x50, 0) := by decide

/-! ### Single steps: mapper (V-MP1 to V-MP4, V-ST1, V-ST2) -/

theorem test_step_matdim :
    after (withRegs demo [(2, 256), (3, 256)]) 0x304C0000
      (fun b => (b.mrows, b.mcols, b.matGet 0 0)) = some ((256, 256, false), 0x00, 0) ∧
    after (withRegs demo [(2, 2), (3, 257)]) 0x304C0000 (fun b => (b.mcols, b.errinfo)) =
      some ((3, 0x101), 0x43, 0) := by decide

/-- V-MP1: bits 31 to 1 of the value are ignored. -/
theorem test_step_matwr :
    after (withRegs { demo with mrows := 256, mcols := 256 } [(1, 255), (2, 255), (3, 0xFFFF)])
      0x31298000 (fun b => (b.matGet 255 255, b.matGet 255 254, b.matGet 0 0)) =
        some ((true, false, true), 0x00, 0) := by decide

/-- Program P4: column 3 of a matrix of three columns. -/
theorem test_step_matrd :
    after demo 0x32A00000 (·.reg 5) = some (1, 0x00, 0) ∧
    after (withRegs demo [(3, 3)]) 0x32A18000 (·.errinfo) = some (3, 0x51, 0) := by decide

theorem test_step_pathclr : after demo 0x33000000 (·.path) = some ([], 0x00, 0) := by decide

/-- V-MP2: (0, 256) is no coordinate; a coordinate outside the present matrix is. -/
theorem test_step_pathap :
    after (withRegs { demo with path := [] } [(1, 255)]) 0x34200000 (·.path) =
      some ([⟨255, 0⟩], 0x00, 0) ∧
    after (withRegs demo [(1, 256)]) 0x34040000 (·.errinfo) = some (0x100, 0x52, 0) := by decide

theorem test_step_maprd :
    after { demo with mat := [(0, true), (1, true), (4, true), (5, true)], bitbuf := [] } 0x35000000
      (·.bitbuf) = some (asBits [1, 0, 1, 1, 0, 1], 0x00, 0) := by decide

/-- V-MP3, and the last visit of V-MP2. -/
theorem test_step_mapwr :
    after { demo with mat := [] } 0x36000000 (fun b => (b.mat, b.rdpos)) =
      some (([(0, true), (1, true), (4, true), (5, true)], 6), 0x00, 0) ∧
    after { demo with path := [⟨0, 0⟩, ⟨0, 0⟩] } 0x36000000 (fun b => (b.mat, b.rdpos)) =
      some (([], 2), 0x00, 0) := by decide

/-- The unread bits of V-MP4. -/
def mp4 : List Bool := asBits [0, 0, 1, 0, 0, 1, 0, 1, 0, 0, 0, 1, 1, 0, 1, 0, 1, 0, 1, 1]

/-- V-MP4: three codewords of six bits, then too few. -/
theorem test_step_cwpack :
    after (withRegs { demo with cwbuf := [], bitbuf := mp4 } [(3, 3)]) 0x37600000
      (fun b => (b.cws, b.rdpos)) = some (([9, 17, 42], 18), 0x00, 0) ∧
    after (withRegs { demo with bitbuf := [true, true] } [(3, 1)]) 0x37600000 (·.errinfo) =
      some (2, 0x11, 0) := by decide

theorem test_step_cwunpk :
    after { demo with bitbuf := [] } 0x38000000 (·.bitbuf) =
      some (asBits [0, 0, 1, 0, 0, 1, 0, 1, 0, 0, 0, 1, 1, 0, 1, 0, 1, 0], 0x00, 0) := by decide

/-- The bits of V-ST1 for m = 8. -/
def st1 : List Bool := asBits [1, 1, 1, 1, 1, 1, 1, 1, 0, 0, 0, 0, 0, 0, 0, 0, 1, 0, 1, 0]

/-- V-ST1, m = 6 and m = 8. -/
theorem test_step_stuff :
    after { demo with cwbuf := [], bitbuf := asBits [0, 0, 0, 0, 0, 1, 1, 1, 1, 1, 1, 0] } 0x39000000
      (fun b => (b.cws, b.rdpos)) = some (([1, 62, 47], 12), 0x00, 0) ∧
    after { demo with cwbuf := [], fsel := 1, bitbuf := st1 } 0x39000000 (·.cws) =
      some ([254, 128, 87], 0x00, 0) := by decide

/-- V-ST2, m = 6. -/
theorem test_step_unstuff :
    after { demo with cwbuf := [1, 62, 33], bitbuf := [] } 0x3A000000 (·.bitbuf) =
      some (asBits [0, 0, 0, 0, 0, 1, 1, 1, 1, 1, 1, 0, 0, 0, 0, 1], 0x00, 0) ∧
    after { demo with cwbuf := [33, 5, 63] } 0x3A000000 (·.errinfo) = some (2, 0x20, 0) := by decide

/-! ### Single steps: text unit (V-TB1, V-CH1, V-TX1 to V-TX3) -/

theorem test_step_modew :
    after demo 0x40000002 (fun b => (b.width 0, b.tblGet 0 2, b.tblGet 1 0)) =
      some ((2, .undef, .char 0x30), 0x00, 0) := by decide

theorem test_step_tblwr :
    after (withRegs demo [(1, 0x007), (2, 0x207)]) 0x41280000 (·.tblGet 0 7) =
      some (.latch 7, 0x00, 0) ∧
    after (withRegs demo [(1, 0x008), (2, 0x141)]) 0x41280000 (·.errinfo) = some (8, 0x54, 0) ∧
    after (withRegs demo [(1, 0x007), (2, 0x208)]) 0x41280000 (·.errinfo) = some (0x208, 0x44, 0) := by
  decide

theorem test_step_tblrd :
    after (withRegs demo [(1, 0x002)]) 0x42640000 (·.reg 3) = some (0x141, 0x00, 0) ∧
    after (withRegs demo [(1, 0x300)]) 0x42640000 (·.errinfo) = some (0x300, 0x54, 0) := by decide

theorem test_step_chclr : after demo 0x43000000 (·.chbuf) = some ([], 0x00, 0) := by decide

theorem test_step_chap :
    after (withRegs { demo with chbuf := [] } [(1, 0xFFFF)]) 0x44200000 (·.chbuf) =
      some ([0x3FF], 0x00, 0) := by decide

theorem test_step_chrd :
    after (withRegs demo [(5, 3)]) 0x45340000 (·.reg 1) = some (0x21, 0x00, 0) ∧
    after (withRegs demo [(5, 5)]) 0x45340000 (·.errinfo) = some (5, 0x53, 0) := by decide

/-- The bits of the first example of rule R254. -/
def binaryRun : List Bool :=
  asBits [1, 1, 1, 1, 0, 1, 1, 1, 1, 1, 1, 1, 1, 0, 0, 0, 0, 0, 0, 0, 1, 0, 1, 0]

/-- The trace of rule R253 (a shift inside a shift), the example of rule R254, and rule R252: an
undefined code changes nothing. -/
theorem test_step_txdec_t1 :
    after { demo with bitbuf := asBits [0, 0, 0, 1, 1, 0, 1, 0, 1, 1] } 0x46000000
      (fun b => (b.chbuf, b.rdpos)) = some (([0x031, 0x03F], 9), 0x00, 0) ∧
    after { demo with bitbuf := binaryRun } 0x46000000
      (fun b => (b.chbuf, b.rdpos)) = some (([0x1FF, 0x101, 0x041], 24), 0x00, 0) ∧
    after { demo with bitbuf := asBits [0, 1, 0, 1, 0, 1] } 0x46000000
      (fun b => (b.chbuf, b.rdpos, b.errinfo)) = some ((demo.chbuf, 0, 5), 0x21, 0) := by
  decide

/-- V-TX3 lines 1, 2 and 6: the trailing 254 and FNC1, with the table T2. -/
theorem test_step_txdec_t2 :
    let t2 : Block := { Block.reset with modew := #v[8, 0, 0, 0, 0, 0, 0, 0], tbl :=
      [(0x42, .char 0x41), (0x43, .char 0x42), (0x81, .pad), (0xE8, .fnc1)] }
    let code (l : List Nat) : Block := { t2 with bitbuf := (l.map fun v => natBits v 8).flatten }
    after (code [0x42, 254]) 0x46000000 (fun b => (b.chbuf, b.rdpos)) =
      some (([0x041], 16), 0x00, 0) ∧
    after ((code [0x42, 254]).pushBits [false]) 0x46000000 (·.errinfo) = some (0x0FE, 0x21, 0) ∧
    after (code [0x42, 0xE8, 0x43]) 0x46000000 (·.chbuf) = some ([0x041, 0x21D, 0x042], 0x00, 0) := by
  decide

/-- V-TX2, "0AB1" and "A0B": latch back for two letters, shift for the last one (for "A01B", log 7). -/
theorem test_step_txenc_latch :
    after { demo with bitbuf := [], chbuf := [0x30, 0x41, 0x42, 0x31] } 0x47000000 (·.bitbuf) =
      some (asBits [1, 0, 0, 0, 0, 1, 0, 0, 1, 0, 0, 1, 1, 1, 0, 0, 0, 1], 0x00, 0) ∧
    after { demo with bitbuf := [], chbuf := [0x41, 0x30, 0x42] } 0x47000000 (·.bitbuf) =
      some (asBits [0, 1, 0, 1, 0, 0, 0, 0, 1, 1, 0, 1, 1], 0x00, 0) := by decide

/-- V-TX2, "A?!B" and "AxB": two shifts, and a binary run of one byte. -/
theorem test_step_txenc_shift_and_run :
    after { demo with bitbuf := [], chbuf := [0x41, 0x3F, 0x21, 0x42] } 0x47000000 (·.bitbuf) =
      some (asBits [0, 1, 0, 0, 0, 0, 0, 1, 0, 0, 0, 0, 0, 0, 1, 1], 0x00, 0) ∧
    after { demo with bitbuf := [], chbuf := [0x41, 0x78, 0x42] } 0x47000000 (·.bitbuf) =
      some (asBits [0, 1, 0, 1, 1, 1, 0, 1, 0, 1, 1, 1, 1, 0, 0, 0, 0, 1, 1], 0x00, 0) := by
  decide

/-! ### The host's two questions -/

/-- The first word presented after reset is decoded and run. -/
theorem test_withFetchWord :
    decodeTableWord 32 0x012002B5 = some (.ldi 1 0x2B5) ∧
      ∃ t, step (State.reset.withFetchWord 32 0x012002B5) = .next t ∧ t.block.reg 1 = 0x2B5 := by
  exact ⟨by decide, _, rfl, by decide⟩

/-! ### Witnesses: for every statement with hypotheses, what meets them, clause by clause

The invariant (`State.Inv`) is no decidable proposition as it stands; `invCheck` is a check
that implies it. -/

/-- The state of a block with no word to come. -/
def idle (b : Block) : State := ⟨b, ⟨0, [], none⟩, Config.hw⟩

/-- A check that implies the invariant, with the default parameters. -/
def invCheck (b : Block) : Bool :=
  decide (b.rdpos ≤ b.bitlen ∧ b.bitlen ≤ Config.hw.bitCap ∧ b.cwbuf.length ≤ Config.hw.cwCap) &&
  b.cwbuf.all (fun c => decide (c.toNat < 2 ^ b.cwWidth)) &&
  decide (b.mrows = 0 ∧ b.mcols = 0 ∨
    (1 ≤ b.mrows ∧ b.mrows ≤ Config.hw.matMax) ∧ 1 ≤ b.mcols ∧ b.mcols ≤ Config.hw.matMax) &&
  decide (b.path.length ≤ Config.hw.pathCap ∧ b.chbuf.length ≤ Config.hw.chCap) &&
  b.path.all (fun c => decide (c.y < Config.hw.matMax ∧ c.x < Config.hw.matMax)) &&
  allModes.all (fun k => decide (b.width k ≤ 8)) &&
  decide ((b.fault = false → b.errcode = 0 ∧ b.errcmd = 0 ∧ b.errinfo = 0) ∧
    (b.fault = true → b.errcode ≠ 0)) &&
  bincfgLegal b.bincfg && txcfgLegal b.txcfg && Memory.wf b &&
  b.mat.all (fun kv => decide (kv.1 / b.mcols < b.mrows ∧ kv.1 % b.mcols < b.mcols)) &&
  b.tbl.all (fun kv => allModes.any fun k =>
    decide (b.width k ≠ 0 ∧ kv.1 % 256 < 2 ^ b.width k ∧ kv.1 = tblKey k (kv.1 % 256)))

theorem mem_allModes (k : Mode) : k ∈ allModes := by revert k; decide

/-- The default parameters are legal. -/
theorem hw_legal : Config.hw.Legal where
  bitCap_range := by decide
  cwCap_lt := by decide
  matMax_range := by decide
  pathCap_pos := by decide
  chCap_pos := by decide
  degree := by unfold DegreeLegal; decide

theorem blockInv_of_check {b : Block} (h : invCheck b = true) : b.Inv Config.hw := by
  simp only [invCheck, Bool.and_eq_true, decide_eq_true_eq, List.all_eq_true, List.any_eq_true] at h
  obtain ⟨⟨⟨⟨⟨⟨⟨⟨⟨⟨⟨⟨h1, h2, h3⟩, h4⟩, h5⟩, h6, h7⟩, h8⟩, h9⟩, h10, h11⟩, h12⟩, h13⟩, h14⟩, h15⟩, h16⟩ := h
  exact {
    rdpos_le := h1, bitlen_le := h2, cwlen_le := h3, cw_lt := h4, dims := h5, pathlen_le := h6
    chlen_le := h7, path_lt := h8, width_le := fun k => h9 k (mem_allModes k)
    record_clear := h10, record_set := h11
    bincfg_legal := h12, txcfg_legal := h13, memory_wf := h14
    mat_valid := fun kv hk =>
      ⟨kv.1 / b.mcols, kv.1 % b.mcols, (h15 kv hk).1, (h15 kv hk).2,
        (Nat.div_add_mod' kv.1 b.mcols).symm⟩
    tbl_valid := fun kv hk =>
      let ⟨k, _, hw, hc, he⟩ := h16 kv hk
      ⟨k, kv.1 % 256, hw, hc, he⟩ }

theorem inv_of_check {b : Block} (h : invCheck b = true) : (idle b).Inv :=
  ⟨hw_legal, blockInv_of_check h⟩

theorem demo_inv : (idle demo).Inv := inv_of_check (by decide)

/-- The block with n bits in its bit buffer. -/
def withBits (n : Nat) : Block := { demo with bitbuf := List.replicate n false }

theorem withBits_length (n : Nat) : (withBits n).bitbuf.length = n := List.length_replicate

/-- The block with n codewords 1. -/
def withCodewords (n : Nat) : Block := { demo with cwbuf := List.replicate n 1 }

theorem withCodewords_length (n : Nat) : (withCodewords n).cwbuf.length = n := List.length_replicate

/-! #### Encoding, steps, faults -/

theorem witness_DecodeOfEncodeIsTheCommand :
    (Instr.rdbits 7 32).wf = true ∧ (Instr.apbits 7 1).wf = true ∧ (Instr.modew 7 8).wf = true ∧
      (Instr.csrw 7 .txcfg).wf = true ∧ (Instr.matwr 7 7 7).wf = true := by decide

theorem witness_EncodeOfDecodeIsTheWord :
    decode 0x12E00020 = .ok (.rdbits 7 32) ∧ decode 0x04E00027 = .ok (.csrr 7 (.modew 7)) := by decide

/-- Both ends of every range of unassigned opcodes, the other bits all ones. -/
theorem witness_UnassignedOpcodeRaisesIcOpcode :
    ∀ op ∈ [0x08, 0x0F, 0x16, 0x1F, 0x22, 0x27, 0x2D, 0x2F, 0x3B, 0x3F, 0x48, 0xFF],
      ∃ (s : State) (w : Word) (rest : List Word), s.port.pending = w :: rest ∧
        s.block.fault = false ∧ opcodeOf w = op ∧
        (let op := opcodeOf w
         0x08 ≤ op ∧ op ≤ 0x0F ∨ 0x16 ≤ op ∧ op ≤ 0x1F ∨ 0x22 ≤ op ∧ op ≤ 0x27 ∨
           0x2D ≤ op ∧ op ≤ 0x2F ∨ 0x3B ≤ op ∧ op ≤ 0x3F ∨ 0x48 ≤ op) := by
  intro op h
  refine ⟨at' demo (BitVec.ofNat 32 (op * 2 ^ 24 + 0xFFFFFF)), _, [], rfl, rfl, ?_⟩
  revert op
  decide

/-- For every format a word whose lowest, and one whose highest, reserved bit is set, and one with
neither a reserved bit nor a reserved operand. -/
theorem witness_ReservedBitsRaiseIcField_bits :
    [(0x47000001, 0x47800000), (0x03000001, 0x03100000), (0x45000001, 0x45020000),
      (0x31000001, 0x31004000), (0x01010000, 0x01100000), (0x12000041, 0x12100001),
      (0x04000100, 0x04100000), (0x40000011, 0x40100001)].all (fun p =>
        [p.1, p.2].all fun w =>
          match reservedZero (opcodeOf w) with
          | some mask => decide (w.toNat &&& mask ≠ 0)
          | none => false) = true := by decide

theorem witness_ReservedBitsRaiseIcField_operands :
    (∀ w ∈ ([0x12000000, 0x12000021, 0x13000000, 0x1300003F, 0x40000000, 0x40000009, 0x04000005,
      0x040000FF, 0x05000000, 0x05000007, 0x0500000B] : List Word), reservedOperand w) ∧
    ∀ w ∈ ([0x12000001, 0x12000020, 0x40000001, 0x40000008, 0x04000027, 0x05000008, 0x0500000A] :
      List Word), ¬reservedOperand w := by
  have free : ∀ n, Csr.ofNumber n = none → ∀ c : Csr, c.number ≠ n := by
    intro n h c hc
    subst hc
    cases c with
    | modew k => revert k; decide
    | _ => simp [Csr.number, Csr.ofNumber] at h
  constructor
  · simp only [List.mem_cons, List.not_mem_nil, or_false, forall_eq_or_imp, forall_eq]
    refine ⟨.inl (by decide), .inl (by decide), .inl (by decide), .inl (by decide),
      .inr (.inl (by decide)), .inr (.inl (by decide)), .inr (.inr (.inl ⟨by decide, free _ rfl⟩)),
      .inr (.inr (.inl ⟨by decide, free _ rfl⟩)), .inr (.inr (.inr (by decide))),
      .inr (.inr (.inr (by decide))), .inr (.inr (.inr (by decide)))⟩
  · simp only [List.mem_cons, List.not_mem_nil, or_false, forall_eq_or_imp, forall_eq]
    refine ⟨?_, ?_, ?_, ?_, ?_, ?_, ?_⟩ <;> rintro (h | h | h | h) <;>
      first
      | exact absurd h (by decide)
      | exact absurd h.1 (by decide)
      | exact h.2 (.modew 7) (by decide)
      | exact h.2 .rscfg (by decide)
      | exact h.2 .txcfg (by decide)

/-- Both expansions: an upper half of 0 and one of 1. -/
theorem witness_LiLoadsTheConstant :
    (idle demo).block.fault = false ∧ bits (0x0000FFFF : Word) 31 16 = 0 ∧
      bits (0x00010000 : Word) 31 16 ≠ 0 := by decide

theorem witness_StepExecutesTheDecodedCommand :
    (at' demo 0x12A00007).port.pending = [0x12A00007] ∧ decode 0x12A00007 = .ok (.rdbits 5 7) := by
  decide

theorem witness_StepWithoutACommandWaits : (idle stopped).port.pending = [] := by decide

/-- The four commands that execute; one that does not; an unassigned word; an ill-formed GETR and CSRR. -/
theorem witness_FaultStopRefusesEveryOtherWord :
    (at' stopped 0x03600000).port.pending = [0x03600000] ∧ (at' stopped 0x03600000).block.fault = true ∧
    [0x03600000, 0x04600003, 0x06000000, 0x07000000].map decode =
      [.ok (.getr 3), .ok (.csrr 3 .errcmd), .ok .clrerr, .ok .srst] ∧
    decode 0x00000000 = .ok .nop ∧
    [0x08000000, 0x03610000, 0x04000005].map decode =
      [.error .opcode, .error .field, .error .field] := by decide

/-- One command that completes and one that faults. -/
theorem witness_FaultsAreAllOrNothing :
    (idle demo).block.fault = false ∧ ExecutesTo .nop (idle demo) demo ∧
      FaultsWith (.rdbits 1 7) (idle demo) .idRdbits 6 := ⟨rfl, rfl, rfl⟩

/-- OK with data, OK without, a fault, and a refusal. -/
theorem witness_ResponsesAreOkFaultOrRefused :
    (at' demo 0x03600000).port.pending = [0x03600000] ∧
    after (withRegs demo [(3, 7)]) 0x03600000 (·.fault) = some (false, 0x00, 7) ∧
    after demo 0x00000000 (·.fault) = some (false, 0x00, 0) ∧
    after demo 0x12A00007 (·.fault) = some (true, 0x10, 0) ∧
    after stopped 0x00000000 (·.fault) = some (true, 0xFF, 0) := by decide

theorem witness_FaultFlagChangesOnlyByFaultClrerrSrst :
    (∃ t, step (at' demo 0x12A00007) = .next t ∧ demo.fault = false ∧ t.block.fault = true) ∧
    (∃ t, step (at' stopped 0x06000000) = .next t ∧ stopped.fault = true ∧ t.block.fault = false) ∧
    ∃ t, step (at' stopped 0x07000000) = .next t ∧ t.block.fault = false :=
  ⟨⟨_, rfl, by decide⟩, ⟨_, rfl, by decide⟩, _, rfl, by decide⟩

theorem witness_RegistersChangeOnlyAsDestinations :
    ∃ t, exec (.ldi 1 5) (idle demo) = .next t ∧ destination (.ldi 1 5) ≠ some 2 ∧
      Instr.ldi 1 5 ≠ .srst := ⟨_, rfl, by decide⟩

/-- MODEW at both ends of its range; a fault of class 1 on data. -/
theorem witness_CommandsWithoutChecksSucceed :
    (idle demo).block.fault = false ∧ (Instr.modew 7 1).wf = true ∧ (Instr.modew 7 8).wf = true ∧
    withoutChecks (.modew 7 8) = true ∧ withoutChecks .chclr = true ∧
    (Instr.rdbits 1 7).wf = true ∧ FaultsWith (.rdbits 1 7) (idle demo) .idRdbits 6 ∧
    FaultCode.idRdbits.cls.nibble ≤ 3 := ⟨rfl, rfl, rfl, rfl, rfl, rfl, rfl, by decide⟩

/-- The default parameters, and others: x^6 + x^5 + 1, GENBASE 0, the least capacities. -/
theorem witness_ResetMeetsTheInvariant :
    Config.hw.Legal ∧ Params.Legal ⟨32, 0, 1, 1, 1, 0x61, 0x12D, 0x409, 0x1069, 0⟩ :=
  ⟨hw_legal, by decide, by decide, by decide, by decide, by decide, by unfold DegreeLegal; decide⟩

theorem witness_EveryStepKeepsTheInvariant :
    (at' demo 0x36000000).Inv ∧ ∃ t, step (at' demo 0x36000000) = .next t :=
  ⟨demo_inv, _, rfl⟩

/-! #### System and bit unit -/

/-- The one hypothesis of NopLdiAndLdih, BclrEmptiesAndBrwdRewinds and of the
first clauses of the statements below. -/
theorem witness_no_fault_recorded : (idle demo).block.fault = false := rfl

theorem witness_NopLdiAndLdih :
    (idle (withRegs demo [(1, 0x89ABCDEF)])).block.fault = false := rfl

theorem witness_BclrEmptiesAndBrwdRewinds : (idle { demo with rdpos := 3 }).block.fault = false := rfl

/-- The first unassigned numbers, and the CSRR opcode. -/
theorem witness_CsrrReadsEveryCsr :
    ∀ w ∈ ([0x04000005, 0x04000007, 0x0400000B, 0x0400000F, 0x04000017, 0x0400001F, 0x04000028,
      0x040000FF] : List Word), opcodeOf w = 0x04 ∧ Csr.ofNumber (bits w 7 0) = none := by
  simp only [List.mem_cons, List.not_mem_nil, or_false, forall_eq_or_imp, forall_eq]
  decide

/-- RSCFG 3 and 4, with and without codewords. -/
theorem witness_CsrwWritesLegalValuesOnly_rscfg :
    demo.fault = false ∧ ((4 : Word).toNat / 2 ^ 2 ≠ 0) ∧ (3 : Word).toNat / 2 ^ 2 = 0 ∧
      demo.cwbuf ≠ [] ∧ Block.reset.cwbuf = [] ∧ Csr.id ≠ .rscfg ∧ Csr.id ≠ .bincfg ∧
      Csr.id ≠ .txcfg := by decide

/-- BINCFG values on both sides of every bound, and TXCFG values. -/
theorem witness_CsrwWritesLegalValuesOnly_bincfg_txcfg :
    [0x001F0B00, 0x00000011, 0x00001105, 0x00050002, 0x00000025, 0x00002005].all (fun v : Word =>
      decide (bits v 7 5 ≠ 0 ∨ bits v 15 13 ≠ 0 ∨ bits v 4 0 = 0 ∨ 16 < bits v 4 0 ∨ 16 < bits v 12 8 ∨
        2 ^ bits v 4 0 < bits v 31 16)) = true ∧
    [0x00000001, 0x00001010, 0x00040002].all (fun v : Word =>
      decide ¬(bits v 7 5 ≠ 0 ∨ bits v 15 13 ≠ 0 ∨ bits v 4 0 = 0 ∨ 16 < bits v 4 0 ∨ 16 < bits v 12 8 ∨
        2 ^ bits v 4 0 < bits v 31 16)) = true ∧
    [0x00000008, 0x00000080, 0x00000200, 0x80000000].all (fun v : Word =>
      decide (bits v 7 3 ≠ 0 ∨ bits v 31 9 ≠ 0)) = true ∧
    [0x00000000, 0x00000107].all (fun v : Word =>
      decide ¬(bits v 7 3 ≠ 0 ∨ bits v 31 9 ≠ 0)) = true := by decide

theorem witness_ClrerrClearsTheRecord : (idle demo).Inv ∧ (idle demo).block.fault = false :=
  ⟨demo_inv, rfl⟩

/-- Counts at both ends of their range and outside it; six bits left, six and seven asked for. -/
theorem witness_RdbitsReadsMsbFirst :
    demo.fault = false ∧ (0 : BitVec 6).toNat < 1 ∧ 32 < (33 : BitVec 6).toNat ∧
    32 < (63 : BitVec 6).toNat ∧ ¬((1 : BitVec 6).toNat < 1 ∨ 32 < (1 : BitVec 6).toNat) ∧
    ¬((32 : BitVec 6).toNat < 1 ∨ 32 < (32 : BitVec 6).toNat) ∧
    demo.bitbuf.length - demo.rdpos < (7 : BitVec 6).toNat ∧
    ¬demo.bitbuf.length - demo.rdpos < (6 : BitVec 6).toNat := by decide

/-- Exactly room enough for 32 bits, and one bit too few. -/
theorem witness_ApbitsAppendsMsbFirst :
    (withBits 65504).fault = false ∧
      ¬(withBits 65504).bitbuf.length + (32 : BitVec 6).toNat > Config.hw.bitCap ∧
      (withBits 65505).bitbuf.length + (32 : BitVec 6).toNat > Config.hw.bitCap ∧
      (0 : BitVec 6).toNat < 1 ∧
      32 < (33 : BitVec 6).toNat := by
  simp only [withBits_length]
  exact ⟨rfl, by decide⟩

theorem witness_AvailAndBitoffReadTheCursor :
    (idle { demo with rdpos := 6 }).block.fault = false ∧ (idle { demo with rdpos := 6 }).Inv :=
  ⟨rfl, inv_of_check (by decide)⟩

/-- One bit and 31 bits, in a buffer with exactly room for both. -/
theorem witness_AppendsReadBackConcatenated :
    let b := { withBits 65504 with rdpos := 65504 }
    b.fault = false ∧ b.rdpos = b.bitbuf.length ∧ 1 ≤ (1 : BitVec 6).toNat ∧
      1 ≤ (31 : BitVec 6).toNat ∧ (32 : BitVec 6).toNat = (1 : BitVec 6).toNat + (31 : BitVec 6).toNat ∧
      (32 : BitVec 6).toNat ≤ 32 ∧ b.bitbuf.length + (32 : BitVec 6).toNat ≤ Config.hw.bitCap := by
  simp only [withBits_length]
  exact ⟨rfl, by decide⟩

/-! #### Reed-Solomon unit -/

/-- The largest element of each field; elements on both sides of 2^(m−1). -/
theorem witness_FieldMultiplicationLaws :
    (∀ f : BitVec 2, DegreeLegal (Config.hw.field f)) ∧ 63 < 2 ^ (Config.hw.field 0).m ∧
      255 < 2 ^ (Config.hw.field 1).m ∧ 1023 < 2 ^ (Config.hw.field 2).m ∧
      4095 < 2 ^ (Config.hw.field 3).m ∧ 31 < 2 ^ ((Config.hw.field 0).m - 1) ∧
      ¬32 < 2 ^ ((Config.hw.field 0).m - 1) := ⟨hw_legal.degree, by decide⟩

/-- GF(64) with its default polynomial is a legal field. -/
theorem gf64_legal : FieldLegal (Config.hw.field 0) := by
  have key : alphaPow (Config.hw.field 0) 63 = 1 ∧
      ∀ e : Fin 63, 0 < e.val → alphaPow (Config.hw.field 0) e.val ≠ 1 := by decide +kernel
  exact ⟨hw_legal.degree 0, key.1, fun e h0 h => key.2 ⟨e, h⟩ h0⟩

theorem witness_EveryNonzeroElementHasItsInverse :
    FieldLegal (Config.hw.field 0) ∧ 0 < 1 ∧ 1 < (Config.hw.field 0).q ∧ 0 < 63 ∧
      63 < (Config.hw.field 0).q := ⟨gf64_legal, by decide⟩

/-- Values 63 and 64 for six-bit codewords; 4094 and 4095 codewords. -/
theorem witness_CwclrAndCwapBuildTheBuffer :
    demo.fault = false ∧ (64 : Word).toNat ≥ 2 ^ demo.cwWidth ∧ ¬(63 : Word).toNat ≥ 2 ^ demo.cwWidth ∧
      (withCodewords 4095).cwbuf.length ≥ Config.hw.cwCap ∧
      ¬(withCodewords 4094).cwbuf.length ≥ Config.hw.cwCap := by
  simp only [withCodewords_length]
  exact ⟨rfl, by decide⟩

/-- Three codewords: indexes 2 and 3, values 63 and 64, lengths 3 and 4. -/
theorem witness_CodewordReadWriteTruncate :
    demo.fault = false ∧ 3 ≥ demo.cwbuf.length ∧ ¬2 ≥ demo.cwbuf.length ∧ 64 ≥ 2 ^ demo.cwWidth ∧
      ¬63 ≥ 2 ^ demo.cwWidth ∧ 4 > demo.cwbuf.length ∧ ¬3 > demo.cwbuf.length := by decide

/-- Sixty codewords and r2 = 3 (63 in all) or 4 (64). -/
theorem witness_RsencMakesACodeWord :
    (idle (withRegs (withCodewords 60) [(2, 4)])).Inv ∧
      (withRegs (withCodewords 60) [(2, 4)]).fault = false ∧
      60 + 4 > 2 ^ (withCodewords 60).cwWidth - 1 ∧ ¬60 + 3 > 2 ^ (withCodewords 60).cwWidth - 1 :=
  ⟨inv_of_check (by decide), by decide⟩

/-- Three codewords and r2 = 2 where CWCAP is 4. -/
theorem witness_RsencMakesACodeWord_capacity :
    let s : State :=
      { idle (withRegs demo [(2, 2)]) with params := { Config.hw with cwCap := 4 } }
    s.Inv ∧ s.block.fault = false ∧ ¬3 + 2 > 2 ^ s.block.cwWidth - 1 ∧ 3 + 2 > s.params.cwCap :=
  have inv : (idle (withRegs demo [(2, 2)])).Inv := inv_of_check (by decide)
  ⟨⟨{ hw_legal with cwCap_lt := by decide }, { inv.2 with cwlen_le := by decide }⟩, by decide⟩

/-- V-RS1 as a word of the code, and the longest word of the six-bit field. -/
theorem witness_ParityIsTheOnlySystematicWord :
    FieldLegal (Config.hw.field 0) ∧ (∀ d ∈ [9, 17, 42], d < (Config.hw.field 0).q) ∧
    [9, 17, 42].length + 60 ≤ (Config.hw.field 0).q - 1 ∧
    InCode (Config.hw.field 0) (3 + 4) 4 [9, 17, 42, 37, 10, 16, 49] ∧
    [9, 17, 42, 37, 10, 16, 49].take 3 = [9, 17, 42] := by
  refine ⟨gf64_legal, by decide, by decide, ⟨rfl, by decide, by decide +kernel⟩, rfl⟩

/-- V-RS2: distance 2 with E = 4, the most that is corrected. -/
theorem witness_RsdecIsBoundedDistanceDecoding_corrects :
    let b := withRegs { demo with cwbuf := [9, 63, 42, 37, 10, 0, 49] } [(2, 4)]
    let C : List (BitVec 12) := [9, 17, 42, 37, 10, 16, 49]
    (idle b).Inv ∧ FieldLegal (Config.hw.field b.fsel) ∧ b.fault = false ∧
      ¬b.cwbuf.length > 2 ^ b.cwWidth - 1 ∧ ¬4 > b.cwbuf.length ∧
      InReach (Config.hw.field b.fsel) (b.cwbuf.map BitVec.toNat) 4 (C.map BitVec.toNat) :=
  ⟨inv_of_check (by decide), gf64_legal, rfl, by decide, by decide,
    ⟨rfl, by decide, by decide +kernel⟩, by decide⟩

/-- One codeword 5 and E = 1: it is no word of the code and nothing else is within 0 of it. -/
theorem witness_RsdecIsBoundedDistanceDecoding_uncorrectable :
    let b := withRegs { demo with cwbuf := [5] } [(2, 1)]
    (idle b).Inv ∧ FieldLegal (Config.hw.field b.fsel) ∧ b.fault = false ∧
      ¬b.cwbuf.length > 2 ^ b.cwWidth - 1 ∧ ¬1 > b.cwbuf.length ∧
      ∀ C, ¬InReach (Config.hw.field b.fsel) (b.cwbuf.map BitVec.toNat) 1 C := by
  refine ⟨inv_of_check (by decide), gf64_legal, rfl, by decide, by decide, ?_⟩
  rintro C ⟨⟨hl, -, he⟩, hd⟩
  obtain ⟨c, rfl⟩ := List.length_eq_one_iff.mp hl
  have hc : c = 5 := by
    by_contra hc
    exact absurd hd (by simp [wordDist, withRegs, Block.setReg, hc])
  subst hc
  exact absurd (he 0 (by decide)) (by decide)

/-- 64 codewords of six bits; E = 4 with three codewords. -/
theorem witness_RsdecIsBoundedDistanceDecoding_lengths :
    (idle (withCodewords 64)).Inv ∧ (withCodewords 64).fault = false ∧
      (withCodewords 64).cwbuf.length > 2 ^ (withCodewords 64).cwWidth - 1 ∧ 4 > demo.cwbuf.length :=
  ⟨inv_of_check (by decide), by decide⟩

theorem witness_RsencThenRsdecFindsNoError :
    let b := withRegs (withCodewords 60) [(2, 3)]
    (idle b).Inv ∧ b.fault = false ∧ b.cwbuf.length + (b.reg 2).toNat ≤ 2 ^ b.cwWidth - 1 ∧
      b.cwbuf.length + (b.reg 2).toNat ≤ Config.hw.cwCap :=
  ⟨inv_of_check (by decide), by decide⟩

/-! #### Mapper -/

/-- Dimensions 0, 1, 256 and 257. -/
theorem witness_MatdimMakesAWhiteMatrix :
    demo.fault = false ∧ ((0 : Word).toNat < 1 ∨ Config.hw.matMax < (0 : Word).toNat) ∧
      ((257 : Word).toNat < 1 ∨ Config.hw.matMax < (257 : Word).toNat) ∧
      ¬((1 : Word).toNat < 1 ∨ Config.hw.matMax < (1 : Word).toNat) ∧
      ¬((256 : Word).toNat < 1 ∨ Config.hw.matMax < (256 : Word).toNat) := by decide

/-- A 2 × 3 matrix: rows 1 and 2, columns 2 and 3. -/
theorem witness_MatwrAndMatrdReachOneModule :
    (idle demo).Inv ∧ (idle demo).block.fault = false ∧ 2 ≥ demo.mrows ∧ ¬1 ≥ demo.mrows ∧
      3 ≥ demo.mcols ∧ ¬2 ≥ demo.mcols := ⟨demo_inv, by decide⟩

/-- Coordinates 255 and 256; 65535 and 65536 coordinates. -/
theorem witness_PathCommandsBuildThePath :
    demo.fault = false ∧ (256 : Word).toNat ≥ Config.hw.matMax ∧ ¬(255 : Word).toNat ≥ Config.hw.matMax ∧
      (List.replicate 65536 (⟨0, 0⟩ : Coord)).length ≥ Config.hw.pathCap ∧
      ¬(List.replicate 65535 (⟨0, 0⟩ : Coord)).length ≥ Config.hw.pathCap := by
  simp only [List.length_replicate]
  exact ⟨rfl, by decide⟩

/-- A path that leaves a 2 × 3 matrix by its row at index 1, one that leaves it by its column at 0. -/
theorem witness_MaprdAppendsTheModulesAlongThePath_outside :
    let b := { demo with path := [⟨1, 2⟩, ⟨2, 0⟩] }
    b.fault = false ∧ (b.path[1]? = some ⟨2, 0⟩ ∧ 2 ≥ b.mrows ∧
      ∀ d ∈ b.path.take 1, d.y < b.mrows ∧ d.x < b.mcols) ∧
    let c := { demo with path := [⟨0, 3⟩] }
    c.path[0]? = some ⟨0, 3⟩ ∧ 3 ≥ c.mcols := by decide

/-- A path inside the matrix, with exactly room for its six bits and one bit too few. -/
theorem witness_MaprdAppendsTheModulesAlongThePath_inside :
    (∀ c ∈ demo.path, c.y < demo.mrows ∧ c.x < demo.mcols) ∧
      ¬(withBits 65530).bitbuf.length + (withBits 65530).path.length > Config.hw.bitCap ∧
      (withBits 65531).bitbuf.length + (withBits 65531).path.length > Config.hw.bitCap := by
  simp only [withBits_length]
  decide

/-- Six bits for six modules, then five; the path of the witness above that leaves the matrix. -/
theorem witness_MapwrPlacesBitsAlongThePath :
    (idle demo).Inv ∧ (idle { demo with rdpos := 1 }).Inv ∧
      (idle { demo with path := [⟨1, 2⟩, ⟨2, 0⟩] }).Inv ∧
      demo.fault = false ∧ (∀ c ∈ demo.path, c.y < demo.mrows ∧ c.x < demo.mcols) ∧
      ¬demo.bitbuf.length - demo.rdpos < demo.path.length ∧
      demo.bitbuf.length - 1 < demo.path.length :=
  ⟨demo_inv, inv_of_check (by decide), inv_of_check (by decide), by decide⟩

/-- The clause of a module visited twice, and of one that is not visited. -/
theorem witness_MapwrPlacesBitsAlongThePath_visits :
    let b := { demo with path := [⟨0, 0⟩, ⟨0, 0⟩] }
    (idle b).Inv ∧ b.path[1]? = some ⟨0, 0⟩ ∧ (∀ j, 1 < j → b.path[j]? ≠ some ⟨0, 0⟩) ∧
      b.bitbuf[b.rdpos + 1]? = some false ∧ 1 < b.mrows ∧ 2 < b.mcols ∧ (⟨1, 2⟩ : Coord) ∉ b.path := by
  refine ⟨inv_of_check (by decide), rfl, ?_, by decide⟩
  intro j hj
  rw [List.getElem?_eq_none (show 2 ≤ j from hj)]
  decide

theorem witness_MapwrThenMaprdReturnsTheBits :
    (idle demo).Inv ∧ demo.fault = false ∧ demo.path.Nodup ∧
      (∀ c ∈ demo.path, c.y < demo.mrows ∧ c.x < demo.mcols) ∧
      demo.path.length ≤ demo.bitbuf.length - demo.rdpos ∧
      demo.bitbuf.length + demo.path.length ≤ Config.hw.bitCap := ⟨demo_inv, by decide⟩

/-- CWPACK of one and of two codewords out of six bits. -/
theorem witness_CwpackAndCwunpkMoveCodewords_bits :
    demo.fault = false ∧ demo.bitbuf.length - demo.rdpos < 2 * demo.cwWidth ∧
      ¬demo.bitbuf.length - demo.rdpos < 1 * demo.cwWidth := by decide

/-- 4092 codewords more than three, and 4093; CWUNPK of three with exactly room, and one bit less. -/
theorem witness_CwpackAndCwunpkMoveCodewords_capacity :
    ¬(withBits 65536).bitbuf.length - (withBits 65536).rdpos < 4093 * 6 ∧
      (withBits 65536).cwbuf.length + 4093 > Config.hw.cwCap ∧
      ¬(withBits 65536).cwbuf.length + 4092 > Config.hw.cwCap ∧
      (withBits 65519).bitbuf.length + (withBits 65519).cwbuf.length * 6 > Config.hw.bitCap ∧
      ¬(withBits 65518).bitbuf.length + (withBits 65518).cwbuf.length * 6 > Config.hw.bitCap ∧
      (withBits 65536).cwWidth = 6 := by
  simp only [withBits_length]
  decide

theorem witness_CwunpkThenCwpackCopies :
    let b := withRegs { demo with rdpos := 6 } [(1, 3)]
    (idle b).Inv ∧ b.fault = false ∧ b.rdpos = b.bitbuf.length ∧ (b.reg 1).toNat = b.cwbuf.length ∧
      2 * b.cwbuf.length ≤ Config.hw.cwCap ∧
      b.bitbuf.length + b.cwbuf.length * b.cwWidth ≤ Config.hw.bitCap :=
  ⟨inv_of_check (by decide), by decide⟩

/-- V-ST1: a run of zeros, a run of ones, a plain codeword padded at the end. -/
theorem witness_StuffEmitsNoForbiddenCodeword :
    demo.fault = false ∧
      Stuffs 6 (asBits [0, 0, 0, 0, 0, 1, 1, 1, 1, 1, 1, 0]) [1, 62, 47] ∧
      ¬(withCodewords 4092).cwbuf.length + [1, 62, 47].length > Config.hw.cwCap ∧
      (withCodewords 4093).cwbuf.length + [1, 62, 47].length > Config.hw.cwCap := by
  simp only [withCodewords_length]
  exact ⟨rfl, .zeros (by decide) (by decide)
    (.ones (by decide) (by decide) (.plain (by decide) (by decide) (by decide) .nil)), by decide⟩

/-- V-ST2: 33, 5, 63 and 33, 0, 5; the six bits of 33 with exactly room, and one bit less. -/
theorem witness_UnstuffExpandsRuns :
    demo.fault = false ∧
    (let b := { demo with cwbuf := [33, 5, 63] }
     b.cwbuf[2]? = some 63 ∧ (63 : BitVec 12).toNat = 2 ^ b.cwWidth - 1 ∧
       (b.cwbuf.take 2).all fun d => decide (d.toNat ≠ 0 ∧ d.toNat ≠ 2 ^ b.cwWidth - 1)) ∧
    (let b := { demo with cwbuf := [0, 5] }
     b.cwbuf[0]? = some 0 ∧ (0 : BitVec 12).toNat = 0) ∧
    (([33] : List (BitVec 12)).all fun c => decide (c.toNat ≠ 0 ∧ c.toNat ≠ 2 ^ demo.cwWidth - 1)) ∧
    ¬(withBits 65530).bitbuf.length + (unstuffed 6 33).length > Config.hw.bitCap ∧
    (withBits 65531).bitbuf.length + (unstuffed 6 33).length > Config.hw.bitCap := by
  simp only [withBits_length]
  exact ⟨rfl, by decide⟩

theorem witness_StuffThenUnstuffReturnsTheBits :
    let b := { demo with cwbuf := [] }
    (idle b).Inv ∧ b.fault = false ∧ b.cwbuf = [] ∧
      b.bitbuf.length - b.rdpos ≤ Config.hw.cwCap * (b.cwWidth - 1) ∧
      b.bitbuf.length - b.rdpos + (b.cwWidth - 1) ≤ Config.hw.bitCap :=
  ⟨inv_of_check (by decide), by decide⟩

/-! #### Text unit -/

/-- Widths 0, 1, 8 and 9. -/
theorem witness_ModewDefinesAMode :
    demo.fault = false ∧ (0 : BitVec 4).toNat < 1 ∧ 8 < (9 : BitVec 4).toNat ∧
      ¬((1 : BitVec 4).toNat < 1 ∨ 8 < (1 : BitVec 4).toNat) ∧
      ¬((8 : BitVec 4).toNat < 1 ∨ 8 < (8 : BitVec 4).toNat) := by decide

/-- What TableEntriesWriteAndReadBack calls a valid index, as a check. -/
def indexValid (b : Block) (idx : Word) : Prop :=
  bits idx 31 11 = 0 ∧ ∀ k : Mode, k.val = bits idx 10 8 →
    b.width k ≠ 0 ∧ bits idx 7 0 < 2 ^ b.width k

/-- Codes 7 and 8 of a mode three bits wide, an undefined mode, a set bit 11. -/
theorem witness_TableEntriesWriteAndReadBack_index :
    (idle demo).Inv ∧ demo.fault = false ∧ indexValid demo 0x007 ∧ ¬indexValid demo 0x008 ∧
      ¬indexValid demo 0x300 ∧ ¬indexValid demo 0x800 :=
  ⟨demo_inv, rfl, by unfold indexValid; decide, by unfold indexValid; decide,
    by unfold indexValid; decide, by unfold indexValid; decide⟩

/-- The entries V-TB1 refuses, and the largest legal one of every kind. -/
theorem witness_TableEntriesWriteAndReadBack_entry :
    [0x700, 0x208, 0x401, 0x1141, 0x001, 0x308].map (fun e : Word => decide (bits e 31 12 = 0 ∧
      (bits e 11 8 = 1 ∨ (bits e 11 8 = 2 ∨ bits e 11 8 = 3) ∧ bits e 7 0 ≤ 7 ∨
        (bits e 11 8 = 0 ∨ bits e 11 8 = 4 ∨ bits e 11 8 = 5 ∨ bits e 11 8 = 6) ∧ bits e 7 0 = 0))) =
      List.replicate 6 false ∧
    entryLegal 0x000 ∧ entryLegal 0x1FF ∧ entryLegal 0x207 ∧ entryLegal 0x307 ∧ entryLegal 0x400 ∧
    entryLegal 0x500 ∧ entryLegal 0x600 := by
  unfold entryLegal
  refine ⟨by decide, ?_, ?_, ?_, ?_, ?_, ?_, ?_⟩ <;> decide

/-- 4095 and 4096 entries; indexes 4 and 5 of five. -/
theorem witness_CharacterBufferCommands :
    demo.fault = false ∧ (List.replicate 4096 (0 : BitVec 10)).length ≥ Config.hw.chCap ∧
      ¬(List.replicate 4095 (0 : BitVec 10)).length ≥ Config.hw.chCap ∧ 5 ≥ demo.chbuf.length ∧
      ¬4 ≥ demo.chbuf.length := by
  simp only [List.length_replicate]
  exact ⟨rfl, by decide⟩

/-- TXDEC in an undefined mode; one character and then less than a code; an undefined code. -/
theorem witness_TxdecRunsItsLoopToTheEnd :
    demo.fault = false ∧
      ((7 : Mode).val = bits { demo with txcfg := 7 }.txcfg 2 0 ∧ { demo with txcfg := 7 }.width 7 = 0) ∧
      ((0 : Mode).val = bits demo.txcfg 2 0 ∧ demo.width 0 ≠ 0) ∧
      Decodes demo ⟨0, 0, [], asBits [0, 1, 0, 1]⟩ (.done [0x041] (asBits [1])) ∧
      Decodes demo ⟨0, 0, [], asBits [0, 1, 0, 1, 0, 1]⟩ (.raise .feTxundef 5) :=
  ⟨rfl, by decide, by decide, .more (ss' := ⟨0, 0, [0x041], asBits [1]⟩) (by decide)
    (.stop (by decide)), .more (ss' := ⟨0, 0, [0x041], asBits [1, 0, 1]⟩) (by decide)
    (.stop (by decide))⟩

/-- A mode one bit wide whose code 0 is a character. -/
def oneBit : Block :=
  { Block.reset with modew := #v[1, 0, 0, 0, 0, 0, 0, 0], tbl := [(0, .char 0x41)] }

theorem oneBit_pass (out : List (BitVec 10)) (l : List Bool) :
    txPass oneBit ⟨0, 0, out, false :: l⟩ = .inr ⟨0, 0, out ++ [0x041], l⟩ := by
  have h : ¬(false :: l).length < oneBit.width 0 := by simp [show oneBit.width 0 = 1 from rfl]
  simp only [txPass, if_neg h]
  rfl

theorem oneBit_decodes (n : Nat) : ∀ out : List (BitVec 10),
    Decodes oneBit ⟨0, 0, out, List.replicate n false⟩ (.done (out ++ List.replicate n 0x041) []) := by
  induction n with
  | zero => exact fun out => .stop (by rw [List.replicate_zero, List.replicate_zero, List.append_nil]; rfl)
  | succ n ih =>
    intro out
    have h := ih (out ++ [0x041])
    rw [List.append_assoc] at h
    exact .more (oneBit_pass out _) h

/-- 4097 characters are one too many, 4096 are not. -/
theorem witness_TxdecRunsItsLoopToTheEnd_capacity :
    Decodes oneBit ⟨0, 0, [], List.replicate 4097 false⟩ (.done (List.replicate 4097 0x041) []) ∧
      (List.replicate 4097 (0x041 : BitVec 10)).length > Config.hw.chCap ∧
      Decodes oneBit ⟨0, 0, [], List.replicate 4096 false⟩ (.done (List.replicate 4096 0x041) []) ∧
      ¬(List.replicate 4096 (0x041 : BitVec 10)).length > Config.hw.chCap := by
  refine ⟨oneBit_decodes 4097 [], ?_, oneBit_decodes 4096 [], ?_⟩ <;>
    rw [List.length_replicate] <;> decide

/-- Two bits in a mode three bits wide; an entry of every kind of T1, and a LATCH to an
undefined mode; the trailing 254. -/
theorem witness_DecoderPassFollowsLatchAndShift :
    (asBits [0, 1]).length < demo.width 0 ∧
    (asBits [0, 1, 0]).length = demo.width 0 ∧ demo.tblGet 0 2 = .char 0x41 ∧
      demo.tblGet 0 4 = .latch 1 ∧ demo.tblGet 0 0 = .shift 2 ∧ demo.tblGet 0 7 = .binary ∧
      demo.tblGet 0 6 = .pad ∧ demo.tblGet 0 5 = .undef ∧ demo.tblGet 2 2 = .fnc1 ∧ demo.width 1 ≠ 0 ∧
      demo.width 5 = 0 ∧ (demo.tblSet 0 5 (.latch 5)).tblGet 0 5 = .latch 5 ∧
      (demo.tblSet 0 5 (.shift 5)).tblGet 0 5 = .shift 5 ∧
      (let b := { Block.reset with modew := #v[8, 0, 0, 0, 0, 0, 0, 0] }
       (natBits 254 8).length = b.width 0 ∧ b.tblGet 0 (bitsVal (natBits 254 8)) = .undef ∧
         b.txcfg.getLsbD 8 = true) := by decide

/-- T1: a prefix of 2, one of 0 and 0 (a run of three), a run cut short, and prefixes cut short. -/
theorem witness_BinaryRunReadsItsBytes :
    (asBits [1, 1, 1]).length = demo.width 0 ∧ demo.tblGet 0 (bitsVal (asBits [1, 1, 1])) = .binary ∧
      ((asBits [1, 0]).length = bits demo.bincfg 4 0 ∧ bitsVal (asBits [1, 0]) = 2) ∧
      ((asBits [0, 0]).length = bits demo.bincfg 4 0 ∧ bitsVal (asBits [0, 0]) = 0 ∧
        bits demo.bincfg 12 8 ≠ 0 ∧
        (asBits [0, 0, 0]).length = bits demo.bincfg 12 8 ∧
        3 = bitsVal (asBits [0, 0, 0]) + bits demo.bincfg 31 16) ∧
      ([0x41] : List Byte).length < 2 ∧ (asBits [0, 0, 0, 0, 0, 0, 0]).length < 8 ∧
      (asBits [1]).length < bits demo.bincfg 4 0 ∧ (asBits [0, 0]).length < bits demo.bincfg 12 8 := by
  decide

theorem witness_TxdecNeverRunsShort :
    ∃ t, exec .txdec (idle { demo with bitbuf := asBits [0, 1, 0, 1] }) = .next t ∧
      t.block.fault = false := ⟨_, rfl, by decide⟩

/-- Mode 0 of T1 holds "A", and no code of it shifts to mode 0 or 1. -/
theorem demo_holds : Holds demo 0 (.char 0x41) ∧ ShiftGives demo 0 0x3F 2 ∧
    ∀ z : Mode, z < 2 → ¬ShiftGives demo 0 0x3F z := by
  refine ⟨⟨by decide, 2, by decide⟩, ⟨⟨by decide, 0, by decide⟩, by decide, 1, by decide⟩, ?_⟩
  rintro z hz ⟨⟨-, v, hv, hs⟩, -⟩
  have none : ∀ z : Fin 8, z < 2 → ∀ v, v < 2 ^ demo.width 0 → demo.tblGet 0 v ≠ .shift z := by
    decide
  exact none z hz v hv hs

/-- One odd character ("?" at the end of the text), a byte that is none ("A"), modes and codes. -/
theorem witness_ChooseTakesTheLeastCandidate :
    demo.width 0 ≠ 0 ∧ OddCharacter demo 0 0x3F none ∧ OddCharacter demo 0 0x3F (some 0x41) ∧
      ¬OddCharacter demo 0 0x3F (some 0x3F) ∧ ¬OddCharacter demo 0 0x41 none ∧
      IsCandidate demo 0 0x41 .direct 0 0 ∧ demo.choose 0 0x3F (some 0x3F) = some (0, .shifted) ∧
      demo.findCode 0 (.char 0x41) = some 2 := by
  have h3F : demo.loc 0 0x3F = some .shifted := by decide
  have h41 : demo.loc 0 0x41 = some .direct := by decide
  refine ⟨by decide, ⟨h3F, nofun⟩, ⟨h3F, fun c h => ?_⟩, fun h => ?_, fun h => ?_,
    ⟨by decide, by decide, h41⟩, by decide, by decide⟩
  · rw [← Option.some.inj h]; exact h41
  · exact absurd (h3F.symm.trans (h.2 _ rfl)) (by decide)
  · exact absurd (h41.symm.trans h.1) (by decide)

/-- TXENC in an undefined mode; "A", "?" and "x" in T1, one of every class; a byte without a code. -/
theorem witness_TxencRunsItsLoopToTheEnd :
    (idle demo).Inv ∧ demo.fault = false ∧ (idle { demo with txcfg := 7 }).Inv ∧
      ((7 : Mode).val = bits { demo with txcfg := 7 }.txcfg 2 0 ∧ { demo with txcfg := 7 }.width 7 = 0) ∧
      ((0 : Mode).val = bits demo.txcfg 2 0 ∧ demo.width 0 ≠ 0) ∧
      Encodes demo 0 0 [0x41] (.ok [⟨2, 3⟩]) ∧ Encodes demo 0 0 [0x3F] (.ok [⟨0, 3⟩, ⟨1, 2⟩]) ∧
      Encodes demo 0 0 [0x78] (.ok [⟨7, 3⟩, ⟨1, 2⟩, ⟨0x78, 8⟩]) ∧
      (idle oneBit).Inv ∧ oneBit.width 0 ≠ 0 ∧ Encodes oneBit 0 0 [0x42] (.error 0) := by
  refine ⟨demo_inv, rfl, inv_of_check (by decide), by decide, by decide, ?_, ?_, ?_,
    inv_of_check (by decide), by decide, .stuck (by decide)⟩
  · exact .direct (t := 0) (v := 2) (r := .ok []) (by decide) (by decide) .done
  · exact .shifted (t := 0) (k := 2) (u := 0) (v := 1) (r := .ok []) (by decide)
      demo_holds.2.1 demo_holds.2.2 (by decide) (by decide) .done
  · refine .run (t := 0) (v := 7) (run := [0x78]) (left := []) (r := .ok []) (by decide)
      ⟨rfl, by decide, fun j c h => ?_, fun _ _ _ h => nomatch h⟩ (by decide) (by decide) .done
    match j, h with
    | 0, h => rw [← Option.some.inj h]; decide

/-- "A" with three bits of room in the bit buffer, and with two. -/
theorem witness_TxencRunsItsLoopToTheEnd_capacity :
    ¬(withBits 65533).bitbuf.length + (([⟨2, 3⟩] : List Emit).map Emit.width).sum > Config.hw.bitCap ∧
      (withBits 65534).bitbuf.length + (([⟨2, 3⟩] : List Emit).map Emit.width).sum > Config.hw.bitCap := by
  simp only [withBits_length]
  decide

theorem witness_LatchPathIsShortest :
    demo.latchDist 0 1 = some 1 ∧ demo.latchDist 0 2 = none ∧ LatchEdge demo 0 1 ∧
      List.IsChain (LatchEdge demo) [0, 1, 0] ∧
      ([0, 1, 0] : List Mode).getLast (by decide) = 0 := by
  have e01 : LatchEdge demo 0 1 := ⟨⟨by decide, 4, by decide⟩, by decide⟩
  have e10 : LatchEdge demo 1 0 := ⟨⟨by decide, 2, by decide⟩, by decide⟩
  exact ⟨by decide, by decide, e01, .cons_cons e01 (.cons_cons e10 (.singleton _)), rfl⟩

theorem witness_TextRoundTrip :
    let b := { demo with rdpos := 6 }
    (idle b).Inv ∧ b.fault = false ∧ b.rdpos = b.bitbuf.length ∧
      ∃ t, exec .txenc (idle b) = .next t ∧ t.block.fault = false :=
  ⟨inv_of_check (by decide), rfl, by decide, _, rfl, by decide⟩

/-- The words of some lines of assembler text. -/
def lineWords (l : String) : Option (List Word) := (readLine l.toList).map (List.map encode)

/-- The worked encodings of rule R103, read from their assembler text. -/
theorem test_readLine_r103 :
    ["NOP", "LDI r1, 0x2B5", "LDIH r2, 0xFFFF", "GETR r3", "CSRR r3, CWLEN", "CSRW r2, BINCFG",
      "CLRERR", "APBITS r1, 10", "RDBITS r5, 7", "RSENC r2", "RSDEC r6, r2", "CWWR r4, r5",
      "MATDIM r1, r2", "MATRD r4, r0, r2", "MATRD r4, r1, r1", "MODEW 1, 2", "TBLWR r1, r2",
      "TXDEC"].map lineWords =
    [0x00000000, 0x012002B5, 0x0240FFFF, 0x03600000, 0x04600012, 0x05400009, 0x06000000,
      0x1320000A, 0x12A00007, 0x20400000, 0x21C80000, 0x2B940000, 0x30280000, 0x32810000,
      0x32848000, 0x40200002, 0x41280000, 0x46000000].map (fun w => some [w]) := by decide

/-- LI of rule R102, a comment, a CSR by number, and lines that are no command. -/
theorem test_readLine_forms :
    readLine "li R2, 0x00030302 ; load".toList = some [.ldi 2 0x0302, .ldih 2 3] ∧
    readLine "  ; only a comment".toList = some [] ∧
    readLine "CSRR r3, 0x12".toList = some [.csrr 3 .cwlen] ∧
    readLine "RDBITS r1, 33".toList = none ∧ readLine "CSRW r0, BITLEN".toList = none ∧
    readLine "GETR r8".toList = none := by decide

end Sys2Proof.Tests
end

/-! ### The powers of α (42_reed_solomon.md rules R160 to R163)

Multiplication by x (`gfTimesX`) is linear over exclusive-or and commutes with `gfMul`, so
α^a · α^b = α^(a+b). By that law a power of α takes one squaring per bit of its exponent, and the order of
α is q − 1 as soon as no proper divisor of q − 1 is an exponent with power 1. -/

namespace Sys2Proof.Machine

section Field

variable {F : GF}

/-! #### Multiplication by x -/

@[simp] theorem gfTimesX_zero : gfTimesX F 0 = 0 := by
  simp [gfTimesX]

theorem gfTimesX_of_lt {a : Nat} (h : 2 * a < F.q) : gfTimesX F a = 2 * a := by
  simp [gfTimesX, Nat.testBit_lt_two_pow h]

theorem gfTimesX_xor (a b : Nat) : gfTimesX F (a ^^^ b) = gfTimesX F a ^^^ gfTimesX F b := by
  have hdouble : 2 * (a ^^^ b) = 2 * a ^^^ 2 * b := by
    simpa [Nat.shiftLeft_eq, Nat.mul_comm] using Nat.shiftLeft_xor_distrib (a := a) (b := b) (i := 1)
  unfold gfTimesX
  rw [hdouble, Nat.testBit_xor]
  cases (2 * a).testBit F.m <;> cases (2 * b).testBit F.m <;> simp [Nat.xor_comm, Nat.xor_left_comm]

theorem gfTimesX_lt (hF : DegreeLegal F) {a : Nat} (ha : a < F.q) : gfTimesX F a < F.q := by
  obtain ⟨hlow, hhigh⟩ := hF
  rw [GF.q] at *
  by_cases hsmall : 2 * a < 2 ^ F.m
  · rwa [gfTimesX_of_lt hsmall]
  have hdouble : 2 * a < 2 ^ (F.m + 1) := by omega
  have htop := Nat.testBit_of_two_pow_le_and_two_pow_add_one_gt (not_lt.mp hsmall) hdouble
  rw [gfTimesX, if_pos htop]
  refine Nat.lt_pow_two_of_testBit _ fun i hi => ?_
  obtain rfl | hi := hi.eq_or_lt
  · simp [htop, Nat.testBit_of_two_pow_le_and_two_pow_add_one_gt hlow hhigh]
  · have hpow : 2 ^ (F.m + 1) ≤ 2 ^ i := Nat.pow_le_pow_right two_pos hi
    simp [Nat.testBit_lt_two_pow (hdouble.trans_le hpow), Nat.testBit_lt_two_pow (hhigh.trans_le hpow)]

/-! #### The multiplication loop (rule R161) -/

@[simp] theorem gfMulLoop_zero_right (k a r : Nat) : gfMulLoop F k a 0 r = r := by
  induction k generalizing a with
  | zero => rfl
  | succ k ih => simp [gfMulLoop, ih]

theorem gfMulLoop_eq_xor (k a b r : Nat) : gfMulLoop F k a b r = r ^^^ gfMulLoop F k a b 0 := by
  induction k generalizing a b r with
  | zero => simp [gfMulLoop]
  | succ k ih =>
    rw [gfMulLoop, gfMulLoop, ih, ih (r := ite _ _ _)]
    split <;> simp [Nat.xor_assoc]

theorem gfMulLoop_gfTimesX (k a b r : Nat) :
    gfMulLoop F k (gfTimesX F a) b (gfTimesX F r) = gfTimesX F (gfMulLoop F k a b r) := by
  induction k generalizing a b r with
  | zero => rfl
  | succ k ih => rw [gfMulLoop, gfMulLoop, ← ih, ← gfTimesX_xor, ← apply_ite (gfTimesX F)]

theorem gfMulLoop_one {k b : Nat} (hk : k ≤ F.m) (hb : b < 2 ^ k) : gfMulLoop F k 1 b 0 = b := by
  induction k generalizing b with
  | zero =>
    obtain rfl : b = 0 := by simpa using hb
    rfl
  | succ k ih =>
    have hq : 2 ^ (k + 1) ≤ F.q := Nat.pow_le_pow_right two_pos hk
    have hhalf : gfMulLoop F k (gfTimesX F 1) (b / 2) 0 = 2 * (b / 2) := by
      have hshift := gfMulLoop_gfTimesX (F := F) k 1 (b / 2) 0
      rwa [gfTimesX_zero, ih (by omega) (by omega), gfTimesX_of_lt (a := b / 2) (by omega)] at hshift
    rw [gfMulLoop, gfMulLoop_eq_xor, hhalf, Nat.zero_xor]
    split
    · rw [Nat.xor_comm, Nat.xor_one_of_even (even_two_mul _)]
      omega
    · rw [Nat.zero_xor]
      omega

theorem gfMul_gfTimesX (a b : Nat) : gfMul F (gfTimesX F a) b = gfTimesX F (gfMul F a b) := by
  rw [gfMul, gfMul, ← gfMulLoop_gfTimesX, gfTimesX_zero]

theorem gfMul_one_left {b : Nat} (hb : b < F.q) : gfMul F 1 b = b := gfMulLoop_one le_rfl hb

theorem gfMul_two (hm : 2 ≤ F.m) (a : Nat) : gfMul F a 2 = gfTimesX F a := by
  obtain ⟨k, hk⟩ := Nat.exists_eq_add_of_le' hm
  simp [gfMul, hk, gfMulLoop]

/-! #### The powers of α (rule R162) -/

theorem alphaPow_succ (hm : 2 ≤ F.m) (e : Nat) : alphaPow F (e + 1) = gfTimesX F (alphaPow F e) :=
  gfMul_two hm _

theorem alphaPow_lt (hm : 2 ≤ F.m) (hF : DegreeLegal F) (e : Nat) : alphaPow F e < F.q := by
  induction e with
  | zero => exact Nat.one_lt_two_pow (by omega)
  | succ e ih => exact alphaPow_succ hm e ▸ gfTimesX_lt hF ih

theorem alphaPow_add (hm : 2 ≤ F.m) (hF : DegreeLegal F) (a b : Nat) :
    alphaPow F (a + b) = gfMul F (alphaPow F a) (alphaPow F b) := by
  induction a with
  | zero => rw [Nat.zero_add, alphaPow, gfMul_one_left (alphaPow_lt hm hF b)]
  | succ a ih => rw [Nat.succ_add, alphaPow_succ hm, alphaPow_succ hm, ih, gfMul_gfTimesX]

/-- α^e by `k` squarings, one for each bit of e; `alphaPow` itself takes e multiplications. -/
def alphaPowSq (F : GF) : Nat → Nat → Nat
  | 0, _ => 1
  | k + 1, e =>
    let s := alphaPowSq F k (e / 2)
    if e % 2 = 1 then gfTimesX F (gfMul F s s) else gfMul F s s

theorem alphaPowSq_eq_alphaPow (hm : 2 ≤ F.m) (hF : DegreeLegal F) {k e : Nat} (he : e < 2 ^ k) :
    alphaPowSq F k e = alphaPow F e := by
  induction k generalizing e with
  | zero =>
    obtain rfl : e = 0 := by simpa using he
    rfl
  | succ k ih =>
    simp only [alphaPowSq, ih (e := e / 2) (by omega), ← alphaPow_add hm hF, ← alphaPow_succ hm]
    split <;> congr 1 <;> omega

/-! #### The order of α (rule R160) -/

theorem alphaPow_eq_iterate (e : Nat) : alphaPow F e = (gfMul F · 2)^[e] 1 := by
  induction e with
  | zero => rfl
  | succ e ih => rw [alphaPow, ih, Function.iterate_succ_apply']

theorem alphaPow_gcd_eq_one {d e : Nat} (hd : alphaPow F d = 1) (he : alphaPow F e = 1) :
    alphaPow F (d.gcd e) = 1 := by
  rw [alphaPow_eq_iterate] at *
  exact Function.IsPeriodicPt.gcd hd he

/-- An exponent below q − 1 with power 1 has a gcd with q − 1 that is such an exponent too, and a proper
divisor of q − 1. -/
theorem fieldLegal_of_properDivisors (hF : DegreeLegal F) (hone : alphaPow F (F.q - 1) = 1)
    (hne : ∀ d ∈ (F.q - 1).properDivisors, alphaPow F d ≠ 1) : FieldLegal F := by
  refine ⟨hF, hone, fun e hpos hlt he => ?_⟩
  have hgcd : e.gcd (F.q - 1) ∈ (F.q - 1).properDivisors :=
    Nat.mem_properDivisors.mpr ⟨Nat.gcd_dvd_right _ _, (Nat.gcd_le_left _ hpos).trans_lt hlt⟩
  exact hne _ hgcd (alphaPow_gcd_eq_one he hone)

theorem fieldLegal_of_alphaPowSq (hm : 2 ≤ F.m) (hF : DegreeLegal F)
    (hone : alphaPowSq F F.m (F.q - 1) = 1)
    (hne : ∀ d ∈ (F.q - 1).properDivisors, alphaPowSq F F.m d ≠ 1) : FieldLegal F := by
  have hq : F.q - 1 < 2 ^ F.m := Nat.sub_one_lt_of_lt (Nat.two_pow_pos _)
  refine fieldLegal_of_properDivisors hF (alphaPowSq_eq_alphaPow hm hF hq ▸ hone) fun d hd => ?_
  have hdq : d < F.q - 1 := (Nat.mem_properDivisors.mp hd).2
  exact alphaPowSq_eq_alphaPow hm hF (hdq.trans hq) ▸ hne d hd

end Field

/-! ### The parameters of `State.reset` (00_scope.md rules R6 and R7) -/

theorem two_le_field_m (p : Params) (f : BitVec 2) : 2 ≤ (p.field f).m := by
  have hwidth : ∀ f, 2 ≤ codewordWidth f := by decide
  exact hwidth f

theorem reset_degreeLegal (f : BitVec 2) : DegreeLegal (State.reset.params.field f) := by
  revert f
  unfold DegreeLegal
  decide

/-- The kernel's evaluation of α^(q−1) and of α^d for the proper divisors d of 63, 255, 1023 and 4095. -/
theorem reset_alphaPowSq (f : BitVec 2) :
    let F := State.reset.params.field f
    alphaPowSq F F.m (F.q - 1) = 1 ∧ ∀ d ∈ (F.q - 1).properDivisors, alphaPowSq F F.m d ≠ 1 := by
  revert f
  decide +kernel

theorem reset_fieldLegal (f : BitVec 2) : FieldLegal (State.reset.params.field f) := by
  obtain ⟨hone, hne⟩ := reset_alphaPowSq f
  exact fieldLegal_of_alphaPowSq (two_le_field_m _ f) (reset_degreeLegal f) hone hne

/-- Settles O31: the parameters are read off `State.reset`; in each of its fields no proper divisor of
q − 1 is an exponent with power 1, so 2 has order q − 1. -/
theorem defaultParametersArePrimitive : Obligations.DefaultParametersArePrimitive :=
  ⟨rfl, reset_fieldLegal⟩

end Sys2Proof.Machine

/-! ### The laws of `gf_mul` (42_reed_solomon.md rules R160 and R161)

`gfMul` takes its second factor bit by bit; because `gfTimesX` is linear it can be taken bit by bit in the
first one just so. Commutativity and associativity follow by induction on the bits of the first factor. -/

namespace Sys2Proof.Machine

section Field

variable {F : GF}

theorem xor_lt_q {a b : Nat} (ha : a < F.q) (hb : b < F.q) : a ^^^ b < F.q :=
  Nat.xor_lt_two_pow ha hb

theorem gfMulLoop_lt (hF : DegreeLegal F) (k b : Nat) {a r : Nat} (ha : a < F.q) (hr : r < F.q) :
    gfMulLoop F k a b r < F.q := by
  induction k generalizing a b r with
  | zero => exact hr
  | succ k ih =>
    refine ih _ (gfTimesX_lt hF ha) ?_
    split
    · exact xor_lt_q hr ha
    · exact hr

theorem gfMul_lt (hF : DegreeLegal F) {a : Nat} (ha : a < F.q) (b : Nat) : gfMul F a b < F.q :=
  gfMulLoop_lt hF _ _ ha (Nat.two_pow_pos _)

/-! #### The second factor bit by bit -/

/-- A pass for a bit that b does not have adds nothing. -/
theorem gfMulLoop_succ_of_lt {k b : Nat} (hb : b < 2 ^ k) (a r : Nat) :
    gfMulLoop F (k + 1) a b r = gfMulLoop F k a b r := by
  induction k generalizing a b r with
  | zero =>
    obtain rfl : b = 0 := by simpa using hb
    simp
  | succ k ih => rw [gfMulLoop, ih (by omega), ← gfMulLoop]

theorem gfMul_bit_right (a : Nat) {b : Nat} (hb : b < F.q) :
    gfMul F a b = gfTimesX F (gfMul F a (b / 2)) ^^^ if b % 2 = 1 then a else 0 := by
  have hloop : gfMul F a b = gfMulLoop F (F.m + 1) a b 0 := (gfMulLoop_succ_of_lt hb a 0).symm
  rw [hloop, gfMulLoop, gfMulLoop_eq_xor, ← gfMul_gfTimesX, gfMul, Nat.xor_comm, Nat.zero_xor]

@[simp] theorem gfMul_zero_right (a : Nat) : gfMul F a 0 = 0 := gfMulLoop_zero_right _ _ _

/-! #### The first factor bit by bit -/

theorem gfMulLoop_xor_left (k a a' b r r' : Nat) :
    gfMulLoop F k (a ^^^ a') b (r ^^^ r') = gfMulLoop F k a b r ^^^ gfMulLoop F k a' b r' := by
  induction k generalizing a a' b r r' with
  | zero => rfl
  | succ k ih =>
    rw [gfMulLoop, gfMulLoop, gfMulLoop, gfTimesX_xor, ← ih]
    congr 1
    split <;> ac_rfl

theorem gfMul_xor_left (a a' b : Nat) : gfMul F (a ^^^ a') b = gfMul F a b ^^^ gfMul F a' b :=
  gfMulLoop_xor_left F.m a a' b 0 0

@[simp] theorem gfMul_zero_left (b : Nat) : gfMul F 0 b = 0 := by
  simpa using gfMul_xor_left (F := F) 0 0 b

theorem gfMul_bit_left {a b : Nat} (ha : a < F.q) (hb : b < F.q) :
    gfMul F a b = gfTimesX F (gfMul F (a / 2) b) ^^^ if a % 2 = 1 then b else 0 := by
  have hbits : a = gfTimesX F (a / 2) ^^^ a % 2 := by
    rw [gfTimesX_of_lt (by omega)]
    obtain h | h := Nat.mod_two_eq_zero_or_one a
    · rw [h, Nat.xor_zero]
      omega
    · rw [h, Nat.xor_one_of_even (even_two_mul _)]
      omega
  conv_lhs => rw [hbits, gfMul_xor_left, gfMul_gfTimesX]
  obtain h | h := Nat.mod_two_eq_zero_or_one a
  · simp [h]
  · simp [h, gfMul_one_left hb]

/-! #### The laws -/

theorem gfMul_comm {a b : Nat} (ha : a < F.q) (hb : b < F.q) : gfMul F a b = gfMul F b a := by
  induction a using Nat.div2Induction with
  | ind a ih =>
    obtain rfl | hpos := a.eq_zero_or_pos
    · simp
    · rw [gfMul_bit_left ha hb, ih hpos (by omega), ← gfMul_bit_right b ha]

theorem gfMul_assoc (hF : DegreeLegal F) {a b : Nat} (ha : a < F.q) (hb : b < F.q) (c : Nat) :
    gfMul F (gfMul F a b) c = gfMul F a (gfMul F b c) := by
  induction a using Nat.div2Induction with
  | ind a ih =>
    obtain rfl | hpos := a.eq_zero_or_pos
    · simp
    · rw [gfMul_bit_left ha hb, gfMul_xor_left, gfMul_gfTimesX, ih hpos (by omega),
        gfMul_bit_left ha (gfMul_lt hF hb c)]
      congr 1
      split <;> simp

theorem gfMul_xor_right {a b c : Nat} (ha : a < F.q) (hb : b < F.q) (hc : c < F.q) :
    gfMul F a (b ^^^ c) = gfMul F a b ^^^ gfMul F a c := by
  rw [gfMul_comm ha (xor_lt_q hb hc), gfMul_xor_left, gfMul_comm hb ha, gfMul_comm hc ha]

theorem gfTimesX_eq_ite (hm : 1 ≤ F.m) {a : Nat} (ha : a < F.q) :
    gfTimesX F a = if a < 2 ^ (F.m - 1) then 2 * a else 2 * a ^^^ F.prim := by
  obtain ⟨k, hk⟩ := Nat.exists_eq_add_of_le' hm
  rw [GF.q, hk] at ha
  simp only [gfTimesX, hk, Nat.add_sub_cancel]
  split_ifs with htop hsmall hsmall
  · simp [Nat.testBit_lt_two_pow (x := 2 * a) (i := k + 1) (by omega)] at htop
  · rfl
  · rfl
  · exact absurd (Nat.testBit_of_two_pow_le_and_two_pow_add_one_gt (by omega) (by omega)) htop

end Field

/-- Settles O30: the fields are read off `Params.field`; the product by 2 is one pass of the loop, and the
ring laws are those of multiplication bit by bit. -/
theorem fieldMultiplicationLaws : Obligations.FieldMultiplicationLaws := by
  intro p
  refine ⟨⟨rfl, rfl, rfl, rfl, fun _ => rfl⟩, fun f a b c => ⟨rfl, fun ha => ?_, fun hF ha hb hc => ?_⟩⟩
  · have hm := two_le_field_m p f
    rw [gfMul_two hm, gfTimesX_eq_ite (by omega) ha]
  · exact ⟨gfMul_lt hF ha b, gfMul_comm ha hb, gfMul_assoc hF ha hb c, gfMul_xor_right ha hb hc,
      gfMul_one_left hb, gfMul_zero_left b⟩

end Sys2Proof.Machine

/-! ### What a step can do (60_exceptions.md rule R295) -/

namespace Sys2Proof.Machine

/-- Everything the next state of a step can be: the state itself where no word is to come; else, once the
word stands on the port, the answer of a refusal, of a command done or of a fault. -/
theorem step_cases {s t : State} (h : step s = .next t) :
    (s.port.pending = [] ∧ t = s) ∨ ∃ w rest, s.port.pending = w :: rest ∧
      ((s.block.fault = true ∧ t = refuse (present w rest s)) ∨
        (∃ i b d, decode w = .ok i ∧ effect s.params i s.block = .done b d ∧
          t = complete b d (present w rest s)) ∨
        ∃ c v, s.block.fault = false ∧ t = takeFault c v (present w rest s)) := by
  unfold step at h
  split at h
  case h_1 hp => exact .inl ⟨hp, by simpa using h.symm⟩
  case h_2 w rest hp =>
    refine .inr ⟨w, rest, hp, ?_⟩
    split at h
    case h_1 i hi =>
      obtain ⟨hf, -, he⟩ | ⟨b, d, hd, -, he⟩ | ⟨c, v, -, hf, he⟩ := exec_cases i (present w rest s)
      · exact .inl ⟨hf, by simpa [he] using h.symm⟩
      · exact .inr (.inl ⟨i, b, d, hi, hd, by simpa [he] using h.symm⟩)
      · exact .inr (.inr ⟨c, v, hf, by simpa [he] using h.symm⟩)
    case h_2 e _ =>
      obtain ⟨hf, he⟩ | ⟨hf, he⟩ := illegalWord_cases e (present w rest s)
      · exact .inl ⟨hf, by simpa [he] using h.symm⟩
      · exact .inr (.inr ⟨_, _, hf, by simpa [he] using h.symm⟩)

/-! ### What a completed command does to the block -/

/-- The block after a command that completes, with what its checks have made sure of. -/
inductive Completes (p : Params) (b : Block) : Instr → Block → Prop where
  | nop : Completes p b .nop b
  | getr {rs} : Completes p b (.getr rs) b
  /-- The commands that write their destination and nothing else. -/
  | setsReg {i r} (v : Word) (hr : destination i = some r) : Completes p b i (b.setReg r v)
  /-- APBITS, MAPRD, CWUNPK, UNSTUFF, TXENC. -/
  | pushes {i} (l : List Bool) (room : b.bitlen + l.length ≤ p.bitCap) :
      Completes p b i (b.pushBits l)
  | rscfg {rs} (v : BitVec 2) (empty : b.cwbuf = []) :
      Completes p b (.csrw rs .rscfg) { b with fsel := v }
  | bincfg {rs} (v : Word) (legal : bincfgLegal v = true) :
      Completes p b (.csrw rs .bincfg) { b with bincfg := v }
  | txcfg {rs} (v : Word) (legal : txcfgLegal v = true) :
      Completes p b (.csrw rs .txcfg) { b with txcfg := v }
  | clrerr : Completes p b .clrerr b.clearFault
  | srst : Completes p b .srst Block.reset
  | bclr : Completes p b .bclr { b with bitbuf := [], rdpos := 0 }
  | brwd : Completes p b .brwd { b with rdpos := 0 }
  | rdbits {rd n} (enough : n.toNat ≤ b.available) :
      Completes p b (.rdbits rd n) ((b.skipBits n.toNat).setRegNat rd (b.peekBits n.toNat))
  | rsenc {re} (room : b.cwbuf.length + b.regNat re ≤ p.cwCap) :
      Completes p b (.rsenc re)
        { b with cwbuf := b.cwbuf ++ toCodewords (parity (p.field b.fsel) b.cws (b.regNat re)) }
  | rsdec {rd re C e} (hC : rsDecode (p.field b.fsel) b.cws (b.regNat re) = some (C, e)) :
      Completes p b (.rsdec rd re) ({ b with cwbuf := toCodewords C }.setRegNat rd e)
  | cwclr : Completes p b .cwclr { b with cwbuf := [] }
  | cwap {rs} (fits : b.regNat rs < 2 ^ b.cwWidth) (room : b.cwbuf.length < p.cwCap) :
      Completes p b (.cwap rs) { b with cwbuf := b.cwbuf ++ toCodewords [b.regNat rs] }
  | cwwr {ri rs} (fits : b.regNat rs < 2 ^ b.cwWidth) :
      Completes p b (.cwwr ri rs)
        { b with cwbuf := b.cwbuf.set (b.regNat ri) (BitVec.ofNat 12 (b.regNat rs)) }
  | cwtrunc {rn} : Completes p b (.cwtrunc rn) { b with cwbuf := b.cwbuf.take (b.regNat rn) }
  | matdim {ry rx} (rows : 1 ≤ b.regNat ry ∧ b.regNat ry ≤ p.matMax)
      (cols : 1 ≤ b.regNat rx ∧ b.regNat rx ≤ p.matMax) :
      Completes p b (.matdim ry rx) { b with mrows := b.regNat ry, mcols := b.regNat rx, mat := [] }
  | matwr {ry rx rv} (v : Bool) (row : b.regNat ry < b.mrows) (col : b.regNat rx < b.mcols) :
      Completes p b (.matwr ry rx rv) (b.matSet (b.regNat ry) (b.regNat rx) v)
  | pathclr : Completes p b .pathclr { b with path := [] }
  | pathap {ry rx} (row : b.regNat ry < p.matMax) (col : b.regNat rx < p.matMax)
      (room : b.path.length < p.pathCap) :
      Completes p b (.pathap ry rx) { b with path := b.path ++ [⟨b.regNat ry, b.regNat rx⟩] }
  | mapwr (inside : b.badPathIndex = none) (enough : b.path.length ≤ b.available) :
      Completes p b .mapwr ((b.place b.path b.unread).skipBits b.path.length)
  | cwpack {rn} (enough : b.regNat rn * b.cwWidth ≤ b.available)
      (room : b.cwbuf.length + b.regNat rn ≤ p.cwCap) :
      Completes p b (.cwpack rn)
        ({ b with cwbuf := b.cwbuf ++ toCodewords (unpackBits b.cwWidth (b.regNat rn) b.unread) }.skipBits
          (b.regNat rn * b.cwWidth))
  | stuff (room : b.cwbuf.length + (stuffBits b.cwWidth b.unread.length b.unread).length ≤ p.cwCap) :
      Completes p b .stuff
        { b with
          cwbuf := b.cwbuf ++ toCodewords (stuffBits b.cwWidth b.unread.length b.unread)
          rdpos := b.bitlen }
  | modew {k w} (width : w.toNat ≤ 8) :
      Completes p b (.modew k w)
        { b with modew := b.modew.set k w, tbl := sparseErase (tblKey k 0) (tblKey k 256) b.tbl }
  | tblwr {ri re k code} (e : Entry) (valid : tblIndex b (b.reg ri) = some (k, code)) :
      Completes p b (.tblwr ri re) (b.tblSet k code e)
  | chclr : Completes p b .chclr { b with chbuf := [] }
  | chap {rs} (v : BitVec 10) (room : b.chbuf.length < p.chCap) :
      Completes p b (.chap rs) { b with chbuf := b.chbuf ++ [v] }
  | txdec (out : List (BitVec 10)) (n : Nat) (room : out.length ≤ p.chCap) :
      Completes p b .txdec { b with chbuf := out, rdpos := b.bitlen - n }

/-- A command that completes has passed its first check. -/
theorem done_of_check {c : Prop} [Decidable c] {x : FaultCode} {v : Nat} {r : Result} {b : Block}
    {d : Word} (h : (if c then .raise x v else r) = Result.done b d) : ¬c ∧ r = .done b d := by
  split at h
  · cases h
  · exact ⟨‹_›, h⟩

theorem csrWrite_done {p : Params} {b b' : Block} {d : Word} {rs : Reg} {csr : Csr} {v : Word}
    (h : csrWrite csr v b = .done b' d) : Completes p b (.csrw rs csr) b' := by
  cases csr with
  | rscfg =>
    obtain ⟨-, h⟩ := done_of_check h
    obtain ⟨hempty, h⟩ := done_of_check h
    cases h
    exact .rscfg _ (by simpa using hempty)
  | bincfg =>
    obtain ⟨hlegal, h⟩ := done_of_check h
    cases h
    exact .bincfg _ (by simpa using hlegal)
  | txcfg =>
    obtain ⟨hlegal, h⟩ := done_of_check h
    cases h
    exact .txcfg _ (by simpa using hlegal)
  | _ => cases h

theorem packBits_length (m : Nat) (l : List Nat) : (packBits m l).length = l.length * m := by
  induction l with
  | nil => simp [packBits]
  | cons c l ih => simp [packBits, ih, Nat.succ_mul, Nat.add_comm]

/-- A command whose rule ends in `done` completes. -/
theorem effect_done {p : Params} {i : Instr} {b b' : Block} {d : Word}
    (h : effect p i b = .done b' d) : Completes p b i b' := by
  cases i with
  | nop => cases h; exact .nop
  | getr => cases h; exact .getr
  | ldi | ldih | csrr | avail | bitoff => cases h; exact .setsReg _ rfl
  | csrw => exact csrWrite_done h
  | clrerr => cases h; exact .clrerr
  | srst => cases h; exact .srst
  | bclr => cases h; exact .bclr
  | brwd => cases h; exact .brwd
  | cwclr => cases h; exact .cwclr
  | pathclr => cases h; exact .pathclr
  | chclr => cases h; exact .chclr
  | rdbits =>
    obtain ⟨-, h⟩ := done_of_check h
    obtain ⟨henough, h⟩ := done_of_check h
    cases h
    exact .rdbits (not_lt.mp henough)
  | apbits =>
    obtain ⟨-, h⟩ := done_of_check h
    obtain ⟨hroom, h⟩ := done_of_check h
    cases h
    exact .pushes _ (by simpa using hroom)
  | rsenc =>
    obtain ⟨-, h⟩ := done_of_check h
    obtain ⟨hroom, h⟩ := done_of_check h
    cases h
    exact .rsenc (not_lt.mp hroom)
  | rsdec =>
    obtain ⟨-, h⟩ := done_of_check h
    obtain ⟨-, h⟩ := done_of_check h
    split at h
    · cases h
    · cases h
      exact .rsdec ‹_›
  | cwap =>
    obtain ⟨hfits, h⟩ := done_of_check h
    obtain ⟨hroom, h⟩ := done_of_check h
    cases h
    exact .cwap (not_le.mp hfits) (not_le.mp hroom)
  | cwrd | tblrd | chrd =>
    simp only [effect, cwrd, tblrd, chrd] at h
    split at h
    · cases h
    · cases h
      exact .setsReg _ rfl
  | cwwr =>
    obtain ⟨-, h⟩ := done_of_check h
    obtain ⟨hfits, h⟩ := done_of_check h
    cases h
    exact .cwwr (not_le.mp hfits)
  | cwtrunc =>
    obtain ⟨-, h⟩ := done_of_check h
    cases h
    exact .cwtrunc
  | matdim =>
    obtain ⟨hrows, h⟩ := done_of_check h
    obtain ⟨hcols, h⟩ := done_of_check h
    cases h
    exact .matdim (by omega) (by omega)
  | matwr =>
    obtain ⟨hrow, h⟩ := done_of_check h
    obtain ⟨hcol, h⟩ := done_of_check h
    cases h
    exact .matwr _ (not_le.mp hrow) (not_le.mp hcol)
  | matrd =>
    obtain ⟨-, h⟩ := done_of_check h
    obtain ⟨-, h⟩ := done_of_check h
    cases h
    exact .setsReg _ rfl
  | pathap =>
    obtain ⟨hrow, h⟩ := done_of_check h
    obtain ⟨hcol, h⟩ := done_of_check h
    obtain ⟨hroom, h⟩ := done_of_check h
    cases h
    exact .pathap (not_le.mp hrow) (not_le.mp hcol) (not_le.mp hroom)
  | maprd =>
    simp only [effect, maprd] at h
    split at h
    · cases h
    · obtain ⟨hroom, h⟩ := done_of_check h
      cases h
      exact .pushes _ (by simpa [Block.pathBits] using hroom)
  | mapwr =>
    simp only [effect, mapwr] at h
    split at h
    · cases h
    · obtain ⟨henough, h⟩ := done_of_check h
      cases h
      exact .mapwr ‹_› (not_lt.mp henough)
  | cwpack =>
    obtain ⟨henough, h⟩ := done_of_check h
    obtain ⟨hroom, h⟩ := done_of_check h
    cases h
    exact .cwpack (not_lt.mp henough) (not_lt.mp hroom)
  | cwunpk =>
    obtain ⟨hroom, h⟩ := done_of_check h
    cases h
    exact .pushes _ (by simpa [packBits_length, Block.cws] using hroom)
  | stuff =>
    obtain ⟨hroom, h⟩ := done_of_check h
    cases h
    exact .stuff (not_lt.mp hroom)
  | unstuff =>
    simp only [effect, unstuff] at h
    split at h
    · cases h
    · obtain ⟨hroom, h⟩ := done_of_check h
      cases h
      exact .pushes _ (not_lt.mp hroom)
  | modew k w =>
    obtain ⟨hwidth, h⟩ := done_of_check h
    have hrange : 1 ≤ w.toNat ∧ w.toNat ≤ 8 := by simpa [codeWidthOk] using hwidth
    cases h
    exact .modew hrange.2
  | tblwr =>
    simp only [effect, tblwr] at h
    split at h
    · cases h
    · split at h
      · cases h
      · cases h
        exact .tblwr _ ‹_›
  | chap =>
    obtain ⟨hroom, h⟩ := done_of_check h
    cases h
    exact .chap _ (not_le.mp hroom)
  | txdec =>
    obtain ⟨-, h⟩ := done_of_check h
    split at h
    · cases h
    · obtain ⟨hroom, h⟩ := done_of_check h
      cases h
      exact .txdec _ _ (not_lt.mp hroom)
  | txenc =>
    obtain ⟨-, h⟩ := done_of_check h
    split at h
    · cases h
    · obtain ⟨hroom, h⟩ := done_of_check h
      cases h
      exact .pushes _ (not_lt.mp hroom)

/-! ### What completion leaves as it was -/

/-- Placing bits along a path changes MAT only. -/
theorem place_eq (b : Block) (cs : List Coord) (vs : List Bool) :
    b.place cs vs = { b with mat := (b.place cs vs).mat } := by
  induction cs generalizing b vs with
  | nil => rfl
  | cons c cs ih =>
    cases vs with
    | nil => rfl
    | cons v vs => exact ih (b.matSet c.y c.x v) vs

@[simp] theorem place_regs (b : Block) (cs : List Coord) (vs : List Bool) :
    (b.place cs vs).regs = b.regs := by
  rw [place_eq]

@[simp] theorem place_fault (b : Block) (cs : List Coord) (vs : List Bool) :
    (b.place cs vs).fault = b.fault := by
  rw [place_eq]

@[simp] theorem place_available (b : Block) (cs : List Coord) (vs : List Bool) :
    (b.place cs vs).available = b.available := by
  rw [place_eq]
  rfl

/-- STATUS.FAULT after a command that completes (10_state.md rule R23). -/
theorem Completes.fault_eq {p : Params} {i : Instr} {b b' : Block} (h : Completes p b i b') :
    b'.fault = b.fault ∨ b'.fault = false ∧ (i = .clrerr ∨ i = .srst) := by
  cases h with
  | clrerr => exact .inr ⟨rfl, .inl rfl⟩
  | srst => exact .inr ⟨rfl, .inr rfl⟩
  | mapwr => exact .inl (by simp)
  | _ => exact .inl rfl

/-- A register that is not the destination, after a command that completes (10_state.md rule R21). -/
theorem Completes.reg_eq {p : Params} {i : Instr} {b b' : Block} {r : Reg} (h : Completes p b i b')
    (hr : destination i ≠ some r) (hi : i ≠ .srst) : b'.reg r = b.reg r := by
  cases h with
  | setsReg v hd => exact reg_setReg_other _ _ _ _ fun e => hr (e ▸ hd)
  | rdbits | rsdec => exact reg_setRegNat_other _ _ _ _ fun e => hr (e ▸ rfl)
  | srst => exact absurd rfl hi
  | mapwr => simp [Block.reg]
  | _ => rfl

/-- Settles O12, by the cases of a step: a refusal keeps STATUS.FAULT, a completed command sets it never
and clears it as CLRERR or SRST, and a fault taken sets it. -/
theorem faultFlagChangesOnlyByFaultClrerrSrst :
    Obligations.FaultFlagChangesOnlyByFaultClrerrSrst := by
  intro s t h
  obtain ⟨-, rfl⟩ | ⟨w, rest, hp, ⟨-, rfl⟩ | ⟨i, b, d, hi, hd, rfl⟩ | ⟨c, v, hf, rfl⟩⟩ := step_cases h
  · simp +contextual
  · simp +contextual
  · obtain hkeep | ⟨hclear, hcmd⟩ := (effect_done hd).fault_eq
    · simp +contextual [hkeep]
    · refine ⟨fun _ hset => ?_, fun _ _ => ⟨w, rest, hp, ?_⟩⟩
      · simp [hclear] at hset
      · simpa [hi] using hcmd
  · exact ⟨fun _ _ => ⟨c, rfl, rfl⟩, fun hset => by simp [hf] at hset⟩

/-- Settles O13, by the cases of `exec`: only a completed command can write a register. -/
theorem registersChangeOnlyAsDestinations : Obligations.RegistersChangeOnlyAsDestinations := by
  intro i s t r h hr hi
  obtain ⟨-, -, he⟩ | ⟨b, d, hd, -, he⟩ | ⟨c, v, -, -, he⟩ := exec_cases i s
  all_goals
    rw [he, Host.Outcome.next.injEq] at h
    subst h
  · rfl
  · exact (effect_done hd).reg_eq hr hi
  · rfl

end Sys2Proof.Machine

/-! ### The invariant of 10_state.md rule R45 under each update of the block -/

namespace Sys2Proof.Machine

/-- The reset block meets the invariant whatever the parameters. -/
theorem reset_inv (p : Params) : Block.reset.Inv p where
  rdpos_le := le_rfl
  bitlen_le := Nat.zero_le _
  cwlen_le := Nat.zero_le _
  cw_lt := by simp [Block.reset]
  dims := .inl ⟨rfl, rfl⟩
  pathlen_le := Nat.zero_le _
  chlen_le := Nat.zero_le _
  path_lt := by simp [Block.reset]
  width_le := by decide
  record_clear := by decide
  record_set := by decide
  bincfg_legal := by decide
  txcfg_legal := by decide
  memory_wf := rfl
  mat_valid := by simp [Block.reset]
  tbl_valid := by simp [Block.reset]

theorem reset_legal : State.reset.params.Legal where
  bitCap_range := by decide
  cwCap_lt := by decide
  matMax_range := by decide
  pathCap_pos := by decide
  chCap_pos := by decide
  degree := reset_degreeLegal

/-- Settles O17: the reset block meets the invariant, and the default parameters are legal. -/
theorem resetMeetsTheInvariant : Obligations.ResetMeetsTheInvariant :=
  ⟨fun p hp => ⟨hp, reset_inv p⟩, reset_legal, reset_inv _⟩

/-- Settles O16: every field of `Block.reset` a register or CSR reads is read off. -/
theorem resetValues : Obligations.ResetValues := by
  intro p
  refine ⟨fun r => ?_, fun c => ?_⟩
  · simp [Block.reg, State.resetWith, Block.reset]
  · cases c with
    | modew k => simp [csrRead, State.resetWith, Block.reset]
    | _ => rfl

section Inv

variable {p : Params} {b : Block} (hb : b.Inv p)
include hb

/-! #### Registers, the fault record, configuration -/

theorem Block.Inv.setReg (r : Reg) (v : Word) : (b.setReg r v).Inv p := { hb with }

theorem Block.Inv.setRegNat (r : Reg) (v : Nat) : (b.setRegNat r v).Inv p := hb.setReg r _

theorem Block.Inv.recordFault (c : FaultCode) (w : Word) (v : Nat) : (b.recordFault c w v).Inv p :=
  { hb with
    record_clear := nofun
    record_set := fun _ => (code_ne c).1 }

theorem Block.Inv.clearFault : b.clearFault.Inv p :=
  { hb with
    record_clear := fun _ => ⟨rfl, rfl, rfl⟩
    record_set := nofun }

theorem Block.Inv.setFsel (hempty : b.cwbuf = []) (v : BitVec 2) : { b with fsel := v }.Inv p :=
  { hb with cw_lt := by simp [hempty] }

/-! #### Bits -/

theorem Block.Inv.setRdpos {n : Nat} (hn : n ≤ b.bitlen) : { b with rdpos := n }.Inv p :=
  { hb with rdpos_le := hn }

theorem Block.Inv.skipBits {n : Nat} (hn : n ≤ b.available) : (b.skipBits n).Inv p := by
  have hle := hb.rdpos_le
  exact hb.setRdpos (by unfold Block.available at hn; omega)

theorem Block.Inv.pushBits {l : List Bool} (hroom : b.bitlen + l.length ≤ p.bitCap) :
    (b.pushBits l).Inv p := by
  have hlen : (b.pushBits l).bitlen = b.bitlen + l.length := by simp [Block.bitlen]
  exact { hb with
    rdpos_le := hlen ▸ hb.rdpos_le.trans (Nat.le_add_right _ _)
    bitlen_le := hlen ▸ hroom }

/-! #### Codewords -/

theorem Block.Inv.setCwbuf {l : List (BitVec 12)} (hlen : l.length ≤ p.cwCap)
    (hlt : ∀ c ∈ l, c.toNat < 2 ^ b.cwWidth) : { b with cwbuf := l }.Inv p :=
  { hb with cwlen_le := hlen, cw_lt := hlt }

omit hb in
theorem toCodewords_lt {m : Nat} {l : List Nat} (hl : ∀ v ∈ l, v < 2 ^ m) :
    ∀ c ∈ toCodewords l, c.toNat < 2 ^ m := by
  intro c hc
  obtain ⟨v, hv, rfl⟩ := List.mem_map.mp hc
  exact (BitVec.toNat_ofNat _ _).trans_le (Nat.mod_le _ _) |>.trans_lt (hl v hv)

theorem Block.Inv.appendCodewords {l : List Nat} (hroom : b.cwbuf.length + l.length ≤ p.cwCap)
    (hl : ∀ v ∈ l, v < 2 ^ b.cwWidth) : { b with cwbuf := b.cwbuf ++ toCodewords l }.Inv p := by
  refine hb.setCwbuf (by simpa [toCodewords] using hroom) fun c hc => ?_
  obtain hc | hc := List.mem_append.mp hc
  · exact hb.cw_lt c hc
  · exact toCodewords_lt hl c hc

theorem Block.Inv.cws_lt : ∀ v ∈ b.cws, v < 2 ^ b.cwWidth := by
  intro v hv
  obtain ⟨c, hc, rfl⟩ := List.mem_map.mp hv
  exact hb.cw_lt c hc

/-! #### Matrix and path -/

omit hb in
/-- A write lists no position but the one written. -/
theorem mem_sparseSet {α : Type} [DecidableEq α] {d v : α} {l : List (Nat × α)} {k : Nat}
    {kv : Nat × α} (h : kv ∈ sparseSet d l k v) : kv ∈ l ∨ kv.1 = k := by
  induction l with
  | nil =>
    simp only [sparseSet] at h
    split at h <;> simp_all
  | cons p l ih =>
    simp only [sparseSet] at h
    split_ifs at h
    · exact .inl h
    · obtain rfl | h := List.mem_cons.mp h
      · exact .inr rfl
      · exact .inl h
    · exact .inl (List.mem_cons_of_mem _ h)
    · obtain rfl | h := List.mem_cons.mp h
      · exact .inr rfl
      · exact .inl (List.mem_cons_of_mem _ h)
    · obtain rfl | h := List.mem_cons.mp h
      · exact .inl List.mem_cons_self
      · exact (ih h).imp_left (List.mem_cons_of_mem _)

theorem Block.Inv.setMatrix {rows cols : Nat} (hrows : 1 ≤ rows ∧ rows ≤ p.matMax)
    (hcols : 1 ≤ cols ∧ cols ≤ p.matMax) : { b with mrows := rows, mcols := cols, mat := [] }.Inv p :=
  { hb with
    dims := .inr ⟨hrows, hcols⟩
    memory_wf := matdim_memory_wf b rows cols hb.memory_wf
    mat_valid := nofun }

theorem Block.Inv.matSet {y x : Nat} (hy : y < b.mrows) (hx : x < b.mcols) (v : Bool) :
    (b.matSet y x v).Inv p :=
  { hb with
    memory_wf := matSet_memory_wf b y x v hb.memory_wf
    mat_valid := fun kv hkv =>
      (mem_sparseSet hkv).elim (hb.mat_valid kv) fun hk => ⟨y, x, hy, hx, hk⟩ }

omit hb in
theorem Block.Inv.place (hb : b.Inv p) {cs : List Coord} (hin : ∀ c ∈ cs, c.y < b.mrows ∧ c.x < b.mcols)
    (vs : List Bool) : (b.place cs vs).Inv p := by
  induction cs generalizing b vs with
  | nil => exact hb
  | cons c cs ih =>
    cases vs with
    | nil => exact hb
    | cons v vs =>
      obtain ⟨⟨hy, hx⟩, hcs⟩ := List.forall_mem_cons.mp hin
      exact ih (hb.matSet hy hx v) hcs vs

omit hb in
theorem inside_of_badPathIndex (h : b.badPathIndex = none) :
    ∀ c ∈ b.path, c.y < b.mrows ∧ c.x < b.mcols := by
  simpa [Block.badPathIndex, Block.outside] using h

theorem Block.Inv.setPath {l : List Coord} (hlen : l.length ≤ p.pathCap)
    (hlt : ∀ c ∈ l, c.y < p.matMax ∧ c.x < p.matMax) : { b with path := l }.Inv p :=
  { hb with pathlen_le := hlen, path_lt := hlt }

/-! #### Characters, modes, tables -/

theorem Block.Inv.setChbuf {l : List (BitVec 10)} (hlen : l.length ≤ p.chCap) :
    { b with chbuf := l }.Inv p :=
  { hb with chlen_le := hlen }

/-- The entries left after MODEW are of other modes, whose widths stay. -/
theorem Block.Inv.setMode (k : Mode) {w : BitVec 4} (hw : w.toNat ≤ 8) :
    { b with modew := b.modew.set k w, tbl := sparseErase (tblKey k 0) (tblKey k 256) b.tbl }.Inv p where
  __ := hb
  width_le := fun j => (width_set b k j w).trans_le <| by
    split
    · exact hw
    · exact hb.width_le j
  memory_wf := modew_memory_wf b _ _ _ hb.memory_wf
  tbl_valid := fun kv hkv => by
    obtain ⟨hold, hkept⟩ := List.mem_filter.mp hkv
    obtain ⟨j, code, hj, hcode, hkey⟩ := hb.tbl_valid kv hold
    have hcode8 : code < 256 := hcode.trans_le (Nat.pow_le_pow_right two_pos (hb.width_le j))
    have hjk : j ≠ k := by
      rintro rfl
      simp [hkey, tblKey, hcode8] at hkept
    have hwidth := (width_set b k j w).trans (if_neg hjk)
    exact ⟨j, code, ne_of_eq_of_ne hwidth hj, hcode.trans_eq (congrArg (2 ^ ·) hwidth.symm), hkey⟩

theorem Block.Inv.tblSet {k : Mode} {code : Nat} (hk : b.width k ≠ 0) (hcode : code < 2 ^ b.width k)
    (e : Entry) : (b.tblSet k code e).Inv p :=
  { hb with
    memory_wf := tblSet_memory_wf b k code e hb.memory_wf
    tbl_valid := fun kv hkv =>
      (mem_sparseSet hkv).elim (hb.tbl_valid kv) fun hkey => ⟨k, code, hk, hcode, hkey⟩ }

omit hb in
/-- A table index that names an entry names one of a defined mode (20_memory.md rule R70). -/
theorem defined_of_tblIndex {idx : Word} {k : Mode} {code : Nat}
    (h : tblIndex b idx = some (k, code)) : b.width k ≠ 0 ∧ code < 2 ^ b.width k := by
  simp only [tblIndex] at h
  split_ifs at h with hhigh hvalid
  cases h
  simpa using hvalid

end Inv

/-! ### Codewords that commands compute fit the codeword width

RSENC and RSDEC, for a PRIM_m of degree m: sums and products of field elements are field elements. -/

section Code

variable {F : GF}

theorem xorInto_length (ps r : List Nat) : (xorInto ps r).length = r.length := by
  induction ps generalizing r with
  | nil => rfl
  | cons q ps ih =>
    cases r with
    | nil => rfl
    | cons c r => simp [xorInto, ih]

theorem xorInto_lt {ps r : List Nat} (hps : ∀ c ∈ ps, c < F.q) (hr : ∀ c ∈ r, c < F.q) :
    ∀ c ∈ xorInto ps r, c < F.q := by
  induction ps generalizing r with
  | nil => exact hr
  | cons q ps ih =>
    cases r with
    | nil => nofun
    | cons c r =>
      obtain ⟨hq, hps⟩ := List.forall_mem_cons.mp hps
      obtain ⟨hc, hr⟩ := List.forall_mem_cons.mp hr
      exact List.forall_mem_cons.mpr ⟨xor_lt_q hc hq, ih hps hr⟩

theorem zipWith_xor_lt {l l' : List Nat} (hl : ∀ c ∈ l, c < F.q) (hl' : ∀ c ∈ l', c < F.q) :
    ∀ c ∈ List.zipWith (· ^^^ ·) l l', c < F.q := by
  induction l generalizing l' with
  | nil => nofun
  | cons a l ih =>
    cases l' with
    | nil => nofun
    | cons a' l' =>
      obtain ⟨ha, hl⟩ := List.forall_mem_cons.mp hl
      obtain ⟨ha', hl'⟩ := List.forall_mem_cons.mp hl'
      exact List.forall_mem_cons.mpr ⟨xor_lt_q ha ha', ih hl hl'⟩

theorem remLoop_length (g : List Nat) (k : Nat) (rem : List Nat) :
    (remLoop F g k rem).length = rem.length - k := by
  induction k generalizing rem with
  | zero => rfl
  | succ k ih =>
    cases rem with
    | nil => simp [remLoop]
    | cons f rem => simp [remLoop, ih, xorInto_length]

/-- The coefficients g[1 .. E] are multiplied by f, the products added to the remainder. -/
theorem remLoop_lt (hF : DegreeLegal F) {g : List Nat} (hg : ∀ c ∈ g, c < F.q) (k : Nat) {rem : List Nat}
    (hrem : ∀ c ∈ rem, c < F.q) : ∀ c ∈ remLoop F g k rem, c < F.q := by
  induction k generalizing rem with
  | zero => exact hrem
  | succ k ih =>
    cases rem with
    | nil => nofun
    | cons f rem =>
      refine ih (xorInto_lt ?_ (List.forall_mem_cons.mp hrem).2)
      exact List.forall_mem_map.mpr fun c hc => gfMul_lt hF (hg c (List.mem_of_mem_tail hc)) f

theorem genPoly_lt (hm : 2 ≤ F.m) (hF : DegreeLegal F) (E : Nat) : ∀ c ∈ genPoly F E, c < F.q := by
  have hzero : 0 < F.q := Nat.two_pow_pos _
  induction E with
  | zero => exact List.forall_mem_singleton.mpr (alphaPow_lt hm hF 0)
  | succ E ih =>
    refine zipWith_xor_lt ?_ (List.forall_mem_cons.mpr ⟨hzero, ?_⟩)
    · exact List.forall_mem_append.mpr ⟨ih, List.forall_mem_singleton.mpr hzero⟩
    · exact List.forall_mem_map.mpr fun c hc => gfMul_lt hF (ih c hc) _

@[simp] theorem parity_length (D : List Nat) (E : Nat) : (parity F D E).length = E := by
  simp [parity, remLoop_length]

theorem parity_lt (hm : 2 ≤ F.m) (hF : DegreeLegal F) {D : List Nat} (hD : ∀ c ∈ D, c < F.q)
    (E : Nat) : ∀ c ∈ parity F D E, c < F.q := by
  refine remLoop_lt hF (genPoly_lt hm hF E) _ (List.forall_mem_append.mpr ⟨hD, fun c hc => ?_⟩)
  exact (List.eq_of_mem_replicate hc).trans_lt (Nat.two_pow_pos _)

theorem errorValue_lt (hF : DegreeLegal F) (sigma omega : List Nat) {X : Nat} (hX : X < F.q) :
    errorValue F sigma omega X < F.q := by
  simp only [errorValue]
  split
  · exact gfMul_lt hF (gfMul_lt hF hX _) _
  · exact Nat.two_pow_pos _

theorem errorValues_lt (hm : 2 ≤ F.m) (hF : DegreeLegal F) (sigma omega : List Nat) (n : Nat) :
    ∀ c ∈ errorValues F sigma omega n, c < F.q :=
  List.forall_mem_map.mpr fun _ _ => errorValue_lt hF sigma omega (alphaPow_lt hm hF _)

/-- RSDEC leaves the word it was given, or adds error values to it. -/
theorem rsDecode_eq {R C : List Nat} {E e : Nat} (h : rsDecode F R E = some (C, e)) :
    C = R ∨ ∃ sigma omega, C = List.zipWith (· ^^^ ·) R (errorValues F sigma omega R.length) := by
  simp only [rsDecode] at h
  split_ifs at h
  · cases h
    exact .inl rfl
  · cases h
    exact .inr ⟨_, _, rfl⟩

theorem rsDecode_length {R C : List Nat} {E e : Nat} (h : rsDecode F R E = some (C, e)) :
    C.length = R.length := by
  obtain rfl | ⟨sigma, omega, rfl⟩ := rsDecode_eq h
  · rfl
  · simp [errorValues]

theorem rsDecode_lt (hm : 2 ≤ F.m) (hF : DegreeLegal F) {R C : List Nat} {E e : Nat}
    (hR : ∀ c ∈ R, c < F.q) (h : rsDecode F R E = some (C, e)) : ∀ c ∈ C, c < F.q := by
  obtain rfl | ⟨sigma, omega, rfl⟩ := rsDecode_eq h
  · exact hR
  · exact zipWith_xor_lt hR (errorValues_lt hm hF sigma omega _)

end Code

/-! ### Codewords that commands read from bits fit the codeword width: CWPACK and STUFF -/

theorem bitsVal_take_lt (m : Nat) (l : List Bool) : bitsVal (l.take m) < 2 ^ m :=
  (bitsVal_lt _).trans_le (Nat.pow_le_pow_right two_pos (List.length_take_le m l))

@[simp] theorem unpackBits_length (m c : Nat) (l : List Bool) : (unpackBits m c l).length = c := by
  induction c generalizing l with
  | zero => rfl
  | succ c ih => simp [unpackBits, ih]

theorem unpackBits_lt (m c : Nat) (l : List Bool) : ∀ v ∈ unpackBits m c l, v < 2 ^ m := by
  induction c generalizing l with
  | zero => nofun
  | succ c ih => exact List.forall_mem_cons.mpr ⟨bitsVal_take_lt m l, ih _⟩

theorem stuffBits_lt {m : Nat} (hm : 1 ≤ m) (k : Nat) (l : List Bool) :
    ∀ v ∈ stuffBits m k l, v < 2 ^ m := by
  have hone : 1 < 2 ^ m := Nat.one_lt_two_pow (by omega)
  induction k generalizing l with
  | zero => nofun
  | succ k ih =>
    cases l with
    | nil => nofun
    | cons v l =>
      simp only [stuffBits]
      split_ifs
      · exact List.forall_mem_cons.mpr ⟨by omega, ih _⟩
      · exact List.forall_mem_cons.mpr ⟨hone, ih _⟩
      · exact List.forall_mem_cons.mpr ⟨bitsVal_take_lt m _, ih _⟩

/-! ### Every step keeps the invariant -/

/-- A command that completes keeps the invariant. -/
theorem Completes.inv {p : Params} {i : Instr} {b b' : Block} (hp : p.Legal) (hb : b.Inv p)
    (h : Completes p b i b') : b'.Inv p := by
  have hm : 2 ≤ (p.field b.fsel).m := two_le_field_m p b.fsel
  have hF : DegreeLegal (p.field b.fsel) := hp.degree b.fsel
  have hcws : ∀ c ∈ b.cws, c < (p.field b.fsel).q := hb.cws_lt
  cases h with
  | nop | getr => exact hb
  | setsReg v => exact hb.setReg _ v
  | pushes l room => exact hb.pushBits room
  | rscfg v empty => exact hb.setFsel empty v
  | bincfg v legal => exact { hb with bincfg_legal := legal }
  | txcfg v legal => exact { hb with txcfg_legal := legal }
  | clrerr => exact hb.clearFault
  | srst => exact reset_inv p
  | bclr => exact { hb with rdpos_le := le_rfl, bitlen_le := Nat.zero_le _ }
  | brwd => exact hb.setRdpos (Nat.zero_le _)
  | rdbits enough => exact (hb.skipBits enough).setRegNat _ _
  | rsenc room => exact hb.appendCodewords (by simpa using room) (parity_lt hm hF hcws _)
  | rsdec hC =>
    have hlen := rsDecode_length hC
    refine (hb.setCwbuf ?_ (toCodewords_lt (rsDecode_lt hm hF hcws hC))).setRegNat _ _
    simpa [toCodewords, hlen, Block.cws] using hb.cwlen_le
  | cwclr => exact hb.setCwbuf (Nat.zero_le _) nofun
  | cwap fits room => exact hb.appendCodewords room (List.forall_mem_singleton.mpr fits)
  | cwwr fits =>
    refine hb.setCwbuf (by simpa using hb.cwlen_le) fun c hc => ?_
    obtain hc | rfl := List.mem_or_eq_of_mem_set hc
    · exact hb.cw_lt c hc
    · exact (Nat.mod_le _ _).trans_lt fits
  | cwtrunc =>
    exact hb.setCwbuf ((List.length_take_le' _ _).trans hb.cwlen_le) fun c hc =>
      hb.cw_lt c (List.mem_of_mem_take hc)
  | matdim rows cols => exact hb.setMatrix rows cols
  | matwr v row col => exact hb.matSet row col v
  | pathclr => exact hb.setPath (Nat.zero_le _) nofun
  | pathap row col room =>
    exact hb.setPath (by simpa using room)
      (List.forall_mem_append.mpr ⟨hb.path_lt, List.forall_mem_singleton.mpr ⟨row, col⟩⟩)
  | mapwr inside enough =>
    exact (hb.place (inside_of_badPathIndex inside) b.unread).skipBits (by simpa using enough)
  | cwpack enough room =>
    exact (hb.appendCodewords (by simpa using room) (unpackBits_lt _ _ _)).skipBits enough
  | stuff room =>
    have hwidth := codewordWidth_range b.fsel
    exact (hb.appendCodewords room (stuffBits_lt (by unfold Block.cwWidth; omega) _ _)).setRdpos le_rfl
  | modew width => exact hb.setMode _ width
  | tblwr e valid =>
    obtain ⟨hk, hcode⟩ := defined_of_tblIndex valid
    exact hb.tblSet hk hcode e
  | chclr => exact hb.setChbuf (Nat.zero_le _)
  | chap v room => exact hb.setChbuf (by simpa using room)
  | txdec out n room => exact (hb.setChbuf room).setRdpos (Nat.sub_le _ _)

/-- Settles O18, by the cases of a step: a refusal keeps the block, a completed command the invariant by
what its checks made sure of, and a fault writes the fault record only. -/
theorem everyStepKeepsTheInvariant : Obligations.EveryStepKeepsTheInvariant := by
  intro s t ⟨hp, hb⟩ h
  obtain ⟨-, rfl⟩ | ⟨w, rest, -, ⟨-, rfl⟩ | ⟨i, b, d, -, hd, rfl⟩ | ⟨c, v, -, rfl⟩⟩ := step_cases h
  · exact ⟨⟨hp, hb⟩, rfl⟩
  · exact ⟨⟨hp, hb⟩, rfl⟩
  · exact ⟨⟨hp, (effect_done hd).inv hp hb⟩, rfl⟩
  · exact ⟨⟨hp, hb.recordFault c _ v⟩, rfl⟩

end Sys2Proof.Machine

/-! ### Decoding (30_encoding.md rules R92 to R98)

The 40 rows of the decoder are gone through once (`decode_readsAs`): the op field of a word selects a
format, its reserved bits, and a command whose op, operands and well-formedness are the word's. What a
format reads is then one equation between operand bits and operands, which serves both directions. -/

namespace Sys2Proof.Machine

section Formats

variable {w : Word} {i : Instr}

theorem ite_eq_ok {c : Prop} [Decidable c] {j : Instr} {e : DecodeError} :
    (if c then .ok j else .error e) = Except.ok i ↔ c ∧ i = j := by
  split <;> simp [*, eq_comm]

theorem ofNumber_eq_some {n : Nat} {c : Csr} : Csr.ofNumber n = some c ↔ c.number = n := by
  constructor
  · intro h
    unfold Csr.ofNumber at h
    split at h
    case h_16 =>
      split at h
      · cases h
        simp only [Csr.number]
        omega
      · cases h
    all_goals
      cases h
      rfl
  · rintro rfl
    cases c with
    | modew k => revert k; decide
    | _ => rfl

/-! #### What each format reads (rules R93 and R94) -/

theorem formN_eq_ok {j : Instr} : formN w j = .ok i ↔ i = j ∧ bits w 23 0 = 0 := by
  rw [formN, ite_eq_ok, and_comm]

theorem formR_eq_ok {k : Reg → Instr} :
    formR w k = .ok i ↔ ∃ a : Reg, i = k a ∧ bits w 23 0 = a.val * 2 ^ 21 := by
  have fields (a : Reg) : bits w 23 0 = a.val * 2 ^ 21 ↔ fieldA w = a ∧ bits w 20 0 = 0 := by
    simp only [bits, fieldA, Fin.ext_iff]
    omega
  simp only [formR, ite_eq_ok, fields]
  simp [and_comm]

theorem formRR_eq_ok {k : Reg → Reg → Instr} :
    formRR w k = .ok i ↔ ∃ a b : Reg, i = k a b ∧ bits w 23 0 = a.val * 2 ^ 21 + b.val * 2 ^ 18 := by
  have fields (a b : Reg) : bits w 23 0 = a.val * 2 ^ 21 + b.val * 2 ^ 18 ↔
      fieldA w = a ∧ fieldB w = b ∧ bits w 17 0 = 0 := by
    simp only [bits, fieldA, fieldB, Fin.ext_iff]
    omega
  simp only [formRR, ite_eq_ok, fields]
  simp [and_comm]

theorem formRRR_eq_ok {k : Reg → Reg → Reg → Instr} :
    formRRR w k = .ok i ↔
      ∃ a b c : Reg, i = k a b c ∧ bits w 23 0 = a.val * 2 ^ 21 + b.val * 2 ^ 18 + c.val * 2 ^ 15 := by
  have fields (a b c : Reg) : bits w 23 0 = a.val * 2 ^ 21 + b.val * 2 ^ 18 + c.val * 2 ^ 15 ↔
      fieldA w = a ∧ fieldB w = b ∧ fieldC w = c ∧ bits w 14 0 = 0 := by
    simp only [bits, fieldA, fieldB, fieldC, Fin.ext_iff]
    omega
  simp only [formRRR, ite_eq_ok, fields]
  simp [and_comm]

theorem formRI_eq_ok {k : Reg → BitVec 16 → Instr} :
    formRI w k = .ok i ↔ ∃ a v, i = k a v ∧ bits w 23 0 = a.val * 2 ^ 21 + v.toNat := by
  have fields (a : Reg) (v : BitVec 16) : bits w 23 0 = a.val * 2 ^ 21 + v.toNat ↔
      fieldA w = a ∧ BitVec.ofNat 16 (bits w 15 0) = v ∧ bits w 20 16 = 0 := by
    simp only [bits, fieldA, Fin.ext_iff, ← BitVec.toNat_inj, BitVec.toNat_ofNat]
    omega
  simp only [formRI, ite_eq_ok, fields]
  simp [and_comm]

theorem formRN_eq_ok {k : Reg → BitVec 6 → Instr} :
    formRN w k = .ok i ↔
      ∃ a n, i = k a n ∧ bitCountOk n = true ∧ bits w 23 0 = a.val * 2 ^ 21 + n.toNat := by
  have fields (a : Reg) (n : BitVec 6) : bits w 23 0 = a.val * 2 ^ 21 + n.toNat ↔
      fieldA w = a ∧ BitVec.ofNat 6 (bits w 5 0) = n ∧ bits w 20 6 = 0 := by
    simp only [bits, fieldA, Fin.ext_iff, ← BitVec.toNat_inj, BitVec.toNat_ofNat]
    omega
  simp only [formRN, ite_eq_ok, fields]
  simp [and_comm]

theorem formRC_eq_ok {legal : Csr → Bool} {k : Reg → Csr → Instr} :
    formRC w legal k = .ok i ↔
      ∃ a c, i = k a c ∧ legal c = true ∧ bits w 23 0 = a.val * 2 ^ 21 + c.number := by
  have fields (a : Reg) (c : Csr) : bits w 23 0 = a.val * 2 ^ 21 + c.number ↔
      fieldA w = a ∧ Csr.ofNumber (bits w 7 0) = some c ∧ bits w 20 8 = 0 := by
    have hc : c.number < 2 ^ 8 := by cases c <;> simp only [Csr.number] <;> omega
    simp only [bits, fieldA, Fin.ext_iff, ofNumber_eq_some]
    omega
  simp only [formRC, fields]
  split
  · split <;> simp [ite_eq_ok, *, and_comm]
  · simp [*]

theorem formMW_eq_ok {k : Mode → BitVec 4 → Instr} :
    formMW w k = .ok i ↔
      ∃ a v, i = k a v ∧ codeWidthOk v = true ∧ bits w 23 0 = a.val * 2 ^ 21 + v.toNat := by
  have fields (a : Mode) (v : BitVec 4) : bits w 23 0 = a.val * 2 ^ 21 + v.toNat ↔
      fieldA w = a ∧ BitVec.ofNat 4 (bits w 3 0) = v ∧ bits w 20 4 = 0 := by
    simp only [bits, fieldA, Fin.ext_iff, ← BitVec.toNat_inj, BitVec.toNat_ofNat]
    omega
  simp only [formMW, ite_eq_ok, fields]
  simp [and_comm]

/-! #### The row of each op field (rule R96) -/

theorem writable_iff (c : Csr) :
    c.writable = true ↔ c.number = 0x08 ∨ c.number = 0x09 ∨ c.number = 0x0A := by
  cases c <;> simp [Csr.writable, Csr.number]
  omega

theorem reservedOperand_csrw (hop : opcodeOf w = 0x05) :
    reservedOperand w ↔ ∀ c : Csr, c.number = bits w 7 0 → c.writable = false := by
  simp only [reservedOperand, hop, Bool.eq_false_iff, ne_eq, writable_iff]
  constructor
  · rintro (⟨h, -⟩ | ⟨h, -⟩ | ⟨-, hnone⟩ | ⟨-, hother⟩) c hc
    · omega
    · omega
    · exact absurd hc (hnone c)
    · omega
  · intro h
    by_contra hlegal
    simp only [not_or, not_and, not_forall, not_not] at hlegal
    obtain ⟨-, -, hassigned, hwritable⟩ := hlegal
    obtain ⟨c, hc⟩ := hassigned (.inr trivial)
    have hthree := hwritable trivial
    exact h c hc (by omega)

/-- What a command shows of itself in a word: its op, its operand bits, and whether it is well formed. -/
def HasFields (i : Instr) (op operands : Nat) (wf : Bool) : Prop :=
  i.opcode = op ∧ i.operands = operands ∧ i.wf = wf

/-- The reading of w by the row of its op field: the reserved-zero mask of the row's format, and what the
format reads; `row` ties the command to w, `free` and `reserved` say which operands rule R98 reserves. -/
inductive ReadsAs (w : Word) : Option Nat → Except DecodeError Instr → Prop where
  | n {j} (row : HasFields j (opcodeOf w) 0 true) (free : ¬reservedOperand w) :
      ReadsAs w (some 0x00FFFFFF) (formN w j)
  | r {k} (row : ∀ a : Reg, HasFields (k a) (opcodeOf w) (a.val * 2 ^ 21) true)
      (free : ¬reservedOperand w) : ReadsAs w (some 0x001FFFFF) (formR w k)
  | rr {k} (row : ∀ a b : Reg, HasFields (k a b) (opcodeOf w) (a.val * 2 ^ 21 + b.val * 2 ^ 18) true)
      (free : ¬reservedOperand w) : ReadsAs w (some 0x0003FFFF) (formRR w k)
  | rrr {k} (row : ∀ a b c : Reg,
        HasFields (k a b c) (opcodeOf w) (a.val * 2 ^ 21 + b.val * 2 ^ 18 + c.val * 2 ^ 15) true)
      (free : ¬reservedOperand w) : ReadsAs w (some 0x00007FFF) (formRRR w k)
  | ri {k} (row : ∀ (a : Reg) v, HasFields (k a v) (opcodeOf w) (a.val * 2 ^ 21 + v.toNat) true)
      (free : ¬reservedOperand w) : ReadsAs w (some 0x001F0000) (formRI w k)
  | rn {k}
      (row : ∀ (a : Reg) n, HasFields (k a n) (opcodeOf w) (a.val * 2 ^ 21 + n.toNat) (bitCountOk n))
      (reserved : reservedOperand w ↔ bits w 5 0 = 0 ∨ 32 < bits w 5 0) :
      ReadsAs w (some 0x001FFFC0) (formRN w k)
  | rc {legal k}
      (row : ∀ (a : Reg) c, HasFields (k a c) (opcodeOf w) (a.val * 2 ^ 21 + c.number) (legal c))
      (reserved : reservedOperand w ↔ ∀ c : Csr, c.number = bits w 7 0 → legal c = false) :
      ReadsAs w (some 0x001FFF00) (formRC w legal k)
  | mw {k}
      (row : ∀ (a : Mode) v, HasFields (k a v) (opcodeOf w) (a.val * 2 ^ 21 + v.toNat) (codeWidthOk v))
      (reserved : reservedOperand w ↔ bits w 3 0 = 0 ∨ 8 < bits w 3 0) :
      ReadsAs w (some 0x001FFFF0) (formMW w k)
  | unassigned : ReadsAs w none (.error .opcode)

theorem decode_readsAs (w : Word) : ReadsAs w (reservedZero (opcodeOf w)) (decode w) := by
  unfold decode
  split
  case h_41 =>
    have hnone : reservedZero (opcodeOf w) = none := by simp_all [reservedZero]
    rw [hnone]
    exact .unassigned
  case h_6 hop =>
    rw [hop]
    exact .rc (fun _ _ => ⟨hop.symm, rfl, rfl⟩) (reservedOperand_csrw hop)
  all_goals
    rename_i hop
    rw [hop]
    constructor
    · intros
      exact ⟨hop.symm, rfl, rfl⟩
    · simp [reservedOperand, hop]

/-! #### Words that decode -/

theorem ReadsAs.hasFields {mask : Option Nat} {r : Except DecodeError Instr} (h : ReadsAs w mask r)
    (hi : r = .ok i) : HasFields i (opcodeOf w) (bits w 23 0) true := by
  cases h with
  | n row =>
    obtain ⟨rfl, hw⟩ := formN_eq_ok.mp hi
    rwa [hw]
  | r row =>
    obtain ⟨a, rfl, hw⟩ := formR_eq_ok.mp hi
    exact hw ▸ row a
  | rr row =>
    obtain ⟨a, b, rfl, hw⟩ := formRR_eq_ok.mp hi
    exact hw ▸ row a b
  | rrr row =>
    obtain ⟨a, b, c, rfl, hw⟩ := formRRR_eq_ok.mp hi
    exact hw ▸ row a b c
  | ri row =>
    obtain ⟨a, v, rfl, hw⟩ := formRI_eq_ok.mp hi
    exact hw ▸ row a v
  | rn row =>
    obtain ⟨a, n, rfl, hn, hw⟩ := formRN_eq_ok.mp hi
    exact hw ▸ hn ▸ row a n
  | rc row =>
    obtain ⟨a, c, rfl, hc, hw⟩ := formRC_eq_ok.mp hi
    exact hw ▸ hc ▸ row a c
  | mw row =>
    obtain ⟨a, v, rfl, hv, hw⟩ := formMW_eq_ok.mp hi
    exact hw ▸ hv ▸ row a v
  | unassigned => cases hi

theorem bits_encode (i : Instr) : bits (encode i) 23 0 = i.operands := by
  have hlt := Laws.operands_lt i
  rw [bits, Laws.encode_toNat]
  omega

end Formats

/-- Settles O1: the op field of the encoded word selects the command's row, and its format reads the
operands back. -/
theorem decodeOfEncodeIsTheCommand : Obligations.DecodeOfEncodeIsTheCommand := by
  intro i hwf
  have hw := bits_encode i
  cases i
  all_goals simp only [decode, Laws.opcodeOf_encode, Instr.opcode]
  case nop | clrerr | srst | bclr | brwd | cwclr | pathclr | maprd | mapwr | cwunpk | stuff | unstuff
    | chclr | txdec | txenc => exact formN_eq_ok.mpr ⟨rfl, hw⟩
  case getr | avail | bitoff | rsenc | cwap | cwtrunc | cwpack | chap =>
    exact formR_eq_ok.mpr ⟨_, rfl, hw⟩
  case rsdec | cwrd | cwwr | matdim | pathap | tblwr | tblrd | chrd =>
    exact formRR_eq_ok.mpr ⟨_, _, rfl, hw⟩
  case matwr | matrd => exact formRRR_eq_ok.mpr ⟨_, _, _, rfl, hw⟩
  case ldi | ldih => exact formRI_eq_ok.mpr ⟨_, _, rfl, hw⟩
  case rdbits | apbits => exact formRN_eq_ok.mpr ⟨_, _, rfl, hwf, hw⟩
  case csrr => exact formRC_eq_ok.mpr ⟨_, _, rfl, rfl, hw⟩
  case csrw => exact formRC_eq_ok.mpr ⟨_, _, rfl, hwf, hw⟩
  case modew => exact formMW_eq_ok.mpr ⟨_, _, rfl, hwf, hw⟩

/-- Settles O2: the op and the operand bits of the word are those of the command it decodes to, and they
are all its bits. -/
theorem encodeOfDecodeIsTheWord : Obligations.EncodeOfDecodeIsTheWord := by
  intro w i h
  obtain ⟨hop, hoperands, hwf⟩ := (decode_readsAs w).hasFields h
  refine ⟨BitVec.eq_of_toNat_eq ?_, hwf⟩
  rw [Laws.encode_toNat, hop, hoperands]
  simp only [opcodeOf, bits]
  omega

/-- Settles O3, by evaluating the decoder and the encoder on the words of the table. -/
theorem workedEncodings : Obligations.WorkedEncodings := by
  unfold Obligations.WorkedEncodings
  decide

/-! ### Words that do not decode (30_encoding.md rules R97 and R98) -/

section Refusals

variable {w : Word}

theorem and_mask_eq_zero (w : Word) (hi lo : Nat) :
    w.toNat &&& (2 ^ (hi + 1 - lo) - 1) * 2 ^ lo = 0 ↔ bits w hi lo = 0 := by
  have hmask : w.toNat &&& (2 ^ (hi + 1 - lo) - 1) * 2 ^ lo = bits w hi lo * 2 ^ lo := by
    refine Nat.eq_of_testBit_eq fun i => ?_
    simp only [bits, Nat.testBit_and, Nat.testBit_mul_two_pow, Nat.testBit_two_pow_sub_one,
      Nat.testBit_mod_two_pow, Nat.testBit_div_two_pow]
    by_cases hlo : lo ≤ i
    · simp [hlo, Bool.and_comm]
    · simp [hlo]
  simp [hmask]

theorem bitCountOk_bits :
    bitCountOk (BitVec.ofNat 6 (bits w 5 0)) = true ↔ ¬(bits w 5 0 = 0 ∨ 32 < bits w 5 0) := by
  simp only [bitCountOk, decide_eq_true_eq, BitVec.toNat_ofNat, bits]
  omega

theorem codeWidthOk_bits :
    codeWidthOk (BitVec.ofNat 4 (bits w 3 0)) = true ↔ ¬(bits w 3 0 = 0 ∨ 8 < bits w 3 0) := by
  simp only [codeWidthOk, decide_eq_true_eq, BitVec.toNat_ofNat, bits]
  omega

theorem formRC_of_assigned (legal : Csr → Bool) (k : Reg → Csr → Instr) {c : Csr}
    (hc : Csr.ofNumber (bits w 7 0) = some c) :
    formRC w legal k =
      if bits w 20 8 = 0 ∧ legal c = true then .ok (k (fieldA w) c) else .error .field := by
  simp only [formRC, hc, ite_and]

theorem formRC_of_unassigned (legal : Csr → Bool) (k : Reg → Csr → Instr)
    (hc : Csr.ofNumber (bits w 7 0) = none) : formRC w legal k = .error .field := by
  simp [formRC, hc]

/-- A reading that is refused as an illegal field under P, and is a command otherwise. -/
def RefusesFieldIff (r : Except DecodeError Instr) (P : Prop) : Prop :=
  (P → r = .error .field) ∧ (¬P → ∃ i, r = .ok i)

theorem refusesFieldIff_ite {c P : Prop} [Decidable c] {i : Instr} (h : c ↔ ¬P) :
    RefusesFieldIff (if c then .ok i else .error .field) P := by
  simp only [RefusesFieldIff, ← h]
  split <;> simp_all

theorem ReadsAs.refusesFieldIff {mask : Nat} {r : Except DecodeError Instr}
    (h : ReadsAs w (some mask) r) :
    RefusesFieldIff r (w.toNat &&& mask ≠ 0 ∨ reservedOperand w) := by
  cases h with
  | n row free | r row free | rr row free | rrr row free | ri row free =>
    exact refusesFieldIff_ite (by simp [free, ← and_mask_eq_zero])
  | rn row reserved =>
    exact refusesFieldIff_ite (by simp [reserved, bitCountOk_bits, ← and_mask_eq_zero])
  | mw row reserved =>
    exact refusesFieldIff_ite (by simp [reserved, codeWidthOk_bits, ← and_mask_eq_zero])
  | @rc legal k row reserved =>
    simp only [← ofNumber_eq_some] at reserved
    cases hc : Csr.ofNumber (bits w 7 0) with
    | none =>
      rw [formRC_of_unassigned legal k hc]
      exact ⟨fun _ => rfl, fun hgood => absurd (.inr (reserved.mpr (by simp [hc]))) hgood⟩
    | some c =>
      rw [formRC_of_assigned legal k hc]
      exact refusesFieldIff_ite (by simp [reserved, hc, ← and_mask_eq_zero])

theorem reservedZero_of_unassigned {op : Nat}
    (h : 0x08 ≤ op ∧ op ≤ 0x0F ∨ 0x16 ≤ op ∧ op ≤ 0x1F ∨ 0x22 ≤ op ∧ op ≤ 0x27 ∨
      0x2D ≤ op ∧ op ≤ 0x2F ∨ 0x3B ≤ op ∧ op ≤ 0x3F ∨ 0x48 ≤ op) : reservedZero op = none := by
  simp only [reservedZero, List.mem_cons, List.not_mem_nil, or_false]
  split_ifs
  case neg => rfl
  all_goals omega

theorem ReadsAs.eq_error {r : Except DecodeError Instr} (h : ReadsAs w none r) :
    r = .error .opcode := by
  cases h
  rfl

theorem step_of_decode_error {s : State} {rest : List Word} {e : DecodeError}
    (hp : s.port.pending = w :: rest) (he : decode w = .error e) (hf : s.block.fault = false) :
    step s = .next (takeFault (decodeFault e) 0 (present w rest s)) := by
  have hstep : step s = illegalWord e (present w rest s) := by simp only [step, hp, he]
  obtain ⟨hset, -⟩ | ⟨-, hfault⟩ := illegalWord_cases e (present w rest s)
  · simp [hf] at hset
  · exact hstep.trans hfault

end Refusals

/-- Settles O4: no row has such an op, and a step with a word that does not decode takes its fault. -/
theorem unassignedOpcodeRaisesIcOpcode : Obligations.UnassignedOpcodeRaisesIcOpcode := by
  intro s w rest hp hf hop
  have hread := decode_readsAs w
  rw [reservedZero_of_unassigned hop] at hread
  exact step_of_decode_error hp hread.eq_error hf

/-- Settles O5: each format refuses exactly its reserved bits and operands. -/
theorem reservedBitsRaiseIcField : Obligations.ReservedBitsRaiseIcField := by
  intro w mask hmask
  obtain ⟨hrefused, hreads⟩ := (hmask ▸ decode_readsAs w).refusesFieldIff
  exact ⟨fun hbad _ _ hp hf => step_of_decode_error hp (hrefused hbad) hf, hreads⟩

/-! ### LI (30_encoding.md rule R102) -/

section LoadConstant

@[simp] theorem setReg_setReg (b : Block) (r : Reg) (u v : Word) :
    (b.setReg r u).setReg r v = b.setReg r v := by
  simp [Block.setReg]

theorem exec_ldi (rd : Reg) (v : BitVec 16) {s : State} (hf : s.block.fault = false) :
    exec (.ldi rd v) s = .next (complete (s.block.setReg rd (v.setWidth 32)) 0 s) :=
  exec_unfaulted (.ldi rd v) hf

theorem exec_ldih (rd : Reg) (v : BitVec 16) {s : State} (hf : s.block.fault = false) :
    exec (.ldih rd v) s =
      .next (complete (s.block.setReg rd (v ++ (s.block.reg rd).setWidth 16)) 0 s) :=
  exec_unfaulted (.ldih rd v) hf

theorem runCommands_cons {i : Instr} {is : List Instr} {s t : State} (h : exec i s = .next t) :
    runCommands (i :: is) s = runCommands is t := by
  simp only [runCommands, h]

theorem setWidth_lowerHalf {imm : Word} (h : bits imm 31 16 = 0) :
    (BitVec.ofNat 16 (bits imm 15 0)).setWidth 32 = imm := by
  apply BitVec.eq_of_toNat_eq
  simp only [bits, BitVec.toNat_setWidth, BitVec.toNat_ofNat] at *
  omega

theorem upperHalf_append_lowerHalf (imm : Word) :
    BitVec.ofNat 16 (bits imm 31 16) ++
      ((BitVec.ofNat 16 (bits imm 15 0)).setWidth 32).setWidth 16 = imm := by
  apply BitVec.eq_of_toNat_eq
  rw [BitVec.toNat_append, ← Nat.shiftLeft_add_eq_or_of_lt (BitVec.isLt _), Nat.shiftLeft_eq]
  simp only [bits, BitVec.toNat_setWidth, BitVec.toNat_ofNat]
  omega

end LoadConstant

/-- Settles O6, by the two expansions: LDI alone leaves the constant when its upper half is 0, and LDIH
puts the upper half over what LDI left. -/
theorem liLoadsTheConstant : Obligations.LiLoadsTheConstant := by
  intro rd imm s hf
  refine ⟨?_, by rw [ite_not]; rfl⟩
  have hlow := exec_ldi rd (BitVec.ofNat 16 (bits imm 15 0)) hf
  unfold expandLi
  split
  case isTrue hzero =>
    exact ⟨_, runCommands_cons hlow, congrArg (s.block.setReg rd) (setWidth_lowerHalf hzero)⟩
  case isFalse =>
    refine ⟨_, (runCommands_cons hlow).trans (runCommands_cons (exec_ldih rd _ hf)), ?_⟩
    rw [complete_block, complete_block, reg_setReg_same, setReg_setReg, upperHalf_append_lowerHalf]

/-! ### The response to a word (30_encoding.md rules R90 and R91) -/

/-- Settles O7: the step with a word that decodes is `exec` by its definition. -/
theorem stepExecutesTheDecodedCommand : Obligations.StepExecutesTheDecodedCommand := by
  intro s w rest i hp hi
  simp only [step, hp, hi]
  rfl

theorem step_total (s : State) : ∃ t, step s = .next t := by
  unfold step
  split
  · exact ⟨_, rfl⟩
  · split
    case h_1 i _ =>
      obtain ⟨-, -, h⟩ | ⟨b, d, -, -, h⟩ | ⟨c, v, -, -, h⟩ := exec_cases i (present _ _ s)
      all_goals exact ⟨_, h⟩
    · exact ⟨_, rfl⟩

/-- Past a rule's checks there is a fault, or completion with data 0; only GETR answers with a register. -/
theorem effect_data {p : Params} {i : Instr} {b b' : Block} {d : Word}
    (h : effect p i b = .done b' d) :
    (∃ rs, i = .getr rs ∧ d = b.reg rs) ∨ (∀ rs, i ≠ .getr rs) ∧ d = 0 := by
  cases i with
  | getr rs =>
    cases h
    exact .inl ⟨rs, rfl, rfl⟩
  | nop | ldi | ldih | csrr | clrerr | srst | bclr | brwd | avail | bitoff | cwclr | pathclr
  | chclr =>
    cases h
    exact .inr ⟨nofun, rfl⟩
  | _ =>
    refine .inr ⟨nofun, ?_⟩
    simp only [effect, csrWrite, rdbits, apbits, rsenc, rsdec, cwap, cwrd, cwwr, cwtrunc, matdim,
      matwr, matrd, pathap, maprd, mapwr, cwpack, cwunpk, stuff, unstuff, modew, tblwr, tblrd, chap,
      chrd, txdec, txenc] at h
    repeat' split at h
    all_goals cases h
    all_goals rfl

/-- Settles O11, by the cases of a step: a refusal, a completed command with its data, a fault taken. -/
theorem responsesAreOkFaultOrRefused : Obligations.ResponsesAreOkFaultOrRefused := by
  intro s w rest hp
  obtain ⟨t, ht⟩ := step_total s
  obtain ⟨hnone, -⟩ | ⟨w', rest', hp', hcases⟩ := step_cases ht
  · simp [hp] at hnone
  obtain ⟨rfl, rfl⟩ : w = w' ∧ rest = rest' := by simpa [hp] using hp'
  obtain ⟨hf, rfl⟩ | ⟨i, b, d, hi, hd, rfl⟩ | ⟨c, v, hf, rfl⟩ := hcases
  · exact ⟨_, _, ht, rfl, .inr (.inr ⟨rfl, rfl, hf, rfl⟩)⟩
  · exact ⟨_, _, ht, rfl, .inl ⟨rfl, i, hi, effect_data hd⟩⟩
  · exact ⟨_, _, ht, rfl, .inr (.inl ⟨⟨c, rfl⟩, rfl, hf, rfl, rfl, rfl⟩)⟩

end Sys2Proof.Machine

/-! ### The system commands (40_system.md rules R120 to R127) -/

namespace Sys2Proof.Machine

section Rules

variable {i : Instr} {s : State} {b : Block} {r : Result} {x : FaultCode} {v : Nat}

/-! #### From a command's rule to its outcome -/

theorem executesTo_of_anytime (hi : inFaultStop i = true) (h : effect s.params i s.block = .done b 0) :
    ExecutesTo i s b := by
  rw [ExecutesTo, exec_anytime hi, h]
  rfl

theorem executesTo_of_effect (hf : s.block.fault = false) (h : effect s.params i s.block = .done b 0) :
    ExecutesTo i s b := by
  rw [ExecutesTo, exec_unfaulted i hf, h]
  rfl

theorem faultsWith_of_effect (hf : s.block.fault = false) (h : effect s.params i s.block = .raise x v) :
    FaultsWith i s x v := by
  rw [FaultsWith, exec_unfaulted i hf, h]
  rfl

/-- A rule's check decides between its fault and the rest of the rule. -/
theorem check_outcome {c P : Prop} [Decidable c] (hf : s.block.fault = false)
    (h : effect s.params i s.block = if c then .raise x v else r)
    (hrest : effect s.params i s.block = r → P) : if c then FaultsWith i s x v else P := by
  split
  case isTrue hc => exact faultsWith_of_effect hf (h.trans (if_pos hc))
  case isFalse hc => exact hrest (h.trans (if_neg hc))

/-- The word of a command whose operands are a register field and an immediate field (rule R94). -/
theorem encode_of_operands {a n : Nat} (h : i.operands = a + n) :
    encode i = BitVec.ofNat 32 (i.opcode * 2 ^ 24 + a + n) := by
  rw [encode, h, Nat.add_assoc]

end Rules

/-! #### CSRs -/

theorem ofNumber_eq_none {n : Nat} : Csr.ofNumber n = none ↔ ∀ c : Csr, c.number ≠ n := by
  simp only [Option.eq_none_iff_forall_ne_some, ne_eq, ofNumber_eq_some]

theorem decode_of_unassigned_csrr {w : Word} (hop : opcodeOf w = 0x04)
    (hnone : ∀ c : Csr, c.number ≠ bits w 7 0) : decode w = .error .field := by
  simp only [decode, hop]
  exact formRC_of_unassigned _ _ (ofNumber_eq_none.mpr hnone)

section CsrWrite

variable (v : Word) (b : Block)

theorem rscfgLegal_eq_false : rscfgLegal v = false ↔ v.toNat / 2 ^ 2 ≠ 0 := by
  rw [rscfgLegal, decide_eq_false_iff_not, bits]
  omega

theorem bincfgLegal_eq_false :
    bincfgLegal v = false ↔
      bits v 7 5 ≠ 0 ∨ bits v 15 13 ≠ 0 ∨ bits v 4 0 = 0 ∨ 16 < bits v 4 0 ∨ 16 < bits v 12 8 ∨
        2 ^ bits v 4 0 < bits v 31 16 := by
  simp only [bincfgLegal, decide_eq_false_iff_not]
  omega

theorem txcfgLegal_eq_false : txcfgLegal v = false ↔ bits v 7 3 ≠ 0 ∨ bits v 31 9 ≠ 0 := by
  simp only [txcfgLegal, decide_eq_false_iff_not, not_and_or, ne_eq]

theorem csrWrite_rscfg :
    csrWrite .rscfg v b =
      if v.toNat / 2 ^ 2 ≠ 0 then .raise .ceCsr v.toNat
      else if b.cwbuf ≠ [] then .raise .ceFsel b.cwbuf.length
      else .done { b with fsel := BitVec.ofNat 2 v.toNat } 0 := by
  simp only [csrWrite, rscfgLegal_eq_false, ne_eq, List.length_eq_zero_iff, BitVec.ofNat_toNat]

theorem csrWrite_bincfg :
    csrWrite .bincfg v b =
      if bits v 7 5 ≠ 0 ∨ bits v 15 13 ≠ 0 ∨ bits v 4 0 = 0 ∨ 16 < bits v 4 0 ∨ 16 < bits v 12 8 ∨
          2 ^ bits v 4 0 < bits v 31 16 then .raise .ceCsr v.toNat
      else .done { b with bincfg := v } 0 := by
  simp only [csrWrite, bincfgLegal_eq_false]

theorem csrWrite_txcfg :
    csrWrite .txcfg v b =
      if bits v 7 3 ≠ 0 ∨ bits v 31 9 ≠ 0 then .raise .ceCsr v.toNat
      else .done { b with txcfg := v } 0 := by
  simp only [csrWrite, txcfgLegal_eq_false]

theorem csrWrite_readOnly {c : Csr} (hrscfg : c ≠ .rscfg) (hbincfg : c ≠ .bincfg) (htxcfg : c ≠ .txcfg) :
    csrWrite c v b = .raise .icField 0 := by
  cases c with
  | rscfg => exact absurd rfl hrscfg
  | bincfg => exact absurd rfl hbincfg
  | txcfg => exact absurd rfl htxcfg
  | _ => rfl

end CsrWrite

/-- Settles O21, by the cases of the CSR: its number and the value read are its row's; a number that no
CSR has is refused by the format. -/
theorem csrrReadsEveryCsr : Obligations.CsrrReadsEveryCsr := by
  refine ⟨?_, ?_, fun w => decode_of_unassigned_csrr⟩
  · intro c
    cases c <;> rfl
  · intro rd c s
    refine ⟨encode_of_operands rfl, csrRead s.block c, executesTo_of_anytime rfl rfl, ?_⟩
    cases c with
    | errcode | rscfg | modew => exact BitVec.toNat_setWidth_of_le (by decide)
    | _ => rfl

/-- Settles O22: CSRW is `csrWrite` of r[rs], whose checks decide the outcome one after the other. -/
theorem csrwWritesLegalValuesOnly : Obligations.CsrwWritesLegalValuesOnly := by
  intro rs s hf
  refine ⟨fun c => encode_of_operands rfl, ?_, ?_, ?_, ?_⟩
  · exact check_outcome hf (csrWrite_rscfg _ _) fun h =>
      check_outcome hf h (executesTo_of_effect hf)
  · exact check_outcome hf (csrWrite_bincfg _ _) (executesTo_of_effect hf)
  · exact check_outcome hf (csrWrite_txcfg _ _) (executesTo_of_effect hf)
  · intro c hrscfg hbincfg htxcfg
    exact faultsWith_of_effect hf (csrWrite_readOnly _ _ hrscfg hbincfg htxcfg)

theorem toNat_upperHalf_append (imm : BitVec 16) (v : Word) :
    (imm ++ v.setWidth 16).toNat = imm.toNat * 2 ^ 16 + v.toNat % 2 ^ 16 := by
  rw [BitVec.toNat_append, ← Nat.shiftLeft_add_eq_or_of_lt (BitVec.isLt _), Nat.shiftLeft_eq,
    BitVec.toNat_setWidth]

/-- Settles O19, by the rules of the three commands. -/
theorem nopLdiAndLdih : Obligations.NopLdiAndLdih := by
  refine ⟨rfl, fun s hf => executesTo_of_effect hf rfl, fun rd imm s hf => ?_⟩
  refine ⟨encode_of_operands rfl, encode_of_operands rfl, ?_, ?_⟩
  · exact ⟨_, BitVec.toNat_setWidth_of_le (by decide), exec_ldi rd imm hf⟩
  · exact ⟨_, toNat_upperHalf_append imm (s.block.reg rd), exec_ldih rd imm hf⟩

/-- Settles O20: GETR runs its rule in either state of STATUS.FAULT. -/
theorem getrRespondsTheRegister : Obligations.GetrRespondsTheRegister :=
  fun _ s => ⟨rfl, exec_anytime rfl s⟩

theorem clearFault_eq_self {p : Params} {b : Block} (hb : b.Inv p) (hf : b.fault = false) :
    b.clearFault = b := by
  obtain ⟨hcode, hcmd, hinfo⟩ := hb.record_clear hf
  cases b
  simp_all [Block.clearFault]

/-- Settles O23; with no fault recorded the invariant says that the record is clear already. -/
theorem clrerrClearsTheRecord : Obligations.ClrerrClearsTheRecord :=
  ⟨rfl, fun _ => executesTo_of_anytime rfl rfl, fun _ ⟨_, hb⟩ hf =>
    executesTo_of_anytime rfl (congrArg (Result.done · 0) (clearFault_eq_self hb hf))⟩

/-- Settles O24: SRST runs its rule in either state of STATUS.FAULT. -/
theorem srstIsReset : Obligations.SrstIsReset :=
  ⟨rfl, fun _ => executesTo_of_anytime rfl rfl⟩

end Sys2Proof.Machine

/-! ### The bit unit (41_bitstream.md rules R140 to R150) -/

namespace Sys2Proof.Machine

/-! #### Bits by their position -/

/-- The bits of a list, first bit most significant, are those of its number. -/
theorem getElem?_eq_testBit_bitsVal {l : List Bool} {i : Nat} (h : i < l.length) :
    l[i]? = some ((bitsVal l).testBit (l.length - 1 - i)) := by
  have hbit := natBits_getElem (bitsVal l) l.length i (by simpa using h)
  simp only [natBits_bitsVal] at hbit
  rw [List.getElem?_eq_getElem h, hbit]

theorem natBits_getElem? (v : Nat) {n i : Nat} (h : i < n) :
    (natBits v n)[i]? = some (v.testBit (n - 1 - i)) := by
  rw [List.getElem?_eq_getElem (by simpa using h), natBits_getElem]

section Cursor

variable (b : Block)

theorem peekBits_lt (n : Nat) : b.peekBits n < 2 ^ n :=
  (bitsVal_lt _).trans_le (Nat.pow_le_pow_right (by decide) (List.length_take_le n _))

/-- A value read by RDBITS fits the register. -/
theorem toNat_ofNat_peekBits {n : Nat} (hn : n ≤ 32) :
    (BitVec.ofNat 32 (b.peekBits n)).toNat = b.peekBits n := by
  have hlt : b.peekBits n < 2 ^ 32 :=
    (peekBits_lt b n).trans_le (Nat.pow_le_pow_right (by decide) hn)
  rw [BitVec.toNat_ofNat, Nat.mod_eq_of_lt hlt]

/-- `readBits(n)` takes the bits from RDPOS on, the first the most significant (rule R140). -/
theorem bitbuf_getElem?_eq_testBit_peekBits {n i : Nat} (hn : n ≤ b.available) (hi : i < n) :
    b.bitbuf[b.rdpos + i]? = some ((b.peekBits n).testBit (n - 1 - i)) := by
  have hlen : (b.unread.take n).length = n := by simpa using hn
  calc b.bitbuf[b.rdpos + i]?
    _ = (b.unread.take n)[i]? := by rw [List.getElem?_take_of_lt hi, Block.unread, List.getElem?_drop]
    _ = some ((b.peekBits n).testBit (n - 1 - i)) := by
      rw [getElem?_eq_testBit_bitsVal (hlen.symm ▸ hi), hlen, Block.peekBits]

@[simp] theorem appendBits_bitlen (v n : Nat) : (b.appendBits v n).bitlen = b.bitlen + n := by
  simp [Block.bitlen]

/-- Two appends are one append of both runs of bits. -/
@[simp] theorem pushBits_pushBits (l m : List Bool) :
    (b.pushBits l).pushBits m = b.pushBits (l ++ m) := by
  simp [Block.pushBits]

/-- Rule R150 item 2, for the block: with nothing unread before, what two appends leave unread is the
bits of the two numbers side by side. -/
theorem peekBits_appendBits_appendBits (hread : b.rdpos = b.bitlen) (v₁ n₁ v₂ n₂ : Nat) :
    ((b.appendBits v₁ n₁).appendBits v₂ n₂).peekBits (n₁ + n₂) =
      v₁ % 2 ^ n₁ * 2 ^ n₂ + v₂ % 2 ^ n₂ := by
  have hunread : ((b.appendBits v₁ n₁).appendBits v₂ n₂).unread = natBits v₁ n₁ ++ natBits v₂ n₂ := by
    have hnone : b.unread = [] := List.drop_eq_nil_of_le hread.ge
    rw [Block.appendBits, Block.appendBits, pushBits_pushBits, unread_pushBits b _ hread.le, hnone,
      List.nil_append]
  rw [Block.peekBits, hunread, List.take_of_length_le (by simp), bitsVal_append, bitsVal_natBits,
    bitsVal_natBits, natBits_length]

end Cursor

/-! #### RDBITS and APBITS: the order of their checks, and what they do past them -/

theorem bitCountOk_eq_false {n : BitVec 6} : bitCountOk n = false ↔ n.toNat < 1 ∨ 32 < n.toNat := by
  rw [bitCountOk, decide_eq_false_iff_not]
  omega

section Rules

variable {r : Reg} {n : BitVec 6} {s : State}

theorem effect_rdbits (p : Params) (b : Block) :
    effect p (.rdbits r n) b =
      if n.toNat < 1 ∨ 32 < n.toNat then .raise .icField 0
      else if b.available < n.toNat then .raise .idRdbits b.available
      else .done ((b.skipBits n.toNat).setRegNat r (b.peekBits n.toNat)) 0 := by
  simp only [effect, rdbits, bitCountOk_eq_false]

theorem effect_apbits (p : Params) (b : Block) :
    effect p (.apbits r n) b =
      if n.toNat < 1 ∨ 32 < n.toNat then .raise .icField 0
      else if b.bitlen + n.toNat > p.bitCap then .raise .boBit b.bitlen
      else .done (b.appendBits (b.regNat r) n.toNat) 0 := by
  simp only [effect, apbits, bitCountOk_eq_false]

theorem rdbits_executes (hf : s.block.fault = false) (hn : ¬(n.toNat < 1 ∨ 32 < n.toNat))
    (hleft : ¬s.block.available < n.toNat) :
    ExecutesTo (.rdbits r n) s
      ((s.block.skipBits n.toNat).setRegNat r (s.block.peekBits n.toNat)) :=
  executesTo_of_effect hf (by rw [effect_rdbits, if_neg hn, if_neg hleft])

theorem apbits_executes (hf : s.block.fault = false) (hn : ¬(n.toNat < 1 ∨ 32 < n.toNat))
    (hroom : ¬s.block.bitlen + n.toNat > s.params.bitCap) :
    ExecutesTo (.apbits r n) s (s.block.appendBits (s.block.regNat r) n.toNat) :=
  executesTo_of_effect hf (by rw [effect_apbits, if_neg hn, if_neg hroom])

end Rules

/-- Settles O26, by the two checks of RDBITS; past them the value is `peekBits`, whose bits are those
from RDPOS on. -/
theorem rdbitsReadsMsbFirst : Obligations.RdbitsReadsMsbFirst := by
  intro rd n s hf
  have heff := effect_rdbits (r := rd) (n := n) s.params s.block
  refine ⟨encode_of_operands rfl, ?_⟩
  split
  case isTrue hn => exact faultsWith_of_effect hf (heff.trans (if_pos hn))
  case isFalse hn =>
    rw [if_neg hn] at heff
    split
    case isTrue hleft => exact faultsWith_of_effect hf (heff.trans (if_pos hleft))
    case isFalse hleft =>
      have hval := toNat_ofNat_peekBits s.block (n := n.toNat) (by omega)
      refine ⟨_, rdbits_executes hf hn hleft, fun i hi => ?_, hval.symm ▸ peekBits_lt s.block _⟩
      rw [BitVec.getLsbD, hval]
      exact bitbuf_getElem?_eq_testBit_peekBits s.block (Nat.le_of_not_lt hleft) hi

/-- Settles O27, by the two checks of APBITS; past them the bits appended are `natBits` of r[rs]. -/
theorem apbitsAppendsMsbFirst : Obligations.ApbitsAppendsMsbFirst := by
  intro rs n s hf
  refine ⟨encode_of_operands rfl, ?_⟩
  refine check_outcome hf (effect_apbits _ _) fun hn => check_outcome hf hn fun hroom => ?_
  exact ⟨_, executesTo_of_effect hf hroom, natBits_length _ _, fun i hi => natBits_getElem? _ hi⟩

/-- Settles O29: the three commands pass their checks one after the other, and the block then reads the
two numbers side by side; r[rd] holds them because n ≤ 32. -/
theorem appendsReadBackConcatenated : Obligations.AppendsReadBackConcatenated := by
  intro r1 r2 rd n1 n2 n s hf hread h1 h2 hn hle hcap
  have hend : s.block.rdpos = s.block.bitlen := hread
  have hroom : s.block.bitlen + n.toNat ≤ s.params.bitCap := hcap
  refine ⟨_, (runCommands_cons (apbits_executes hf ?count₁ ?room₁)).trans
    ((runCommands_cons (apbits_executes (by exact hf) ?count₂ ?room₂)).trans
      (runCommands_cons (rdbits_executes (by exact hf) ?count ?left))), ?value, ?cursor⟩
  case count₁ | count₂ | count => omega
  case room₁ => omega
  case room₂ =>
    simp only [appendBits_bitlen]
    omega
  case left =>
    simp only [Block.available, appendBits_bitlen, appendBits_rdpos]
    omega
  case value =>
    rw [reg_setRegNat_same, toNat_ofNat_peekBits _ hle, hn, peekBits_appendBits_appendBits _ hend]
    rfl
  case cursor =>
    change s.block.rdpos + n.toNat = (Block.appendBits _ _ _).bitlen
    simp only [appendBits_bitlen]
    omega

/-- Settles O25, by the rules of the two commands. -/
theorem bclrEmptiesAndBrwdRewinds : Obligations.BclrEmptiesAndBrwdRewinds :=
  ⟨rfl, rfl, fun _ hf => ⟨executesTo_of_effect hf rfl, executesTo_of_effect hf rfl⟩⟩

/-- Settles O28: under rule R45 RDPOS is at most BITLEN, which is below 2^32, so that neither value is
cut off. -/
theorem availAndBitoffReadTheCursor : Obligations.AvailAndBitoffReadTheCursor := by
  intro rd s hf
  refine ⟨rfl, rfl, _, _, executesTo_of_effect hf rfl, executesTo_of_effect hf rfl, rfl, rfl, ?_⟩
  rintro ⟨hp, hb⟩
  have hcursor : s.block.rdpos ≤ s.block.bitbuf.length := hb.rdpos_le
  have hlen : s.block.bitbuf.length < 2 ^ 32 := hb.bitlen_le.trans_lt hp.bitCap_range.2
  simp only [BitVec.toNat_ofNat, Block.available, Block.bitlen]
  omega

end Sys2Proof.Machine

/-! ### The codeword buffer (42_reed_solomon.md rules R171 to R175) -/

namespace Sys2Proof.Machine

section CodewordBuffer

/-- As `check_outcome`, where the rest of the rule relies on the check having passed. -/
theorem check_outcome_of_not {i : Instr} {s : State} {r : Result} {x : FaultCode} {v : Nat} {c P : Prop}
    [Decidable c] (hf : s.block.fault = false)
    (h : effect s.params i s.block = if c then .raise x v else r)
    (hrest : ¬c → effect s.params i s.block = r → P) : if c then FaultsWith i s x v else P := by
  split
  case isTrue hc => exact faultsWith_of_effect hf (h.trans (if_pos hc))
  case isFalse hc => exact hrest hc (h.trans (if_neg hc))

/-- A codeword has at most 12 bits, so that it fits its place in CWBUF. -/
theorem toNat_ofNat_codeword {b : Block} {v : Nat} (h : v < 2 ^ b.cwWidth) :
    (BitVec.ofNat 12 v).toNat = v := by
  have h12 : v < 2 ^ 12 := h.trans_le (Nat.pow_le_pow_right two_pos (codewordWidth_range b.fsel).2)
  rw [BitVec.toNat_ofNat, Nat.mod_eq_of_lt h12]

theorem cwrd_of_length_le {b : Block} {rd ri : Reg} (h : b.cwbuf.length ≤ b.regNat ri) :
    cwrd rd ri b = .raise .aeCw (b.regNat ri) := by
  have hnone : b.cws[b.regNat ri]? = none := List.getElem?_eq_none (by simpa [Block.cws] using h)
  rw [cwrd, hnone]

theorem cwrd_of_lt {b : Block} {rd ri : Reg} (h : b.regNat ri < b.cwbuf.length) :
    cwrd rd ri b = .done (b.setReg rd (b.cwbuf[b.regNat ri].setWidth 32)) 0 := by
  have hsome : b.cws[b.regNat ri]? = some b.cwbuf[b.regNat ri].toNat := by simp [Block.cws, h]
  rw [cwrd, hsome, ← BitVec.ofNat_toNat]
  rfl

end CodewordBuffer

/-- Settles O33, by the rule of CWCLR and by the two checks of CWAP. -/
theorem cwclrAndCwapBuildTheBuffer : Obligations.CwclrAndCwapBuildTheBuffer := by
  refine ⟨rfl, fun rs s hf => ⟨rfl, executesTo_of_effect hf rfl, ?_⟩⟩
  refine check_outcome_of_not hf rfl fun hfits heff => check_outcome hf heff fun hroom => ?_
  exact ⟨_, toNat_ofNat_codeword (not_le.mp hfits), executesTo_of_effect hf hroom⟩

/-- Settles O34: CWRD by the two cases of its index, CWWR and CWTRUNC by their checks. -/
theorem codewordReadWriteTruncate : Obligations.CodewordReadWriteTruncate := by
  intro ra rb s hf
  refine ⟨encode_of_operands rfl, encode_of_operands rfl, rfl, ?_, ?_, ?_⟩
  · split
    case isTrue hout => exact faultsWith_of_effect hf (cwrd_of_length_le hout)
    case isFalse hin =>
      have hlt := not_le.mp hin
      refine ⟨s.block.cwbuf[(s.block.reg rb).toNat].setWidth 32, ?_, ?_,
        executesTo_of_effect hf (cwrd_of_lt hlt)⟩
      · rw [BitVec.setWidth_setWidth_of_le _ (by decide), BitVec.setWidth_eq]
        exact List.getElem?_eq_getElem hlt
      · rw [BitVec.toNat_setWidth_of_le (by decide)]
        exact BitVec.isLt _
  · refine check_outcome hf rfl fun hin => check_outcome_of_not hf hin fun hfits heff => ?_
    exact ⟨_, toNat_ofNat_codeword (not_le.mp hfits), executesTo_of_effect hf heff⟩
  · exact check_outcome hf rfl (executesTo_of_effect hf)

end Sys2Proof.Machine

/-! ### The field elements as a ring (42_reed_solomon.md rules R160 to R164)

Proofs about the code calculate in a ring K onto which the field elements, the numbers below q, are mapped
one to one (`Represents`), so that Mathlib's algebra and polynomials are at hand. -/

namespace Sys2Proof.Machine

/-- φ maps the numbers below q one to one onto K, exclusive-or to + and `gf_mul` to ·. -/
structure Represents (F : GF) {K : Type} [CommRing K] (φ : Nat → K) : Prop where
  two_le : 2 ≤ F.m
  degree : DegreeLegal F
  map_one : φ 1 = 1
  map_xor {a b : Nat} (ha : a < F.q) (hb : b < F.q) : φ (a ^^^ b) = φ a + φ b
  map_mul {a b : Nat} (ha : a < F.q) (hb : b < F.q) : φ (gfMul F a b) = φ a * φ b
  inj {a b : Nat} (ha : a < F.q) (hb : b < F.q) (h : φ a = φ b) : a = b
  surj (x : K) : ∃ a, a < F.q ∧ φ a = x

section Ring

variable {F : GF}

/-- The ring of the numbers below q under exclusive-or and `gf_mul`. -/
abbrev elementRing (hm : 2 ≤ F.m) (hF : DegreeLegal F) : CommRing {a : Nat // a < F.q} :=
  @CommRing.ofMinimalAxioms {a : Nat // a < F.q}
    ⟨fun a b => ⟨a.1 ^^^ b.1, xor_lt_q a.2 b.2⟩⟩
    ⟨fun a b => ⟨gfMul F a.1 b.1, gfMul_lt hF a.2 b.1⟩⟩
    ⟨id⟩ ⟨⟨0, Nat.two_pow_pos _⟩⟩ ⟨⟨1, alphaPow_lt hm hF 0⟩⟩
    (fun a b c => Subtype.ext (Nat.xor_assoc a.1 b.1 c.1))
    (fun a => Subtype.ext (Nat.zero_xor a.1))
    (fun a => Subtype.ext (Nat.xor_self a.1))
    (fun a b c => Subtype.ext (gfMul_assoc hF a.2 b.2 c.1))
    (fun a b => Subtype.ext (gfMul_comm a.2 b.2))
    (fun a => Subtype.ext (gfMul_one_left a.2))
    (fun a b c => Subtype.ext (gfMul_xor_right a.2 b.2 c.2))

theorem exists_ring (hm : 2 ≤ F.m) (hF : DegreeLegal F) :
    ∃ (K : Type) (_ : CommRing K) (φ : Nat → K), Represents F φ := by
  have hmod {a : Nat} (ha : a < F.q) : a % F.q = a := Nat.mod_eq_of_lt ha
  let ring := elementRing hm hF
  refine ⟨{a : Nat // a < F.q}, ring, fun a => ⟨a % F.q, Nat.mod_lt _ (Nat.two_pow_pos _)⟩, ⟨hm, hF, ?_,
    fun ha hb => ?_, fun ha hb => ?_, fun ha hb h => ?_, fun x => ?_⟩⟩
  · exact Subtype.ext (hmod (alphaPow_lt hm hF 0))
  · apply Subtype.ext
    change _ % _ = _ % _ ^^^ _ % _
    rw [hmod ha, hmod hb, hmod (xor_lt_q ha hb)]
  · apply Subtype.ext
    change _ % _ = gfMul F (_ % _) (_ % _)
    rw [hmod ha, hmod hb, hmod (gfMul_lt hF ha _)]
  · simpa [hmod ha, hmod hb] using h
  · exact ⟨x.1, x.2, Subtype.ext (hmod x.2)⟩

end Ring

namespace Represents

section Ring

variable {F : GF} {K : Type} [CommRing K] {φ : Nat → K} (hφ : Represents F φ)
include hφ

theorem map_zero : φ 0 = 0 := by
  have hzero : 0 < F.q := Nat.two_pow_pos _
  have hdouble : φ 0 = φ 0 + φ 0 := by simpa using hφ.map_xor hzero hzero
  simpa using hdouble

theorem eq_zero_iff {a : Nat} (ha : a < F.q) : φ a = 0 ↔ a = 0 := by
  refine ⟨fun h => hφ.inj ha (Nat.two_pow_pos _) (h.trans hφ.map_zero.symm), ?_⟩
  rintro rfl
  exact hφ.map_zero

theorem one_lt_q : 1 < F.q := Nat.one_lt_two_pow (by have := hφ.two_le; omega)

theorem nontrivial : Nontrivial K := by
  refine ⟨0, 1, fun h => ?_⟩
  have hone : φ 1 = 0 := hφ.map_one.trans h.symm
  simpa using (hφ.eq_zero_iff hφ.one_lt_q).mp hone

theorem charTwo : CharP K 2 := by
  have := hφ.nontrivial
  have htwo : (1 : K) + 1 = 0 := by
    simpa [hφ.map_one, hφ.map_zero] using (hφ.map_xor hφ.one_lt_q hφ.one_lt_q).symm
  exact CharTwo.of_one_ne_zero_of_two_eq_zero one_ne_zero (one_add_one_eq_two.symm.trans htwo)

theorem map_alphaPow (e : Nat) : φ (alphaPow F e) = φ 2 ^ e := by
  induction e with
  | zero => rw [alphaPow, hφ.map_one, pow_zero]
  | succ e ih =>
    have htwo : 2 < F.q := (by decide : 2 < 2 ^ 2).trans_le (Nat.pow_le_pow_right two_pos hφ.two_le)
    rw [alphaPow, hφ.map_mul (alphaPow_lt hφ.two_le hφ.degree e) htwo, ih, pow_succ]

theorem map_gfPow {a : Nat} (ha : a < F.q) (e : Nat) : gfPow F a e < F.q ∧ φ (gfPow F a e) = φ a ^ e := by
  induction e with
  | zero => exact ⟨hφ.one_lt_q, by rw [gfPow, hφ.map_one, pow_zero]⟩
  | succ e ih =>
    obtain ⟨hlt, hval⟩ := ih
    exact ⟨gfMul_lt hφ.degree hlt a, by rw [gfPow, hφ.map_mul hlt ha, hval, pow_succ]⟩

theorem map_gfInvLoop (k : Nat) {s acc : Nat} (hs : s < F.q) (hacc : acc < F.q) :
    gfInvLoop F k s acc < F.q ∧ φ (gfInvLoop F k s acc) = φ acc * φ s ^ (2 ^ (k + 1) - 2) := by
  induction k generalizing s acc with
  | zero => exact ⟨hacc, by simp [gfInvLoop]⟩
  | succ k ih =>
    have hsquare := gfMul_lt hφ.degree hs s
    obtain ⟨hlt, hval⟩ := ih hsquare (gfMul_lt hφ.degree hacc (gfMul F s s))
    refine ⟨hlt, ?_⟩
    have hexp : 2 ^ (k + 1 + 1) - 2 = 2 + 2 * (2 ^ (k + 1) - 2) := by
      have := Nat.pow_le_pow_right two_pos (Nat.le_add_left 1 k)
      omega
    rw [gfInvLoop, hval, hφ.map_mul hacc hsquare, hφ.map_mul hs hs, hexp, pow_add (φ s), pow_mul (φ s),
      pow_two, mul_assoc]

/-- `gf_inv` is the power q − 2. -/
theorem map_gfInv {a : Nat} (ha : a < F.q) : gfInv F a < F.q ∧ φ (gfInv F a) = φ a ^ (F.q - 2) := by
  obtain ⟨hlt, hval⟩ := hφ.map_gfInvLoop (F.m - 1) ha hφ.one_lt_q
  rw [hφ.map_one, one_mul, Nat.sub_add_cancel (one_le_two.trans hφ.two_le)] at hval
  exact ⟨hlt, hval⟩

/-! #### Every nonzero element is a power of α (rules R160 and R163) -/

theorem orderOf_alpha (hleg : FieldLegal F) : orderOf (φ 2) = F.q - 1 := by
  obtain ⟨hF, hone, hne⟩ := hleg
  rw [orderOf_eq_iff (Nat.sub_pos_of_lt hφ.one_lt_q)]
  refine ⟨by rw [← hφ.map_alphaPow, hone, hφ.map_one], fun e hlt hpos he => hne e hpos hlt ?_⟩
  rw [← hφ.map_alphaPow, ← hφ.map_one] at he
  exact hφ.inj (alphaPow_lt hφ.two_le hF e) hφ.one_lt_q he

theorem alpha_pow_injOn (hleg : FieldLegal F) : Set.InjOn (φ 2 ^ ·) (Set.Iio (F.q - 1)) :=
  hφ.orderOf_alpha hleg ▸ pow_injOn_Iio_orderOf

theorem alpha_pow_ne_zero (hleg : FieldLegal F) (e : Nat) : φ 2 ^ e ≠ 0 := by
  have := hφ.nontrivial
  have hunit : IsUnit (φ 2) := IsUnit.of_pow_eq_one
    (hφ.orderOf_alpha hleg ▸ pow_orderOf_eq_one (φ 2)) (Nat.sub_pos_of_lt hφ.one_lt_q).ne'
  exact (hunit.pow e).ne_zero

theorem alphaPow_ne_zero (hleg : FieldLegal F) (e : Nat) : alphaPow F e ≠ 0 := fun h =>
  hφ.alpha_pow_ne_zero hleg e (by rw [← hφ.map_alphaPow, h, hφ.map_zero])

/-- The q − 1 first powers of α are different, so that they are all q − 1 nonzero elements. -/
theorem exists_alphaPow_eq (hleg : FieldLegal F) {a : Nat} (hpos : 0 < a) (ha : a < F.q) :
    ∃ e, e < F.q - 1 ∧ alphaPow F e = a := by
  have hmaps : Set.MapsTo (alphaPow F) (Finset.range (F.q - 1)) (Finset.Ioo 0 F.q) := fun e _ =>
    Finset.mem_coe.mpr (Finset.mem_Ioo.mpr
      ⟨Nat.pos_of_ne_zero (hφ.alphaPow_ne_zero hleg e), alphaPow_lt hφ.two_le hleg.1 e⟩)
  have hinj : Set.InjOn (alphaPow F) (Finset.range (F.q - 1)) := fun d hd e he h =>
    hφ.alpha_pow_injOn hleg (by simpa using hd) (by simpa using he)
      (by simp only [← hφ.map_alphaPow, h])
  obtain ⟨e, he, rfl⟩ := Finset.surjOn_of_injOn_of_card_le _ hmaps hinj (by simp)
    (Finset.mem_coe.mpr (Finset.mem_Ioo.mpr ⟨hpos, ha⟩))
  exact ⟨e, by simpa using he, rfl⟩

theorem gfLog_spec (hleg : FieldLegal F) {a : Nat} (hpos : 0 < a) (ha : a < F.q) :
    ∃ i, gfLog F a = some i ∧ i < F.q - 1 ∧ alphaPow F i = a := by
  obtain ⟨e, he, hea⟩ := hφ.exists_alphaPow_eq hleg hpos ha
  have hsome : (gfLog F a).isSome := List.find?_isSome.mpr ⟨e, by simpa using he, by simpa using hea⟩
  obtain ⟨i, hi⟩ := Option.isSome_iff_exists.mp hsome
  exact ⟨i, hi, by simpa using List.mem_of_find?_eq_some hi, by simpa using List.find?_some hi⟩

theorem mul_gfInv (hleg : FieldLegal F) {a : Nat} (hpos : 0 < a) (ha : a < F.q) :
    φ a * φ (gfInv F a) = 1 := by
  obtain ⟨e, -, rfl⟩ := hφ.exists_alphaPow_eq hleg hpos ha
  have hsucc : F.q - 2 + 1 = F.q - 1 := by have := hφ.one_lt_q; omega
  rw [(hφ.map_gfInv ha).2, ← pow_succ', hsucc, hφ.map_alphaPow, pow_right_comm,
    ← hφ.orderOf_alpha hleg, pow_orderOf_eq_one, one_pow]

theorem isField (hleg : FieldLegal F) : IsField K where
  exists_pair_ne := hφ.nontrivial.exists_pair_ne
  mul_comm := mul_comm
  mul_inv_cancel {x} hx := by
    obtain ⟨a, ha, rfl⟩ := hφ.surj x
    have hpos : 0 < a := Nat.pos_of_ne_zero fun h => hx ((hφ.eq_zero_iff ha).mpr h)
    exact ⟨_, hφ.mul_gfInv hleg hpos ha⟩

end Ring

end Represents

/-- Where rule R160 allows PRIM_m the ring is a field. -/
theorem exists_field {F : GF} (hm : 2 ≤ F.m) (hleg : FieldLegal F) :
    ∃ (K : Type) (_ : Field K) (φ : Nat → K), Represents F φ := by
  obtain ⟨K, _, φ, hφ⟩ := exists_ring hm hleg.1
  exact ⟨K, (hφ.isField hleg).toField, φ, hφ⟩

/-- Settles O32, in the ring: with a = α^i both `gf_inv` of a, which is a^(q−2), and α^(q−1−i) are the
inverse of a. -/
theorem everyNonzeroElementHasItsInverse : Obligations.EveryNonzeroElementHasItsInverse := by
  intro p f a F hleg hpos ha
  obtain ⟨K, _, φ, hφ⟩ := exists_ring (two_le_field_m p f) hleg.1
  have hinv := hφ.mul_gfInv hleg hpos ha
  obtain ⟨hinv_lt, -⟩ := hφ.map_gfInv ha
  obtain ⟨i, hlog, hi, rfl⟩ := hφ.gfLog_spec hleg hpos ha
  refine ⟨hφ.inj (gfMul_lt hleg.1 ha _) hφ.one_lt_q ?_, i, hlog, ?_⟩
  · rw [hφ.map_mul ha hinv_lt, hinv, hφ.map_one]
  · refine hφ.inj hinv_lt (alphaPow_lt hφ.two_le hleg.1 _) (left_inv_eq_right_inv ?_ hinv).symm
    rw [hφ.map_alphaPow, hφ.map_alphaPow, ← hφ.orderOf_alpha hleg, pow_mod_orderOf, ← pow_add,
      Nat.sub_add_cancel (hφ.orderOf_alpha hleg ▸ hi.le), pow_orderOf_eq_one]

end Sys2Proof.Machine

/-! ### Lists of coefficients as polynomials (42_reed_solomon.md rules R165 to R168) -/

namespace Sys2Proof.Machine

section Polynomial

open Polynomial

variable {F : GF} {K : Type} [CommRing K] {φ : Nat → K}

/-- The polynomial over K of a list of coefficients, highest power first (rule R165). -/
noncomputable def toPoly (φ : Nat → K) : List Nat → K[X]
  | [] => 0
  | c :: l => C (φ c) * X ^ l.length + toPoly φ l

@[simp] theorem toPoly_nil : toPoly φ [] = 0 := rfl

theorem toPoly_cons (c : Nat) (l : List Nat) :
    toPoly φ (c :: l) = C (φ c) * X ^ l.length + toPoly φ l := rfl

theorem toPoly_append (l l' : List Nat) :
    toPoly φ (l ++ l') = toPoly φ l * X ^ l'.length + toPoly φ l' := by
  induction l with
  | nil => simp
  | cons c l ih => rw [List.cons_append, toPoly_cons, toPoly_cons, ih, List.length_append]; ring

theorem degree_toPoly_lt (l : List Nat) : (toPoly φ l).degree < l.length := by
  induction l with
  | nil => simp
  | cons c l ih =>
    have hlead : (C (φ c) * X ^ l.length).degree ≤ (l.length : WithBot ℕ) := degree_C_mul_X_pow_le _ _
    have hlen : (l.length : WithBot ℕ) < (c :: l).length := by
      exact_mod_cast Nat.lt_succ_self l.length
    exact (degree_add_le _ _).trans_lt (max_lt (hlead.trans_lt hlen) (ih.trans hlen))

/-- The syndromes are written lowest power first. -/
theorem toPoly_reverse_map_range (f : Nat → Nat) (n : Nat) :
    toPoly φ ((List.range n).map f).reverse = ∑ j ∈ Finset.range n, C (φ (f j)) * X ^ j := by
  induction n with
  | zero => rfl
  | succ n ih =>
    rw [List.range_succ, List.map_append, List.reverse_append, Finset.sum_range_succ, ← ih, add_comm]
    simp [toPoly_cons]

/-- The value at z, coefficient by coefficient. -/
theorem eval_toPoly (l : List Nat) (z : K) :
    (toPoly φ l).eval z = ∑ i ∈ Finset.range l.length, φ (l.getD i 0) * z ^ (l.length - 1 - i) := by
  induction l with
  | nil => simp
  | cons c l ih =>
    rw [toPoly_cons, eval_add, ih, List.length_cons, Finset.sum_range_succ', add_comm]
    congr 1
    · exact Finset.sum_congr rfl fun i _ => by rw [List.getD_cons_succ]; congr 2; omega
    · simp

namespace Represents

variable (hφ : Represents F φ)
include hφ

theorem toPoly_zero_cons (l : List Nat) : toPoly φ (0 :: l) = toPoly φ l := by
  simp [toPoly_cons, hφ.map_zero]

theorem toPoly_replicate_zero (n : Nat) : toPoly φ (List.replicate n 0) = 0 := by
  induction n with
  | zero => rfl
  | succ n ih => rw [List.replicate_succ, hφ.toPoly_zero_cons, ih]

/-- Lists of one length with the same polynomial are the same. -/
theorem toPoly_inj {l l' : List Nat} (hlen : l.length = l'.length) (hl : ∀ c ∈ l, c < F.q)
    (hl' : ∀ c ∈ l', c < F.q) (h : toPoly φ l = toPoly φ l') : l = l' := by
  induction l generalizing l' with
  | nil => exact (List.length_eq_zero_iff.mp hlen.symm).symm
  | cons c l ih =>
    obtain _ | ⟨c', l'⟩ := l'
    · simp at hlen
    obtain ⟨hc, hl⟩ := List.forall_mem_cons.mp hl
    obtain ⟨hc', hls'⟩ := List.forall_mem_cons.mp hl'
    have hlen' : l.length = l'.length := by simpa using hlen
    have hlead (a : Nat) (k : List Nat) : (toPoly φ (a :: k)).coeff k.length = φ a := by
      rw [toPoly_cons, coeff_add, coeff_eq_zero_of_degree_lt (degree_toPoly_lt k), add_zero]
      simp
    obtain rfl : c = c' := hφ.inj hc hc' (by rw [← hlead c l, h, hlen', hlead])
    rw [toPoly_cons, toPoly_cons, hlen'] at h
    rw [ih hlen' hl hls' (add_left_cancel h)]

/-! #### The operations on lists of coefficients -/

theorem polyEval_foldl {z acc : Nat} (hz : z < F.q) (hacc : acc < F.q) {l : List Nat}
    (hl : ∀ c ∈ l, c < F.q) :
    let v := l.foldl (fun acc x => gfMul F acc z ^^^ x) acc
    v < F.q ∧ φ v = φ acc * φ z ^ l.length + (toPoly φ l).eval (φ z) := by
  induction l generalizing acc with
  | nil => exact ⟨hacc, by simp⟩
  | cons c l ih =>
    obtain ⟨hc, hl⟩ := List.forall_mem_cons.mp hl
    have hprod := gfMul_lt hφ.degree hacc z
    obtain ⟨hlt, hval⟩ := ih (xor_lt_q hprod hc) hl
    refine ⟨hlt, hval.trans ?_⟩
    rw [hφ.map_xor hprod hc, hφ.map_mul hacc hz, toPoly_cons, List.length_cons]
    simp only [eval_add, eval_mul, eval_C, eval_pow, eval_X]
    ring

/-- `poly_eval` is the value of the polynomial (rule R166). -/
theorem map_polyEval {z : Nat} (hz : z < F.q) {l : List Nat} (hl : ∀ c ∈ l, c < F.q) :
    polyEval F l z < F.q ∧ φ (polyEval F l z) = (toPoly φ l).eval (φ z) := by
  obtain ⟨hlt, hval⟩ := hφ.polyEval_foldl hz (Nat.two_pow_pos _) hl
  rw [hφ.map_zero, zero_mul, zero_add] at hval
  exact ⟨hlt, hval⟩

theorem polyEval_eq_zero_iff {z : Nat} (hz : z < F.q) {l : List Nat} (hl : ∀ c ∈ l, c < F.q) :
    polyEval F l z = 0 ↔ (toPoly φ l).eval (φ z) = 0 := by
  obtain ⟨hlt, hval⟩ := hφ.map_polyEval hz hl
  rw [← hval, hφ.eq_zero_iff hlt]

theorem toPoly_zipWith_xor {l l' : List Nat} (hlen : l.length = l'.length) (hl : ∀ c ∈ l, c < F.q)
    (hl' : ∀ c ∈ l', c < F.q) :
    toPoly φ (List.zipWith (· ^^^ ·) l l') = toPoly φ l + toPoly φ l' := by
  induction l generalizing l' with
  | nil => simp [List.length_eq_zero_iff.mp hlen.symm]
  | cons c l ih =>
    obtain _ | ⟨c', l'⟩ := l'
    · simp at hlen
    obtain ⟨hc, hl⟩ := List.forall_mem_cons.mp hl
    obtain ⟨hc', hl'⟩ := List.forall_mem_cons.mp hl'
    have hlen : l.length = l'.length := by simpa using hlen
    rw [List.zipWith_cons_cons, toPoly_cons, toPoly_cons, toPoly_cons, ih hlen hl hl',
      hφ.map_xor hc hc', List.length_zipWith, ← hlen, min_self, C_add]
    ring

theorem toPoly_map_gfMul {c : Nat} (hc : c < F.q) {l : List Nat} (hl : ∀ a ∈ l, a < F.q) :
    toPoly φ (l.map (gfMul F c)) = C (φ c) * toPoly φ l := by
  induction l with
  | nil => simp
  | cons a l ih =>
    obtain ⟨ha, hl⟩ := List.forall_mem_cons.mp hl
    rw [List.map_cons, toPoly_cons, toPoly_cons, ih hl, hφ.map_mul hc ha, List.length_map, C_mul]
    ring

theorem toPoly_xorInto {ps r : List Nat} (hlen : ps.length ≤ r.length) (hps : ∀ c ∈ ps, c < F.q)
    (hr : ∀ c ∈ r, c < F.q) :
    toPoly φ (xorInto ps r) = toPoly φ r + toPoly φ ps * X ^ (r.length - ps.length) := by
  induction ps generalizing r with
  | nil => simp [xorInto]
  | cons p ps ih =>
    obtain _ | ⟨c, r⟩ := r
    · simp at hlen
    obtain ⟨hp, hps⟩ := List.forall_mem_cons.mp hps
    obtain ⟨hc, hr⟩ := List.forall_mem_cons.mp hr
    have hlen : ps.length ≤ r.length := by simpa using hlen
    have hpow : (X : K[X]) ^ r.length = X ^ ps.length * X ^ (r.length - ps.length) := by
      rw [← pow_add, Nat.add_sub_cancel' hlen]
    rw [xorInto, toPoly_cons, toPoly_cons, toPoly_cons, ih hlen hps hr, hφ.map_xor hc hp, xorInto_length,
      List.length_cons, List.length_cons, Nat.add_sub_add_right, hpow, C_add]
    ring

end Represents

/-! #### Division (rule R168) -/

/-- What long division of a by b leaves: quotient and remainder. -/
structure IsQuotient (F : GF) (φ : Nat → K) (a b : List Nat) (qr : List Nat × List Nat) : Prop where
  quotient_lt : ∀ c ∈ qr.1, c < F.q
  remainder_lt : ∀ c ∈ qr.2, c < F.q
  quotient_length : qr.1.length + b.length = a.length + 1
  remainder_length : qr.2.length + 1 = b.length
  eq : toPoly φ a = toPoly φ qr.1 * toPoly φ b + toPoly φ qr.2

theorem Represents.divLoop_isQuotient (hφ : Represents F φ) {b₀ inv : Nat} {b : List Nat}
    (hinv : inv < F.q) (hb₀ : φ inv * φ b₀ = 1) (hb : ∀ c ∈ b, c < F.q) (k : Nat) {a : List Nat}
    (ha : ∀ c ∈ a, c < F.q) (hlen : a.length = b.length + k) :
    IsQuotient F φ a (b₀ :: b) (divLoop F inv b k a) := by
  have := hφ.charTwo
  induction k generalizing a with
  | zero => exact ⟨nofun, ha, by simp [divLoop, hlen], by simp [divLoop, hlen], by simp [divLoop]⟩
  | succ k ih =>
    obtain _ | ⟨f, a⟩ := a
    · simp at hlen
    obtain ⟨hf, ha⟩ := List.forall_mem_cons.mp ha
    have hlen : a.length = b.length + k := by simpa [← Nat.add_assoc] using hlen
    have hc := gfMul_lt hφ.degree hf inv
    have hcb : ∀ x ∈ b.map (gfMul F (gfMul F f inv)), x < F.q :=
      List.forall_mem_map.mpr fun x _ => gfMul_lt hφ.degree hc x
    obtain ⟨hq, hr, hqlen, hrlen, heq⟩ := ih (xorInto_lt hcb ha) (by rw [xorInto_length, hlen])
    rw [xorInto_length] at hqlen
    refine ⟨List.forall_mem_cons.mpr ⟨hc, hq⟩, hr, ?_, hrlen, ?_⟩
    · simp only [divLoop, List.length_cons] at hqlen ⊢
      omega
    · have hk : (divLoop F inv b k (xorInto (b.map (gfMul F (gfMul F f inv))) a)).1.length = k := by
        simp only [List.length_cons] at hqlen
        omega
      have hlead : (C (φ f) : K[X]) = C (φ f) * C (φ inv) * C (φ b₀) := by
        rw [mul_assoc, ← C_mul, hb₀, C_1, mul_one]
      rw [hφ.toPoly_xorInto (by simp [hlen]) hcb ha, hφ.toPoly_map_gfMul hc hb, hφ.map_mul hf hinv,
        List.length_map, hlen, Nat.add_sub_cancel_left, C_mul, ← CharTwo.sub_eq_add, sub_eq_iff_eq_add] at heq
      simp only [divLoop, toPoly_cons]
      rw [heq, hk, hlen, hφ.map_mul hf hinv, C_mul, pow_add, toPoly_cons]
      linear_combination X ^ b.length * X ^ k * hlead

end Polynomial

end Sys2Proof.Machine

/-! ### The code (42_reed_solomon.md rules R167, R168 and R176) -/

namespace Sys2Proof.Machine

section Generator

open Polynomial

variable {F : GF} {K : Type} [CommRing K] {φ : Nat → K}

/-- The division of rule R168 is long division by a polynomial with leading coefficient 1. -/
theorem remLoop_eq_divLoop (hF : DegreeLegal F) (hone : 1 < F.q) {g : List Nat} (hg : ∀ c ∈ g, c < F.q)
    (k : Nat) {rem : List Nat} (hrem : ∀ c ∈ rem, c < F.q) :
    remLoop F (1 :: g) k rem = (divLoop F 1 g k rem).2 := by
  induction k generalizing rem with
  | zero => rfl
  | succ k ih =>
    obtain _ | ⟨f, rem⟩ := rem
    · rfl
    obtain ⟨hf, hrem⟩ := List.forall_mem_cons.mp hrem
    have hmap : (g.map fun c => gfMul F c f) = g.map (gfMul F (gfMul F f 1)) :=
      List.map_congr_left fun c hc => by
        rw [gfMul_comm hf hone, gfMul_one_left hf, gfMul_comm (hg c hc) hf]
    rw [remLoop, divLoop, List.tail_cons, hmap]
    exact ih (xorInto_lt (List.forall_mem_map.mpr fun c _ => gfMul_lt hF (gfMul_lt hF hf 1) c) hrem)

theorem genPoly_eq_cons (E : Nat) : ∃ g, genPoly F E = 1 :: g ∧ g.length = E := by
  induction E with
  | zero => exact ⟨[], rfl, rfl⟩
  | succ E ih =>
    obtain ⟨g, hg, hlen⟩ := ih
    exact ⟨_, by rw [genPoly, hg, timesRoot]; rfl, by simp [hlen]⟩

namespace Represents

variable (hφ : Represents F φ)
include hφ

theorem toPoly_timesRoot {root : Nat} (hroot : root < F.q) {g : List Nat} (hg : ∀ c ∈ g, c < F.q) :
    toPoly φ (timesRoot F root g) = toPoly φ g * (X + C (φ root)) := by
  have hzero : 0 < F.q := Nat.two_pow_pos _
  have hmap : (g.map fun c => gfMul F c root) = g.map (gfMul F root) :=
    List.map_congr_left fun c hc => gfMul_comm (hg c hc) hroot
  have hprod : ∀ c ∈ g.map (gfMul F root), c < F.q :=
    List.forall_mem_map.mpr fun c _ => gfMul_lt hφ.degree hroot c
  rw [timesRoot, hmap, hφ.toPoly_zipWith_xor (by simp)
    (List.forall_mem_append.mpr ⟨hg, List.forall_mem_singleton.mpr hzero⟩)
    (List.forall_mem_cons.mpr ⟨hzero, hprod⟩), toPoly_append, hφ.toPoly_zero_cons, hφ.toPoly_zero_cons,
    hφ.toPoly_map_gfMul hroot hg]
  simp only [toPoly_nil, List.length_singleton]
  ring

/-- The generator polynomial is the product of its E factors (rule R167). -/
theorem toPoly_genPoly (E : Nat) :
    toPoly φ (genPoly F E) = ∏ j ∈ Finset.range E, (X + C (φ 2 ^ (F.genBase + j))) := by
  induction E with
  | zero => simp [genPoly, toPoly_cons, hφ.map_one]
  | succ E ih =>
    rw [genPoly, hφ.toPoly_timesRoot (alphaPow_lt hφ.two_le hφ.degree _) (genPoly_lt hφ.two_le hφ.degree E),
      ih, hφ.map_alphaPow, Finset.prod_range_succ]

theorem eval_genPoly {E j : Nat} (hj : j < E) :
    (toPoly φ (genPoly F E)).eval (φ 2 ^ (F.genBase + j)) = 0 := by
  have := hφ.charTwo
  rw [hφ.toPoly_genPoly, eval_prod]
  exact Finset.prod_eq_zero (Finset.mem_range.mpr hj) (by simp [CharTwo.add_self_eq_zero])

/-- Data and parity together are a multiple of the generator polynomial. -/
theorem exists_toPoly_append_parity {D : List Nat} (hD : ∀ c ∈ D, c < F.q) (E : Nat) :
    ∃ Q, toPoly φ (D ++ parity F D E) = Q * toPoly φ (genPoly F E) := by
  have := hφ.charTwo
  obtain ⟨g, hg, hlen⟩ := genPoly_eq_cons (F := F) E
  have hg_lt : ∀ c ∈ g, c < F.q := fun c hc =>
    genPoly_lt hφ.two_le hφ.degree E c (hg ▸ List.mem_cons_of_mem 1 hc)
  have hdividend : ∀ c ∈ D ++ List.replicate E 0, c < F.q := List.forall_mem_append.mpr
    ⟨hD, fun c hc => (List.eq_of_mem_replicate hc).trans_lt (Nat.two_pow_pos _)⟩
  have hdiv := hφ.divLoop_isQuotient (b₀ := 1) hφ.one_lt_q (by rw [hφ.map_one, one_mul]) hg_lt D.length
    hdividend (by simp [hlen, Nat.add_comm])
  have heq := hdiv.eq
  rw [← remLoop_eq_divLoop hφ.degree hφ.one_lt_q hg_lt _ hdividend, ← hg, ← parity, toPoly_append,
    hφ.toPoly_replicate_zero, add_zero, List.length_replicate] at heq
  rw [← sub_eq_iff_eq_add, CharTwo.sub_eq_add] at heq
  have hsum : toPoly φ (D ++ parity F D E) = toPoly φ D * X ^ E + toPoly φ (parity F D E) := by
    rw [toPoly_append, parity_length]
  exact ⟨_, hsum.trans heq⟩

/-- Code(n, E) in the terms of polynomials: the value is 0 at the E roots (rule R168). -/
theorem inCode_iff {n E : Nat} {W : List Nat} :
    InCode F n E W ↔ W.length = n ∧ (∀ c ∈ W, c < F.q) ∧
      ∀ j, j < E → (toPoly φ W).eval (φ 2 ^ (F.genBase + j)) = 0 := by
  refine and_congr_right fun _ => and_congr_right fun hW => forall₂_congr fun j _ => ?_
  rw [hφ.polyEval_eq_zero_iff (alphaPow_lt hφ.two_le hφ.degree _) hW, hφ.map_alphaPow]

end Represents

/-- Rule R178 item 1. -/
theorem inCode_append_parity (hm : 2 ≤ F.m) (hF : DegreeLegal F) {D : List Nat} (hD : ∀ c ∈ D, c < F.q)
    (E : Nat) : InCode F (D.length + E) E (D ++ parity F D E) := by
  obtain ⟨K, _, φ, hφ⟩ := exists_ring hm hF
  obtain ⟨Q, hQ⟩ := hφ.exists_toPoly_append_parity hD E
  refine hφ.inCode_iff.mpr ⟨by simp, List.forall_mem_append.mpr ⟨hD, parity_lt hm hF hD E⟩, ?_⟩
  intro j hj
  rw [hQ, eval_mul, hφ.eval_genPoly hj, mul_zero]

end Generator

/-! #### The parity is unique (rule R168) -/

section Unique

open Polynomial

variable {F : GF}

/-- Two words of the code that differ in their last E codewords only are the same: their tails are
polynomials of degree below E with the same value at the E roots. -/
theorem eq_of_inCode_append (hm : 2 ≤ F.m) (hleg : FieldLegal F) {D P P' : List Nat} {n E : Nat}
    (hlen : P.length = E) (hlen' : P'.length = E) (hroots : E ≤ F.q - 1) (hP : InCode F n E (D ++ P))
    (hP' : InCode F n E (D ++ P')) : P' = P := by
  obtain ⟨K, _, φ, hφ⟩ := exists_field hm hleg
  obtain ⟨-, hlt, hzero⟩ := hφ.inCode_iff.mp hP
  obtain ⟨-, hlt', hzero'⟩ := hφ.inCode_iff.mp hP'
  have hinj : Set.InjOn (fun j => φ 2 ^ (F.genBase + j)) (Finset.range E) := by
    intro i hi j hj hij
    simp only [pow_add] at hij
    have hi : i < E := by simpa using hi
    have hj : j < E := by simpa using hj
    exact hφ.alpha_pow_injOn hleg (hi.trans_le hroots) (hj.trans_le hroots)
      (mul_left_cancel₀ (hφ.alpha_pow_ne_zero hleg _) hij)
  refine hφ.toPoly_inj (hlen'.trans hlen.symm) (List.forall_mem_append.mp hlt').2
    (List.forall_mem_append.mp hlt).2 ?_
  refine eq_of_degrees_lt_of_eval_index_eq _ hinj ?_ ?_ fun j hj => ?_
  · simpa [hlen'] using degree_toPoly_lt (φ := φ) P'
  · simpa [hlen] using degree_toPoly_lt (φ := φ) P
  · have hj := Finset.mem_range.mp hj
    have heq := (hzero' j hj).trans (hzero j hj).symm
    rw [toPoly_append, toPoly_append, hlen, hlen', eval_add, eval_add] at heq
    exact add_left_cancel heq

end Unique

/-- Settles O36: the parity makes a word of the code, and another word on the same data has the same
last E codewords. -/
theorem parityIsTheOnlySystematicWord : Obligations.ParityIsTheOnlySystematicWord := by
  intro p f D W E F hleg hD hroots
  have hm : 2 ≤ F.m := two_le_field_m p f
  have hparity := inCode_append_parity hm hleg.1 hD E
  refine ⟨hparity, fun hW htake => ?_⟩
  obtain ⟨P, hP⟩ : ∃ P, D ++ P = W := ⟨_, htake ▸ List.take_append_drop D.length W⟩
  subst hP
  have hlen : P.length = E := by simpa using hW.1
  rw [eq_of_inCode_append hm hleg (parity_length D E) hlen (by omega) hparity hW]

end Sys2Proof.Machine

/-! ### RSENC, and RSDEC after it (42_reed_solomon.md rules R176 and R178) -/

namespace Sys2Proof.Machine

section Encode

theorem map_toNat_toCodewords {b : Block} {l : List Nat} (hl : ∀ v ∈ l, v < 2 ^ b.cwWidth) :
    (toCodewords l).map BitVec.toNat = l := by
  rw [toCodewords, List.map_map]
  exact (List.map_congr_left fun v hv => toNat_ofNat_codeword (hl v hv)).trans (List.map_id l)

@[simp] theorem toCodewords_map_toNat (l : List (BitVec 12)) : toCodewords (l.map BitVec.toNat) = l := by
  simp [toCodewords, Function.comp_def]

theorem syndromes_all_zero_iff {F : GF} {R : List Nat} {E : Nat} :
    (syndromes F R E).all (· == 0) = true ↔ ∀ j < E, polyEval F R (alphaPow F (F.genBase + j)) = 0 := by
  simp [syndromes]

theorem rsDecode_of_inCode {F : GF} {n E : Nat} {R : List Nat} (h : InCode F n E R) :
    rsDecode F R E = some (R, 0) :=
  if_pos (syndromes_all_zero_iff.mpr h.2.2)

/-- RSDEC past its two checks, where there is a word to correct to. -/
theorem rsdec_of_some {p : Params} {rd re : Reg} {b : Block} {W : List Nat} {e : Nat}
    (hn : ¬b.cwbuf.length > 2 ^ b.cwWidth - 1) (hE : ¬b.regNat re > b.cwbuf.length)
    (h : rsDecode (p.field b.fsel) b.cws (b.regNat re) = some (W, e)) :
    rsdec p rd re b = .done ({ b with cwbuf := toCodewords W }.setRegNat rd e) 0 := by
  simp only [rsdec, if_neg hn, if_neg hE, h]

/-- RSDEC past its two checks, where there is none. -/
theorem rsdec_of_none {p : Params} {rd re : Reg} {b : Block} (hn : ¬b.cwbuf.length > 2 ^ b.cwWidth - 1)
    (hE : ¬b.regNat re > b.cwbuf.length) (h : rsDecode (p.field b.fsel) b.cws (b.regNat re) = none) :
    rsdec p rd re b = .raise .ueRs 0 := by
  simp only [rsdec, if_neg hn, if_neg hE, h]

/-- A word of the code is left as it is. -/
theorem rsdec_of_inCode {p : Params} {rd re : Reg} {b : Block} {n : Nat}
    (hn : ¬b.cwbuf.length > 2 ^ b.cwWidth - 1) (hE : ¬b.regNat re > b.cwbuf.length)
    (h : InCode (p.field b.fsel) n (b.regNat re) b.cws) : rsdec p rd re b = .done (b.setReg rd 0) 0 := by
  rw [rsdec_of_some hn hE (rsDecode_of_inCode h), Block.cws, toCodewords_map_toNat]
  rfl

end Encode

/-- Settles O35, by the two checks of RSENC; the parity has codewords of the selected width. -/
theorem rsencMakesACodeWord : Obligations.RsencMakesACodeWord := by
  intro re s ⟨hp, hb⟩ hf
  have hm := two_le_field_m s.params s.block.fsel
  have hF := hp.degree s.block.fsel
  refine ⟨rfl, check_outcome hf rfl fun heff => check_outcome hf heff fun hdone => ?_⟩
  have hparity := map_toNat_toCodewords (b := s.block)
    (parity_lt hm hF hb.cws_lt (s.block.reg re).toNat)
  refine ⟨_, by simp [toCodewords], hparity, ?_, executesTo_of_effect hf hdone⟩
  rw [List.map_append, hparity]
  simpa [Block.cws] using inCode_append_parity hm hF hb.cws_lt (s.block.reg re).toNat

/-- Settles O38: RSENC leaves a word of the code, whose syndromes are all 0. -/
theorem rsencThenRsdecFindsNoError : Obligations.RsencThenRsdecFindsNoError := by
  intro re rd s hs hf hlen hroom
  obtain ⟨-, henc⟩ := rsencMakesACodeWord re s hs hf
  rw [if_neg (not_lt.mpr hlen), if_neg (not_lt.mpr hroom)] at henc
  obtain ⟨P, hP, -, hcode, hexec⟩ := henc
  have hbuf : (s.block.cwbuf ++ P).length = s.block.cwbuf.length + (s.block.reg re).toNat := by simp [hP]
  refine ⟨_, _, hexec, executesTo_of_effect (i := .rsdec rd re) (by exact hf)
    (rsdec_of_inCode ?_ ?_ hcode), rfl, rfl⟩
  · exact not_lt.mpr (hbuf.trans_le hlen)
  · exact not_lt.mpr ((Nat.le_add_left _ _).trans_eq hbuf.symm)

end Sys2Proof.Machine

/-! ### Error locator and error evaluator (42_reed_solomon.md rule R170)

The polynomials of Forney's formula, for errors of values y at the places I whose locators are x, and why
the extended Euclidean algorithm on x^E and S(x) finds them. -/

namespace Sys2Proof.Machine

section KeyEquation

open Polynomial

variable {K : Type} [Field K] (I : Finset Nat) (x y : Nat → K)

/-- σ(x), whose roots are the inverses of the locators. -/
noncomputable def locator : K[X] := ∏ i ∈ I, (1 - C (x i) * X)

/-- ω(x). -/
noncomputable def evaluator : K[X] := ∑ i ∈ I, C (y i) * ∏ l ∈ I.erase i, (1 - C (x l) * X)

/-- S(x), whose coefficients are the sums of the y_i · x_i^j. -/
noncomputable def powerSums (E : Nat) : K[X] :=
  ∑ j ∈ Finset.range E, C (∑ i ∈ I, y i * x i ^ j) * X ^ j

theorem powerSums_eq (E : Nat) :
    powerSums I x y E = ∑ i ∈ I, C (y i) * ∑ j ∈ Finset.range E, (C (x i) * X) ^ j := by
  simp only [powerSums, map_sum, Finset.sum_mul, Finset.mul_sum]
  rw [Finset.sum_comm]
  exact Finset.sum_congr rfl fun i _ => Finset.sum_congr rfl fun j _ => by
    rw [C_mul, C_pow, mul_pow, mul_assoc]

/-- The key equation: ω = σ · S modulo x^E, by the geometric sum of each locator. -/
theorem X_pow_dvd_evaluator_sub (E : Nat) : X ^ E ∣ evaluator I x y - locator I x * powerSums I x y E := by
  have hgeom : locator I x * powerSums I x y E =
      ∑ i ∈ I, C (y i) * (∏ l ∈ I.erase i, (1 - C (x l) * X)) * (1 - (C (x i) * X) ^ E) := by
    rw [powerSums_eq, Finset.mul_sum]
    refine Finset.sum_congr rfl fun i hi => ?_
    rw [locator, ← Finset.prod_erase_mul I _ hi, ← mul_neg_geom_sum]
    ring
  rw [hgeom, evaluator, ← Finset.sum_sub_distrib]
  refine Finset.dvd_sum fun i _ => ⟨C (y i) * (∏ l ∈ I.erase i, (1 - C (x l) * X)) * C (x i) ^ E, ?_⟩
  rw [mul_pow]
  ring

theorem derivative_locator : derivative (locator I x) = evaluator I x fun i => -x i := by
  rw [locator, derivative_prod_finset, evaluator]
  refine Finset.sum_congr rfl fun i _ => ?_
  rw [derivative_sub, derivative_one, derivative_C_mul_X, zero_sub, C_neg, mul_comm]

@[simp] theorem eval_zero_locator : (locator I x).eval 0 = 1 := by
  simp [locator, eval_prod]

theorem locator_ne_zero : locator I x ≠ 0 := fun h => by
  simpa [h] using eval_zero_locator I x

variable {I x y}

theorem eval_locator_eq_zero_iff {z : K} : (locator I x).eval z = 0 ↔ ∃ i ∈ I, x i * z = 1 := by
  rw [locator, eval_prod, Finset.prod_eq_zero_iff]
  simp [sub_eq_zero, eq_comm (a := (1 : K))]

theorem degree_factor {a : K} (ha : a ≠ 0) : (1 - C a * X).degree = 1 := by
  have hlinear : 1 - C a * X = C (-a) * X + C 1 := by simp [neg_add_eq_sub]
  rw [hlinear, degree_linear (neg_ne_zero.mpr ha)]

theorem natDegree_factor {a : K} (ha : a ≠ 0) : (1 - C a * X).natDegree = 1 :=
  natDegree_eq_of_degree_eq_some (degree_factor ha)

/-- Polynomials of small degree that agree modulo x^E are the same. -/
theorem eq_of_X_pow_dvd_sub {E : Nat} {p q : K[X]} (hp : p.natDegree < E) (hq : q.natDegree < E)
    (h : X ^ E ∣ p - q) : p = q := by
  by_contra hne
  have hle := natDegree_le_of_dvd h (sub_ne_zero.mpr hne)
  have hsub := natDegree_sub_le p q
  rw [natDegree_X_pow] at hle
  omega

section Locators

variable (hx : ∀ i ∈ I, x i ≠ 0)
include hx

theorem natDegree_prod_factors : (∏ i ∈ I, (1 - C (x i) * X)).natDegree = I.card := by
  rw [natDegree_prod _ _ fun i hi h => by simpa [h] using natDegree_factor (hx i hi)]
  simpa using Finset.sum_congr rfl fun i hi => natDegree_factor (hx i hi)

theorem natDegree_locator : (locator I x).natDegree = I.card := natDegree_prod_factors hx

theorem natDegree_evaluator_le : (evaluator I x y).natDegree ≤ I.card - 1 := by
  refine natDegree_sum_le_of_forall_le _ _ fun i hi => (natDegree_C_mul_le _ _).trans ?_
  rw [natDegree_prod_factors fun l hl => hx l (Finset.mem_of_mem_erase hl), Finset.card_erase_of_mem hi]

/-- At the inverse of a locator all terms of ω but one are 0. -/
theorem eval_evaluator {i : Nat} (hi : i ∈ I) :
    (evaluator I x y).eval (x i)⁻¹ = y i * ∏ l ∈ I.erase i, (1 - x l * (x i)⁻¹) := by
  rw [evaluator, eval_finsetSum, Finset.sum_eq_single i]
  · simp [eval_prod]
  · intro k _ hk
    have hfactor : (1 - C (x i) * X).eval (x i)⁻¹ = 0 := by simp [hx i hi]
    rw [eval_mul, eval_prod, Finset.prod_eq_zero (Finset.mem_erase.mpr ⟨hk.symm, hi⟩) hfactor, mul_zero]
  · exact fun h => absurd hi h

variable (hinj : Set.InjOn x I)
include hinj

theorem prod_one_sub_ne_zero {i : Nat} (hi : i ∈ I) : ∏ l ∈ I.erase i, (1 - x l * (x i)⁻¹) ≠ 0 := by
  refine Finset.prod_ne_zero_iff.mpr fun l hl h => ?_
  obtain ⟨hne, hl⟩ := Finset.mem_erase.mp hl
  rw [sub_eq_zero, eq_mul_inv_iff_mul_eq₀ (hx i hi), one_mul] at h
  exact hne (hinj hl hi h.symm)

/-- Forney's formula: ω over σ' at the inverse of a locator. -/
theorem eval_evaluator_div_derivative {i : Nat} (hi : i ∈ I) :
    (evaluator I x y).eval (x i)⁻¹ * ((derivative (locator I x)).eval (x i)⁻¹)⁻¹ = y i * (-x i)⁻¹ := by
  have hprod := prod_one_sub_ne_zero hx hinj hi
  rw [derivative_locator, eval_evaluator hx hi, eval_evaluator hx hi, mul_inv, mul_mul_mul_comm,
    mul_inv_cancel₀ hprod, mul_one]

variable (hy : ∀ i ∈ I, y i ≠ 0)
include hy

theorem eval_evaluator_ne_zero {i : Nat} (hi : i ∈ I) : (evaluator I x y).eval (x i)⁻¹ ≠ 0 := by
  rw [eval_evaluator hx hi]
  exact mul_ne_zero (hy i hi) (prod_one_sub_ne_zero hx hinj hi)

theorem isCoprime_locator_evaluator : IsCoprime (locator I x) (evaluator I x y) := by
  refine IsCoprime.prod_left fun i hi => ?_
  refine (irreducible_of_degree_eq_one (degree_factor (hx i hi))).coprime_iff_not_dvd.mpr fun hdvd => ?_
  have hroot : (1 - C (x i) * X).eval (x i)⁻¹ = 0 := by simp [hx i hi]
  exact eval_evaluator_ne_zero hx hinj hy hi (eval_eq_zero_of_dvd_of_eval_eq_zero hdvd hroot)

/-- Errors at up to E places show in S. -/
theorem powerSums_ne_zero {E : Nat} (hI : I.Nonempty) (hcard : I.card ≤ E) : powerSums I x y E ≠ 0 := by
  intro hzero
  obtain ⟨i, hi⟩ := hI
  have hdvd := X_pow_dvd_evaluator_sub I x y E
  have hω := natDegree_evaluator_le (y := y) hx
  have hpos := Finset.card_pos.mpr ⟨i, hi⟩
  rw [hzero, mul_zero] at hdvd
  have hω_zero := eq_of_X_pow_dvd_sub (by omega) (by rw [natDegree_zero]; omega) hdvd
  exact eval_evaluator_ne_zero hx hinj hy hi (by rw [hω_zero, eval_zero])

end Locators

/-! #### The extended Euclidean algorithm -/

/-- What every pass of the algorithm on x^E and S keeps: remainders r and cofactors t with r = t·S modulo
x^E. -/
structure EuclidInv (E : Nat) (S r₀ r₁ t₀ t₁ : K[X]) : Prop where
  dvd₀ : X ^ E ∣ r₀ - t₀ * S
  dvd₁ : X ^ E ∣ r₁ - t₁ * S
  det : t₁ * r₀ + t₀ * r₁ = X ^ E
  degree₀ : t₀.natDegree + r₀.natDegree ≤ E
  degree₁ : t₁.natDegree + r₀.natDegree ≤ E
  half : E ≤ 2 * r₀.natDegree

theorem EuclidInv.start {E : Nat} (S : K[X]) : EuclidInv E S (X ^ E) S 0 1 where
  dvd₀ := by simp
  dvd₁ := by simp
  det := by simp
  degree₀ := by simp
  degree₁ := by simp
  half := by simp [two_mul]

theorem EuclidInv.pass [CharP K 2] {E : Nat} {S r₀ r₁ r₂ t₀ t₁ q : K[X]} (h : EuclidInv E S r₀ r₁ t₀ t₁)
    (hdiv : r₀ = q * r₁ + r₂) (hq : q.natDegree + r₁.natDegree ≤ r₀.natDegree)
    (hhalf : E ≤ 2 * r₁.natDegree) : EuclidInv E S r₁ r₂ t₁ (q * t₁ + t₀) where
  dvd₀ := h.dvd₁
  dvd₁ := by
    have hcomb : r₂ - (q * t₁ + t₀) * S = (r₀ - t₀ * S) - q * (r₁ - t₁ * S) - 2 * (q * t₁ * S) := by
      rw [hdiv]; ring
    rw [hcomb, CharTwo.two_eq_zero, zero_mul, sub_zero]
    exact dvd_sub h.dvd₀ (h.dvd₁.mul_left q)
  det := by
    rw [← h.det, hdiv]
    ring
  degree₀ := by
    have := h.degree₁
    omega
  degree₁ := by
    have h₀ := h.degree₀
    have h₁ := h.degree₁
    have hadd := natDegree_add_le (q * t₁) t₀
    have hmul := natDegree_mul_le (p := q) (q := t₁)
    omega
  half := hhalf

/-- Where the algorithm stops it has found σ and ω up to a constant. -/
theorem EuclidInv.exists_const [CharP K 2] {E : Nat} {r₀ r₁ t₀ t₁ : K[X]}
    (h : EuclidInv E (powerSums I x y E) r₀ r₁ t₀ t₁) (hstop : 2 * r₁.natDegree < E)
    (hx : ∀ i ∈ I, x i ≠ 0) (hinj : Set.InjOn x I) (hy : ∀ i ∈ I, y i ≠ 0) (hI : 0 < I.card)
    (hcard : 2 * I.card ≤ E) : ∃ a ≠ 0, t₁ = C a * locator I x ∧ r₁ = C a * evaluator I x y := by
  obtain ⟨u, hu⟩ := X_pow_dvd_evaluator_sub I x y E
  obtain ⟨v, hv⟩ := h.dvd₁
  have hcross : evaluator I x y * t₁ = r₁ * locator I x := by
    have hσ := natDegree_locator hx
    have hω := natDegree_evaluator_le (y := y) hx
    refine eq_of_X_pow_dvd_sub (E := E) (natDegree_mul_le.trans_lt ?_) (natDegree_mul_le.trans_lt ?_)
      ⟨u * t₁ - v * locator I x, ?_⟩
    · have := h.degree₁
      have := h.half
      omega
    · omega
    · linear_combination t₁ * hu - locator I x * hv
  obtain ⟨a, ha⟩ : locator I x ∣ t₁ :=
    (isCoprime_locator_evaluator hx hinj hy).dvd_of_dvd_mul_left ⟨r₁, hcross.trans (mul_comm _ _)⟩
  have hr₁ : r₁ = a * evaluator I x y := by
    apply mul_right_cancel₀ (locator_ne_zero I x)
    rw [← hcross, ha]
    ring
  obtain ⟨w, hw⟩ := h.dvd₀
  have hunit : a * (locator I x * w + t₀ * u) = 1 := by
    apply mul_left_cancel₀ (pow_ne_zero E (X_ne_zero (R := K)))
    have hdet := h.det
    rw [ha, hr₁] at hdet
    linear_combination hdet - a * locator I x * hw - a * t₀ * hu -
      a * locator I x * t₀ * powerSums I x y E * CharTwo.two_eq_zero (R := K[X])
  obtain ⟨c, hc, rfl⟩ := Polynomial.isUnit_iff.mp (IsUnit.of_mul_eq_one _ hunit)
  exact ⟨c, hc.ne_zero, ha.trans (mul_comm _ _), hr₁⟩

end KeyEquation

end Sys2Proof.Machine

/-! ### The procedure of RSDEC on lists of coefficients (42_reed_solomon.md rule R170) -/

namespace Sys2Proof.Machine

section Trim

/-- No leading zero. -/
def Trimmed (l : List Nat) : Prop := ∀ c ∈ l.head?, c ≠ 0

theorem polyTrim_trimmed (a : List Nat) : Trimmed (polyTrim a) := by
  intro c hc
  have hhead := List.head?_dropWhile_not (· == 0) a
  rw [← polyTrim, hc] at hhead
  simpa using hhead

theorem mem_of_mem_polyTrim {a : List Nat} {c : Nat} (h : c ∈ polyTrim a) : c ∈ a :=
  (List.dropWhile_sublist _).subset h

theorem polyTrim_length_le (a : List Nat) : (polyTrim a).length ≤ a.length :=
  (List.dropWhile_sublist _).length_le

end Trim

section Procedure

open Polynomial

variable {F : GF} {K : Type} [CommRing K] {φ : Nat → K}

theorem replicate_append_lt (n : Nat) {l : List Nat} (hl : ∀ c ∈ l, c < F.q) :
    ∀ c ∈ List.replicate n 0 ++ l, c < F.q :=
  List.forall_mem_append.mpr ⟨fun _ hc => (List.eq_of_mem_replicate hc).trans_lt (Nat.two_pow_pos _), hl⟩

theorem polyAdd_lt {a b : List Nat} (ha : ∀ c ∈ a, c < F.q) (hb : ∀ c ∈ b, c < F.q) :
    ∀ c ∈ polyAdd a b, c < F.q :=
  zipWith_xor_lt (replicate_append_lt _ ha) (replicate_append_lt _ hb)

theorem natDegree_toPoly_le (l : List Nat) : (toPoly φ l).natDegree ≤ l.length - 1 := by
  obtain _ | ⟨c, l⟩ := l
  · simp
  by_cases h : toPoly φ (c :: l) = 0
  · simp [h]
  · exact Nat.le_sub_one_of_lt ((natDegree_lt_iff_degree_lt h).mpr (degree_toPoly_lt _))

theorem polyDeriv_cons_length (c : Nat) (l : List Nat) : (polyDeriv (c :: l)).length = l.length := by
  induction l generalizing c with
  | nil => rfl
  | cons c' l ih => simp [polyDeriv, ih]

namespace Represents

variable (hφ : Represents F φ)
include hφ

theorem toPoly_polyTrim (a : List Nat) : toPoly φ (polyTrim a) = toPoly φ a := by
  induction a with
  | nil => rfl
  | cons c a ih =>
    obtain rfl | hc := eq_or_ne c 0
    · rw [hφ.toPoly_zero_cons, ← ih, polyTrim, List.dropWhile_cons_of_pos (by rfl), polyTrim]
    · rw [polyTrim, List.dropWhile_cons_of_neg (by simpa using hc)]

theorem natDegree_toPoly_of_trimmed {l : List Nat} (hl : ∀ c ∈ l, c < F.q) (h : Trimmed l) :
    (toPoly φ l).natDegree = l.length - 1 := by
  obtain _ | ⟨c, l⟩ := l
  · simp
  have hc : φ c ≠ 0 := fun hzero =>
    h c rfl ((hφ.eq_zero_iff (hl c List.mem_cons_self)).mp hzero)
  have hlead := natDegree_C_mul_X_pow l.length (φ c) hc
  refine natDegree_eq_of_degree_eq_some ?_
  rw [toPoly_cons, degree_add_eq_left_of_degree_lt, degree_C_mul_X_pow _ hc]
  · rfl
  · rw [degree_C_mul_X_pow _ hc]
    exact degree_toPoly_lt l

theorem toPoly_polyAdd {a b : List Nat} (ha : ∀ c ∈ a, c < F.q) (hb : ∀ c ∈ b, c < F.q) :
    toPoly φ (polyAdd a b) = toPoly φ a + toPoly φ b := by
  have hlen : (List.replicate (b.length - a.length) 0 ++ a).length =
      (List.replicate (a.length - b.length) 0 ++ b).length := by
    simp only [List.length_append, List.length_replicate]
    omega
  rw [polyAdd, hφ.toPoly_zipWith_xor hlen (replicate_append_lt _ ha) (replicate_append_lt _ hb),
    toPoly_append, toPoly_append, hφ.toPoly_replicate_zero, hφ.toPoly_replicate_zero, zero_mul, zero_mul,
    zero_add, zero_add]

theorem polyMul_foldl {a b acc : List Nat} (ha : ∀ c ∈ a, c < F.q) (hb : ∀ c ∈ b, c < F.q)
    (hacc : ∀ c ∈ acc, c < F.q) :
    let p := a.foldl (fun acc c => polyAdd (acc ++ [0]) (b.map (gfMul F c))) acc
    (∀ c ∈ p, c < F.q) ∧ toPoly φ p = toPoly φ acc * X ^ a.length + toPoly φ a * toPoly φ b := by
  induction a generalizing acc with
  | nil => exact ⟨hacc, by simp⟩
  | cons c a ih =>
    obtain ⟨hc, ha⟩ := List.forall_mem_cons.mp ha
    have hshift : ∀ c ∈ acc ++ [0], c < F.q :=
      List.forall_mem_append.mpr ⟨hacc, List.forall_mem_singleton.mpr (Nat.two_pow_pos _)⟩
    have hprod : ∀ x ∈ b.map (gfMul F c), x < F.q :=
      List.forall_mem_map.mpr fun x _ => gfMul_lt hφ.degree hc x
    obtain ⟨hlt, heq⟩ := ih ha (polyAdd_lt hshift hprod)
    refine ⟨hlt, heq.trans ?_⟩
    rw [hφ.toPoly_polyAdd hshift hprod, toPoly_append, hφ.toPoly_map_gfMul hc hb, hφ.toPoly_zero_cons,
      toPoly_cons, List.length_cons]
    simp only [toPoly_nil, List.length_cons, List.length_nil]
    ring

theorem polyMul_spec {a b : List Nat} (ha : ∀ c ∈ a, c < F.q) (hb : ∀ c ∈ b, c < F.q) :
    (∀ c ∈ polyMul F a b, c < F.q) ∧ toPoly φ (polyMul F a b) = toPoly φ a * toPoly φ b := by
  obtain ⟨hlt, heq⟩ := hφ.polyMul_foldl ha hb (List.forall_mem_nil _)
  exact ⟨hlt, heq.trans (by simp)⟩

theorem polyDivMod_isQuotient (hleg : FieldLegal F) {a b : List Nat} (ha : ∀ c ∈ a, c < F.q)
    (hb : ∀ c ∈ b, c < F.q) (hne : b ≠ []) (htrim : Trimmed b) (hlen : b.length ≤ a.length) :
    IsQuotient F φ a b (polyDivMod F a b) := by
  obtain _ | ⟨b₀, b⟩ := b
  · exact absurd rfl hne
  obtain ⟨hb₀, hb⟩ := List.forall_mem_cons.mp hb
  have hinv := hφ.mul_gfInv hleg (Nat.pos_of_ne_zero (htrim b₀ rfl)) hb₀
  have hlen' : a.length = b.length + (a.length + 1 - (b₀ :: b).length) := by
    simp only [List.length_cons] at hlen ⊢
    omega
  exact hφ.divLoop_isQuotient (hφ.map_gfInv hb₀).1 (by rw [mul_comm, hinv]) hb _ ha hlen'

/-- In characteristic 2 the derivative keeps the coefficients of odd powers. -/
theorem toPoly_polyDeriv (l : List Nat) : toPoly φ (polyDeriv l) = derivative (toPoly φ l) := by
  have := hφ.charTwo
  induction l with
  | nil => simp [polyDeriv]
  | cons c l ih =>
    obtain _ | ⟨c', l⟩ := l
    · simp [polyDeriv, toPoly_cons]
    have hcoeff : φ (if l.length % 2 = 0 then c else 0) = φ c * ((l.length + 1 : ℕ) : K) := by
      simp only [CharTwo.natCast_eq_ite, Nat.even_add_one, Nat.even_iff]
      split <;> simp [*, hφ.map_zero]
    rw [polyDeriv, toPoly_cons, ih, hcoeff, toPoly_cons c, derivative_add, polyDeriv_cons_length,
      List.length_cons, derivative_C_mul_X_pow, Nat.add_sub_cancel]

end Represents

end Procedure

section Euclid

open Polynomial

variable {F : GF} {K : Type} [Field K] {φ : Nat → K}

/-- What every pass of `euclid` keeps: both remainders without leading zeros, the second the shorter, and
the invariant of the algorithm for the polynomials. -/
structure EuclidState (F : GF) (φ : Nat → K) (E : Nat) (S : K[X]) (r₀ r₁ t₀ t₁ : List Nat) : Prop where
  r₀_lt : ∀ c ∈ r₀, c < F.q
  r₁_lt : ∀ c ∈ r₁, c < F.q
  t₀_lt : ∀ c ∈ t₀, c < F.q
  t₁_lt : ∀ c ∈ t₁, c < F.q
  r₀_trimmed : Trimmed r₀
  r₁_trimmed : Trimmed r₁
  shorter : r₁.length < r₀.length
  inv : EuclidInv E S (toPoly φ r₀) (toPoly φ r₁) (toPoly φ t₀) (toPoly φ t₁)

theorem EuclidState.pass (hφ : Represents F φ) (hleg : FieldLegal F) {E : Nat} {S : K[X]}
    {r₀ r₁ t₀ t₁ : List Nat} (h : EuclidState F φ E S r₀ r₁ t₀ t₁) (hne : r₁ ≠ [])
    (hhalf : E ≤ 2 * (r₁.length - 1)) :
    EuclidState F φ E S r₁ (polyTrim (polyDivMod F r₀ r₁).2) t₁
      (polyAdd (polyMul F (polyDivMod F r₀ r₁).1 t₁) t₀) := by
  have := hφ.charTwo
  have hdiv := hφ.polyDivMod_isQuotient hleg h.r₀_lt h.r₁_lt hne h.r₁_trimmed h.shorter.le
  obtain ⟨hmul_lt, hmul⟩ := hφ.polyMul_spec hdiv.quotient_lt h.t₁_lt
  have hr₀ := hφ.natDegree_toPoly_of_trimmed h.r₀_lt h.r₀_trimmed
  have hr₁ := hφ.natDegree_toPoly_of_trimmed h.r₁_lt h.r₁_trimmed
  have hpos := List.length_pos_iff.mpr hne
  exact {
    r₀_lt := h.r₁_lt
    r₁_lt := fun c hc => hdiv.remainder_lt c (mem_of_mem_polyTrim hc)
    t₀_lt := h.t₁_lt
    t₁_lt := polyAdd_lt hmul_lt h.t₀_lt
    r₀_trimmed := h.r₁_trimmed
    r₁_trimmed := polyTrim_trimmed _
    shorter := by
      have hle := polyTrim_length_le (polyDivMod F r₀ r₁).2
      have hlen := hdiv.remainder_length
      omega
    inv := by
      rw [hφ.toPoly_polyTrim, hφ.toPoly_polyAdd hmul_lt h.t₀_lt, hmul]
      have hq : (toPoly φ (polyDivMod F r₀ r₁).1).natDegree + (toPoly φ r₁).natDegree ≤
          (toPoly φ r₀).natDegree := by
        have hle := natDegree_toPoly_le (φ := φ) (polyDivMod F r₀ r₁).1
        have hlen := hdiv.quotient_length
        have hshorter := h.shorter
        omega
      exact h.inv.pass hdiv.eq hq (hr₁.symm ▸ hhalf) }

/-- The algorithm stops, within as many passes as the second remainder is long, with a remainder of degree
below E/2. -/
theorem EuclidState.euclid_spec (hφ : Represents F φ) (hleg : FieldLegal F) {E : Nat} {S : K[X]} (hE : 0 < E)
    (k : Nat) {r₀ r₁ t₀ t₁ : List Nat} (h : EuclidState F φ E S r₀ r₁ t₀ t₁) (hk : r₁.length ≤ k) :
    ∃ sigma omega r t, euclid F E k r₀ r₁ t₀ t₁ = (sigma, omega) ∧
      EuclidState F φ E S r omega t sigma ∧ 2 * (omega.length - 1) < E := by
  induction k generalizing r₀ r₁ t₀ t₁ with
  | zero => exact ⟨t₁, r₁, r₀, t₀, rfl, h, by omega⟩
  | succ k ih =>
    by_cases hstop : r₁ = [] ∨ 2 * (r₁.length - 1) < E
    · refine ⟨t₁, r₁, r₀, t₀, if_pos hstop, h, ?_⟩
      obtain rfl | hlt := hstop
      · simpa using hE
      · exact hlt
    · obtain ⟨hne, hhalf⟩ := not_or.mp hstop
      have hpass := h.pass hφ hleg hne (not_lt.mp hhalf)
      obtain ⟨sigma, omega, r, t, heq, hlast⟩ := ih hpass (by have := hpass.shorter; omega)
      exact ⟨sigma, omega, r, t, (if_neg hstop).trans heq, hlast⟩

end Euclid

end Sys2Proof.Machine

/-! ### RSDEC finds the word of the code in reach (42_reed_solomon.md rules R169, R170 and R177) -/

namespace Sys2Proof.Machine

section Errors

open Polynomial

variable {F : GF} {K : Type} [Field K] {φ : Nat → K}

/-- The indexes at which an error vector is not 0. -/
def errorPlaces (e : List Nat) : Finset Nat := (Finset.range e.length).filter fun i => e.getD i 0 ≠ 0

/-- The locator of index i in a word of n codewords: α to the power of x that stands at i. -/
def locatorOf (φ : Nat → K) (n i : Nat) : K := φ 2 ^ (n - 1 - i)

/-- The error at index i with the factor that the first root α^GENBASE gives it. -/
def errorTerm (F : GF) (φ : Nat → K) (e : List Nat) (i : Nat) : K :=
  φ (e.getD i 0) * locatorOf φ e.length i ^ F.genBase

theorem card_errorPlaces (e : List Nat) : (errorPlaces e).card = e.countP (· != 0) := by
  rw [errorPlaces, Finset.card_filter]
  induction e with
  | nil => rfl
  | cons c e ih =>
    rw [List.length_cons, Finset.sum_range_succ', List.countP_cons, ← ih]
    simp

theorem getD_lt {e : List Nat} (he : ∀ c ∈ e, c < F.q) (i : Nat) : e.getD i 0 < F.q := by
  obtain hi | hi := lt_or_ge i e.length
  · rw [List.getD_eq_getElem _ _ hi]
    exact he _ (List.getElem_mem hi)
  · rw [List.getD_eq_default _ _ hi]
    exact Nat.two_pow_pos _

namespace Represents

variable (hφ : Represents F φ) (hleg : FieldLegal F)
include hφ

theorem eval_zero_toPoly (l : List Nat) : (toPoly φ l).eval 0 = φ (l.getLastD 0) := by
  induction l with
  | nil => simp [hφ.map_zero]
  | cons c l ih =>
    obtain _ | ⟨c', l⟩ := l
    · simp [toPoly_cons]
    · rw [toPoly_cons, eval_add, ih]
      simp

include hleg

theorem map_gfInv_eq_inv {a : Nat} (ha : a < F.q) : φ (gfInv F a) = (φ a)⁻¹ := by
  obtain rfl | hpos := a.eq_zero_or_pos
  · have hexp : F.q - 2 ≠ 0 := by
      have := Nat.pow_le_pow_right two_pos hφ.two_le
      rw [GF.q]
      omega
    rw [(hφ.map_gfInv ha).2, hφ.map_zero, zero_pow hexp, inv_zero]
  · exact eq_inv_of_mul_eq_one_right (hφ.mul_gfInv hleg hpos ha)

theorem locatorOf_ne_zero (n i : Nat) : locatorOf φ n i ≠ 0 := hφ.alpha_pow_ne_zero hleg _

theorem locatorOf_inj {n i j : Nat} (hn : n ≤ F.q - 1) (hi : i < n) (hj : j < n)
    (h : locatorOf φ n i = locatorOf φ n j) : i = j := by
  have hexp : n - 1 - i = n - 1 - j :=
    hφ.alpha_pow_injOn hleg (Set.mem_Iio.mpr (by omega)) (Set.mem_Iio.mpr (by omega)) h
  omega

theorem locatorOf_injOn {e : List Nat} (hn : e.length ≤ F.q - 1) :
    Set.InjOn (locatorOf φ e.length) (errorPlaces e) := fun _ hi _ hj h =>
  hφ.locatorOf_inj hleg hn (Finset.mem_range.mp (Finset.mem_filter.mp hi).1)
    (Finset.mem_range.mp (Finset.mem_filter.mp hj).1) h

theorem errorTerm_ne_zero {e : List Nat} (he : ∀ c ∈ e, c < F.q) {i : Nat} (hi : i ∈ errorPlaces e) :
    errorTerm F φ e i ≠ 0 := by
  have hne : φ (e.getD i 0) ≠ 0 := fun h =>
    (Finset.mem_filter.mp hi).2 ((hφ.eq_zero_iff (getD_lt he i)).mp h)
  exact mul_ne_zero hne (pow_ne_zero _ (hφ.locatorOf_ne_zero hleg _ _))

end Represents

/-! #### The syndromes -/

/-- The value of the error polynomial at a root, by its places. -/
theorem Represents.eval_toPoly_errors (hφ : Represents F φ) (e : List Nat) (j : Nat) :
    (toPoly φ e).eval (φ 2 ^ (F.genBase + j)) =
      ∑ i ∈ errorPlaces e, errorTerm F φ e i * locatorOf φ e.length i ^ j := by
  rw [eval_toPoly, errorPlaces, Finset.sum_filter_of_ne]
  · refine Finset.sum_congr rfl fun i _ => ?_
    rw [errorTerm, locatorOf, mul_assoc, ← pow_add, ← pow_mul, ← pow_mul, Nat.mul_comm]
  · intro i _ hterm hzero
    exact hterm (by rw [errorTerm, hzero, hφ.map_zero, zero_mul, zero_mul])

/-- Where an error vector leads from R to a word of the code, the syndromes of R are those of the errors. -/
theorem Represents.map_syndrome (hφ : Represents F φ) {R e : List Nat} {E : Nat} (hlen : R.length = e.length)
    (hR : ∀ c ∈ R, c < F.q) (he : ∀ c ∈ e, c < F.q)
    (hcode : InCode F R.length E (List.zipWith (· ^^^ ·) R e)) {j : Nat} (hj : j < E) :
    φ (polyEval F R (alphaPow F (F.genBase + j))) =
      ∑ i ∈ errorPlaces e, errorTerm F φ e i * locatorOf φ e.length i ^ j := by
  have := hφ.charTwo
  obtain ⟨-, -, hzero⟩ := hφ.inCode_iff.mp hcode
  have hsum := hzero j hj
  rw [hφ.toPoly_zipWith_xor hlen hR he, eval_add, CharTwo.add_eq_zero] at hsum
  rw [(hφ.map_polyEval (alphaPow_lt hφ.two_le hφ.degree _) hR).2, hφ.map_alphaPow, hsum,
    hφ.eval_toPoly_errors]

theorem Represents.toPoly_syndromes (hφ : Represents F φ) {R e : List Nat} {E : Nat}
    (hlen : R.length = e.length) (hR : ∀ c ∈ R, c < F.q) (he : ∀ c ∈ e, c < F.q)
    (hcode : InCode F R.length E (List.zipWith (· ^^^ ·) R e)) :
    toPoly φ (syndromes F R E).reverse =
      powerSums (errorPlaces e) (locatorOf φ e.length) (errorTerm F φ e) E := by
  rw [syndromes, toPoly_reverse_map_range, powerSums]
  refine Finset.sum_congr rfl fun j hj => ?_
  rw [hφ.map_syndrome hlen hR he hcode (Finset.mem_range.mp hj)]

/-! #### The error values -/

theorem polyDeriv_lt {l : List Nat} (hl : ∀ c ∈ l, c < F.q) : ∀ c ∈ polyDeriv l, c < F.q := by
  induction l with
  | nil => nofun
  | cons c l ih =>
    obtain _ | ⟨c', l⟩ := l
    · nofun
    obtain ⟨hc, hl⟩ := List.forall_mem_cons.mp hl
    refine List.forall_mem_cons.mpr ⟨?_, ih hl⟩
    split
    · exact hc
    · exact Nat.two_pow_pos _

section Values

variable (hφ : Represents F φ) (hleg : FieldLegal F) {e sigma omega : List Nat} {a : K}
  (hn : e.length ≤ F.q - 1) (hsigma : ∀ c ∈ sigma, c < F.q) (ha : a ≠ 0)
  (hσ : toPoly φ sigma = C a * locator (errorPlaces e) (locatorOf φ e.length))
include hφ hleg hn hsigma ha hσ

/-- The search for the roots of σ finds the places of the errors. -/
theorem polyEval_sigma_eq_zero_iff {i : Nat} (hi : i < e.length) {z : Nat} (hz : z < F.q)
    (hzval : φ z = (locatorOf φ e.length i)⁻¹) : polyEval F sigma z = 0 ↔ i ∈ errorPlaces e := by
  have hxi := hφ.locatorOf_ne_zero hleg e.length i
  rw [hφ.polyEval_eq_zero_iff hz hsigma, hzval, hσ, eval_mul, eval_C, mul_eq_zero_iff_left ha,
    eval_locator_eq_zero_iff]
  constructor
  · rintro ⟨l, hl, h⟩
    have hlt : l < e.length := Finset.mem_range.mp (Finset.mem_filter.mp hl).1
    exact hφ.locatorOf_inj hleg hn hlt hi ((mul_inv_eq_one₀ hxi).mp h) ▸ hl
  · exact fun h => ⟨i, h, mul_inv_cancel₀ hxi⟩

variable (homega : ∀ c ∈ omega, c < F.q)
  (hω : toPoly φ omega = C a * evaluator (errorPlaces e) (locatorOf φ e.length) (errorTerm F φ e))
include homega hω

/-- At a place of an error, Forney's formula gives the error. -/
theorem map_errorValue {i : Nat} (hi : i ∈ errorPlaces e) {x : Nat} (hx : x < F.q)
    (hxval : φ x = locatorOf φ e.length i) (hroot : polyEval F sigma (gfInv F x) = 0) :
    φ (errorValue F sigma omega x) = φ (e.getD i 0) := by
  have := hφ.charTwo
  have hxi := hφ.locatorOf_ne_zero hleg e.length i
  have hforney := eval_evaluator_div_derivative (y := errorTerm F φ e)
    (fun l _ => hφ.locatorOf_ne_zero hleg _ l) (hφ.locatorOf_injOn hleg hn) hi
  have hz := (hφ.map_gfInv hx).1
  obtain ⟨hpow_lt, hpow⟩ := hφ.map_gfPow hz F.genBase
  obtain ⟨hω_lt, hω_val⟩ := hφ.map_polyEval hz homega
  obtain ⟨hσ_lt, hσ_val⟩ := hφ.map_polyEval hz (polyDeriv_lt hsigma)
  rw [errorValue, if_pos hroot, hφ.map_mul (gfMul_lt hφ.degree hx _) (gfMul_lt hφ.degree hω_lt _),
    hφ.map_mul hx hpow_lt, hφ.map_mul hω_lt (hφ.map_gfInv hσ_lt).1, hpow, hφ.map_gfInv_eq_inv hleg hσ_lt,
    hω_val, hσ_val, hφ.toPoly_polyDeriv, hσ, hω, derivative_C_mul, eval_mul, eval_mul, eval_C,
    hφ.map_gfInv_eq_inv hleg hx, hxval, mul_inv, mul_mul_mul_comm a, mul_inv_cancel₀ ha, one_mul, hforney,
    errorTerm, CharTwo.neg_eq, inv_pow]
  field_simp

variable (he : ∀ c ∈ e, c < F.q)
include he

/-- With σ and ω up to a constant, `errorValue` gives the error of every index. -/
theorem errorValue_eq {i : Nat} (hi : i < e.length) :
    errorValue F sigma omega (alphaPow F (e.length - 1 - i)) = e.getD i 0 := by
  have hx := alphaPow_lt hφ.two_le hφ.degree (e.length - 1 - i)
  have hxval : φ (alphaPow F (e.length - 1 - i)) = locatorOf φ e.length i := hφ.map_alphaPow _
  have hroot := polyEval_sigma_eq_zero_iff hφ hleg hn hsigma ha hσ hi (hφ.map_gfInv hx).1
    (by rw [hφ.map_gfInv_eq_inv hleg hx, hxval])
  by_cases hmem : i ∈ errorPlaces e
  · exact hφ.inj (errorValue_lt hφ.degree sigma omega hx) (getD_lt he i)
      (map_errorValue hφ hleg hn hsigma ha hσ homega hω hmem hx hxval (hroot.mpr hmem))
  · rw [errorValue, if_neg (hroot.not.mpr hmem)]
    by_contra hne
    exact hmem (Finset.mem_filter.mpr ⟨Finset.mem_range.mpr hi, Ne.symm hne⟩)

theorem errorValues_eq : errorValues F sigma omega e.length = e := by
  refine List.ext_getElem (by simp [errorValues]) fun i _ hi => ?_
  have hvalue := errorValue_eq hφ hleg hn hsigma ha hσ homega hω he hi
  rw [List.getD_eq_getElem _ _ hi] at hvalue
  simpa [errorValues] using hvalue

end Values

/-! #### The decoder -/

/-- The start of the algorithm on x^E and S(x). -/
theorem euclidState_start (hφ : Represents F φ) {S : List Nat} (hS : ∀ c ∈ S, c < F.q) :
    EuclidState F φ S.length (toPoly φ S) (1 :: List.replicate S.length 0) (polyTrim S) [] [1] := by
  have hone := hφ.one_lt_q
  exact {
    r₀_lt := List.forall_mem_cons.mpr ⟨hone, fun c hc => by rw [List.eq_of_mem_replicate hc]; omega⟩
    r₁_lt := fun c hc => hS c (mem_of_mem_polyTrim hc)
    t₀_lt := nofun
    t₁_lt := List.forall_mem_singleton.mpr hone
    r₀_trimmed := by simp [Trimmed]
    r₁_trimmed := polyTrim_trimmed S
    shorter := by simpa using Nat.lt_succ_of_le (polyTrim_length_le S)
    inv := by
      rw [hφ.toPoly_polyTrim, toPoly_cons, hφ.toPoly_replicate_zero, toPoly_cons, hφ.map_one]
      simpa using EuclidInv.start (toPoly φ S) }

/-- Step 2 of rule R170: where there are errors, and at most E/2, the algorithm ends with σ and ω
up to a constant. -/
theorem exists_euclid_eq (hφ : Represents F φ) (hleg : FieldLegal F) {S e : List Nat}
    (hS : ∀ c ∈ S, c < F.q) (he : ∀ c ∈ e, c < F.q) (hn : e.length ≤ F.q - 1)
    (hsum : toPoly φ S = powerSums (errorPlaces e) (locatorOf φ e.length) (errorTerm F φ e) S.length)
    (hpos : 0 < (errorPlaces e).card) (hcard : 2 * (errorPlaces e).card ≤ S.length) :
    ∃ sigma omega, ∃ a ≠ 0,
      euclid F S.length (S.length + 1) (1 :: List.replicate S.length 0) (polyTrim S) [] [1] = (sigma, omega) ∧
      (∀ c ∈ sigma, c < F.q) ∧ (∀ c ∈ omega, c < F.q) ∧
      toPoly φ sigma = C a * locator (errorPlaces e) (locatorOf φ e.length) ∧
      toPoly φ omega = C a * evaluator (errorPlaces e) (locatorOf φ e.length) (errorTerm F φ e) := by
  have := hφ.charTwo
  obtain ⟨sigma, omega, r, t, heq, hlast, hstop⟩ := (euclidState_start hφ hS).euclid_spec hφ hleg (by omega)
    (S.length + 1) ((polyTrim_length_le S).trans (Nat.le_succ _))
  have hinv := hlast.inv
  rw [hsum] at hinv
  obtain ⟨a, ha, hσ, hω⟩ := hinv.exists_const
    (by rwa [hφ.natDegree_toPoly_of_trimmed hlast.r₁_lt hlast.r₁_trimmed])
    (fun i _ => hφ.locatorOf_ne_zero hleg _ i) (hφ.locatorOf_injOn hleg hn)
    (fun i hi => hφ.errorTerm_ne_zero hleg he hi) hpos hcard
  exact ⟨sigma, omega, a, ha, heq, hlast.t₁_lt, hlast.r₁_lt, hσ, hω⟩

/-- The list of σ has one coefficient more than there are errors, and its constant one is not 0. -/
theorem locator_list (hφ : Represents F φ) (hleg : FieldLegal F) {e sigma : List Nat} {a : K}
    (hsigma : ∀ c ∈ sigma, c < F.q) (htrim : Trimmed sigma) (ha : a ≠ 0)
    (hσ : toPoly φ sigma = C a * locator (errorPlaces e) (locatorOf φ e.length)) :
    sigma.length - 1 = (errorPlaces e).card ∧ sigma.getLastD 0 ≠ 0 := by
  constructor
  · rw [← hφ.natDegree_toPoly_of_trimmed hsigma htrim, hσ, natDegree_C_mul ha,
      natDegree_locator fun i _ => hφ.locatorOf_ne_zero hleg _ i]
  · intro hlast
    have hconst := hφ.eval_zero_toPoly sigma
    rw [hσ, eval_mul, eval_C, eval_zero_locator, mul_one, hlast, hφ.map_zero] at hconst
    exact ha hconst

/-- Where there are errors, and at most E, some syndrome is not 0. -/
theorem syndromes_not_all_zero (hφ : Represents F φ) (hleg : FieldLegal F) {R e : List Nat} {E : Nat}
    (hlen : R.length = e.length) (hR : ∀ c ∈ R, c < F.q) (he : ∀ c ∈ e, c < F.q) (hn : e.length ≤ F.q - 1)
    (hcode : InCode F R.length E (List.zipWith (· ^^^ ·) R e)) (hpos : 0 < (errorPlaces e).card)
    (hcard : (errorPlaces e).card ≤ E) : ¬(syndromes F R E).all (· == 0) = true := by
  intro hall
  refine powerSums_ne_zero (fun i _ => hφ.locatorOf_ne_zero hleg _ i) (hφ.locatorOf_injOn hleg hn)
    (fun i hi => hφ.errorTerm_ne_zero hleg he hi) (Finset.card_pos.mp hpos) hcard ?_
  refine Finset.sum_eq_zero fun j hj => ?_
  have hj := Finset.mem_range.mp hj
  rw [← hφ.map_syndrome hlen hR he hcode hj, syndromes_all_zero_iff.mp hall j hj, hφ.map_zero, C_0, zero_mul]

end Errors

section Decoder

variable {F : GF}

theorem zipWith_xor_self_left {R W : List Nat} (hlen : R.length = W.length) :
    List.zipWith (· ^^^ ·) R (List.zipWith (· ^^^ ·) R W) = W := by
  refine List.ext_getElem (by simp [hlen]) fun i _ _ => ?_
  simp

theorem wordDist_self (R : List Nat) : wordDist R R = 0 := by
  simp [wordDist, List.zipWith_self, List.count_replicate]

/-- The distance of a word from the received one is the weight of the error vector. -/
theorem wordDist_zipWith_xor {R e : List Nat} (hlen : R.length = e.length) :
    wordDist (List.zipWith (· ^^^ ·) R e) R = e.countP (· != 0) := by
  induction R generalizing e with
  | nil => simp [wordDist, List.length_eq_zero_iff.mp hlen.symm]
  | cons r R ih =>
    obtain _ | ⟨c, e⟩ := e
    · simp at hlen
    have hxor : r ^^^ c = r ↔ c = 0 := by simp
    have hrest := ih (e := e) (by simpa using hlen)
    rw [wordDist] at hrest ⊢
    rw [List.zipWith_cons_cons, List.zipWith_cons_cons, List.count_cons, List.countP_cons, hrest]
    simp [hxor]

theorem zipWith_xor_eq_left {R e : List Nat} (hlen : R.length = e.length) (he : e.countP (· != 0) = 0) :
    List.zipWith (· ^^^ ·) R e = R := by
  have hzero : ∀ c ∈ e, c = 0 := by simpa using he
  refine List.ext_getElem (by simp [hlen]) fun i _ hi => ?_
  simp [hzero e[i] (List.getElem_mem _)]

/-- What the decoder answers is a word of the code in reach: it checks so before it answers. -/
theorem inReach_of_rsDecode (hm : 2 ≤ F.m) (hF : DegreeLegal F) {R W : List Nat} {E d : Nat}
    (hR : ∀ c ∈ R, c < F.q) (h : rsDecode F R E = some (W, d)) : InReach F R E W := by
  have hlen := rsDecode_length h
  have hlt := rsDecode_lt hm hF hR h
  simp only [rsDecode] at h
  split_ifs at h with hzero hbad hcheck
  · cases h
    exact ⟨⟨rfl, hR, syndromes_all_zero_iff.mp hzero⟩, (wordDist_self R).trans_le (Nat.zero_le _)⟩
  · cases h
    obtain ⟨hcount, hsyndromes⟩ := hcheck
    refine ⟨⟨hlen, hlt, syndromes_all_zero_iff.mp hsyndromes⟩, ?_⟩
    rw [wordDist_zipWith_xor (by simp [errorValues]), hcount]
    omega

/-- Up to E/2 errors are found and taken off. -/
theorem rsDecode_of_errors (hm : 2 ≤ F.m) (hleg : FieldLegal F) {R e : List Nat} {E : Nat}
    (hlen : R.length = e.length) (hR : ∀ c ∈ R, c < F.q) (he : ∀ c ∈ e, c < F.q) (hn : e.length ≤ F.q - 1)
    (hcode : InCode F R.length E (List.zipWith (· ^^^ ·) R e)) (hweight : e.countP (· != 0) ≤ E / 2) :
    rsDecode F R E = some (List.zipWith (· ^^^ ·) R e, e.countP (· != 0)) := by
  by_cases hnone : e.countP (· != 0) = 0
  · rw [zipWith_xor_eq_left hlen hnone] at hcode ⊢
    rw [hnone, rsDecode_of_inCode hcode]
  obtain ⟨K, _, φ, hφ⟩ := exists_field hm hleg
  have hcard := card_errorPlaces e
  have hS : ∀ c ∈ (syndromes F R E).reverse, c < F.q := fun c hc => by
    obtain ⟨j, -, rfl⟩ := List.mem_map.mp (List.mem_reverse.mp hc)
    exact (hφ.map_polyEval (alphaPow_lt hm hleg.1 _) hR).1
  have hSlen : (syndromes F R E).reverse.length = E := by simp [syndromes]
  have hsum := hφ.toPoly_syndromes hlen hR he hcode
  have hne := syndromes_not_all_zero hφ hleg hlen hR he hn hcode (by omega) (by omega)
  obtain ⟨sigma, omega, a, ha, heq, hsigma, homega, hσ, hω⟩ :=
    exists_euclid_eq hφ hleg hS he hn (hSlen.symm ▸ hsum) (by omega) (by omega)
  rw [hSlen] at heq
  have hsigma' : ∀ c ∈ polyTrim sigma, c < F.q := fun c hc => hsigma c (mem_of_mem_polyTrim hc)
  have hσ' := (hφ.toPoly_polyTrim sigma).trans hσ
  have herrors : errorValues F (polyTrim sigma) omega R.length = e :=
    hlen ▸ errorValues_eq hφ hleg hn hsigma' ha hσ' homega hω he
  obtain ⟨hdegree, hlast⟩ := locator_list hφ hleg hsigma' (polyTrim_trimmed sigma) ha hσ'
  rw [hcard] at hdegree
  have hcheck : ¬(e.countP (· != 0) = 0 ∨ e.countP (· != 0) > E / 2 ∨ (polyTrim sigma).getLastD 0 = 0) := by
    simp only [not_or, not_lt]
    exact ⟨hnone, hweight, hlast⟩
  simp only [rsDecode, if_neg hne, heq, hdegree, herrors, if_neg hcheck, true_and]
  exact if_pos (syndromes_all_zero_iff.mpr hcode.2.2)

/-- The decoder finds every word of the code in reach. -/
theorem rsDecode_of_inReach (hm : 2 ≤ F.m) (hleg : FieldLegal F) {R W : List Nat} {E : Nat}
    (hR : ∀ c ∈ R, c < F.q) (hn : R.length ≤ F.q - 1) (h : InReach F R E W) :
    rsDecode F R E = some (W, wordDist W R) := by
  obtain ⟨⟨hlen, hW, hzero⟩, hdist⟩ := h
  have herrors : List.zipWith (· ^^^ ·) R (List.zipWith (· ^^^ ·) R W) = W := zipWith_xor_self_left hlen.symm
  have hdist_eq := wordDist_zipWith_xor (R := R) (e := List.zipWith (· ^^^ ·) R W) (by simp [hlen])
  rw [herrors] at hdist_eq
  have hdecode := rsDecode_of_errors hm hleg (R := R) (e := List.zipWith (· ^^^ ·) R W) (E := E)
    (by simp [hlen]) hR (zipWith_xor_lt hR hW) (by simpa [hlen] using hn) (herrors.symm ▸ ⟨hlen, hW, hzero⟩)
    (hdist_eq ▸ hdist)
  rwa [herrors, ← hdist_eq] at hdecode

end Decoder

/-- Settles O37: past the checks of the lengths RSDEC is `rsDecode`, which answers exactly the words of the
code in reach. -/
theorem rsdecIsBoundedDistanceDecoding : Obligations.RsdecIsBoundedDistanceDecoding := by
  intro rd re s ⟨hp, hb⟩ hleg hf
  have hm := two_le_field_m s.params s.block.fsel
  refine ⟨encode_of_operands rfl, check_outcome_of_not hf rfl fun hn heff => ?_⟩
  refine check_outcome_of_not hf heff fun hE _ => ⟨fun W hW => ?_, fun hnone => ?_⟩
  · have hdecode := rsDecode_of_inReach hm hleg hb.cws_lt
      (by rw [Block.cws, List.length_map]; exact not_lt.mp hn) hW
    have hdone := rsdec_of_some (rd := rd) hn hE hdecode
    rw [toCodewords_map_toNat] at hdone
    exact executesTo_of_effect hf hdone
  · refine faultsWith_of_effect hf (rsdec_of_none hn hE (Option.eq_none_iff_forall_ne_some.mpr ?_))
    exact fun r hr => hnone r.1 (inReach_of_rsDecode hm hleg.1 hb.cws_lt hr)

end Sys2Proof.Machine

/-! ### Matrix and path (43_mapper.md rules R203 to R209) -/

namespace Sys2Proof.Machine

/-- The word of a command with three register fields (rule R94). -/
theorem encode_of_three_operands {i : Instr} {a b c : Nat} (h : i.operands = a + b + c) :
    encode i = BitVec.ofNat 32 (i.opcode * 2 ^ 24 + a + b + c) := by
  rw [encode_of_operands h, Nat.add_assoc _ a b]

/-- Settles O39, by the two checks of MATDIM; the new matrix lists no module. -/
theorem matdimMakesAWhiteMatrix : Obligations.MatdimMakesAWhiteMatrix := by
  intro ry rx s hf
  refine ⟨encode_of_operands rfl, ?_⟩
  refine check_outcome hf rfl fun heff => check_outcome hf heff fun hdone => ?_
  exact ⟨_, executesTo_of_effect hf hdone, rfl, fun _ _ _ _ => rfl⟩

/-- Settles O41, by the rule of PATHCLR and the three checks of PATHAP. -/
theorem pathCommandsBuildThePath : Obligations.PathCommandsBuildThePath := by
  refine ⟨rfl, fun ry rx s hf => ⟨encode_of_operands rfl, executesTo_of_effect hf rfl, ?_⟩⟩
  exact check_outcome hf rfl fun hrow => check_outcome hf hrow fun hcol =>
    check_outcome hf hcol (executesTo_of_effect hf)

/-- A module read as a number is read as 0 or 1. -/
theorem setRegNat_toNat (b : Block) (r : Reg) (v : Bool) :
    b.setRegNat r v.toNat = b.setReg r (if v = true then 1 else 0) := by
  cases v <;> rfl

/-- Settles O40, by the two checks of either command; a write of MAT is read back at its module and at no
other of the matrix. -/
theorem matwrAndMatrdReachOneModule : Obligations.MatwrAndMatrdReachOneModule := by
  intro ra rb rc s ⟨_, hb⟩ hf
  refine ⟨encode_of_three_operands rfl, encode_of_three_operands rfl, ?_, ?_⟩
  · refine check_outcome hf rfl fun heff => check_outcome_of_not hf heff fun hcol hdone => ?_
    refine ⟨_, executesTo_of_effect hf hdone, rfl, ?_, ?_⟩
    · exact (matGet_matSet_same s.block _ _ _ hb.memory_wf).trans (Nat.testBit_zero _)
    · intro y x _ hx hne
      exact matGet_matSet_other s.block _ (not_le.mp hcol) hx hne
  · refine check_outcome hf rfl fun heff => check_outcome hf heff fun hdone => ?_
    exact executesTo_of_effect hf (hdone.trans (by rw [setRegNat_toNat]; rfl))

/-! #### The first element a check rejects -/

theorem findIdx?_eq_some_of_getElem? {α : Type} {p : α → Bool} {l : List α} {k : Nat} {a : α}
    (hk : l[k]? = some a) (ha : p a = true) (hmin : ∀ j d, j < k → l[j]? = some d → p d = false) :
    l.findIdx? p = some k := by
  obtain ⟨hlt, rfl⟩ := List.getElem?_eq_some_iff.mp hk
  refine List.findIdx?_eq_some_iff_getElem.mpr ⟨hlt, ha, fun j hj => ?_⟩
  simp [hmin j _ hj (List.getElem?_eq_getElem (hj.trans hlt))]

section Path

variable {b : Block}

theorem outside_eq_true {c : Coord} : b.outside c = true ↔ c.y ≥ b.mrows ∨ c.x ≥ b.mcols := by
  rw [Block.outside, decide_eq_true_eq]

theorem outside_eq_false {c : Coord} : b.outside c = false ↔ c.y < b.mrows ∧ c.x < b.mcols := by
  rw [Block.outside, decide_eq_false_iff_not]
  omega

theorem badPathIndex_eq_some {k : Nat} {c : Coord} (hk : b.path[k]? = some c)
    (hout : c.y ≥ b.mrows ∨ c.x ≥ b.mcols)
    (hmin : ∀ j d, j < k → b.path[j]? = some d → d.y < b.mrows ∧ d.x < b.mcols) :
    b.badPathIndex = some k :=
  findIdx?_eq_some_of_getElem? hk (outside_eq_true.mpr hout) fun j d hj hd =>
    outside_eq_false.mpr (hmin j d hj hd)

theorem badPathIndex_eq_none (hin : ∀ c ∈ b.path, c.y < b.mrows ∧ c.x < b.mcols) :
    b.badPathIndex = none :=
  List.findIdx?_eq_none_iff.mpr fun c hc => outside_eq_false.mpr (hin c hc)

theorem maprd_of_outside {p : Params} {k : Nat} (h : b.badPathIndex = some k) :
    maprd p b = .raise .aePath k := by
  simp only [maprd, h]

theorem maprd_of_inside {p : Params} (h : b.badPathIndex = none) :
    maprd p b =
      if b.bitlen + b.path.length > p.bitCap then .raise .boBit b.bitlen
      else .done (b.pushBits b.pathBits) 0 := by
  simp only [maprd, h]

theorem mapwr_of_outside {k : Nat} (h : b.badPathIndex = some k) : mapwr b = .raise .aePath k := by
  simp only [mapwr, h]

theorem mapwr_of_inside (h : b.badPathIndex = none) :
    mapwr b =
      if b.available < b.path.length then .raise .idMapwr b.available
      else .done ((b.place b.path b.unread).skipBits b.path.length) 0 := by
  simp only [mapwr, h]

/-! #### Modules after bits were placed along coordinates (rule R209) -/

theorem matGet_place_off {cs : List Coord} {y x : Nat} (hin : ∀ c ∈ cs, c.x < b.mcols)
    (hx : x < b.mcols) (hoff : (⟨y, x⟩ : Coord) ∉ cs) (vs : List Bool) :
    (b.place cs vs).matGet y x = b.matGet y x := by
  induction cs generalizing b vs with
  | nil => rfl
  | cons c cs ih =>
    cases vs with
    | nil => rfl
    | cons v vs =>
      obtain ⟨hcx, hcs⟩ := List.forall_mem_cons.mp hin
      obtain ⟨hne, hoffcs⟩ := List.ne_and_not_mem_of_not_mem_cons hoff
      calc ((b.matSet c.y c.x v).place cs vs).matGet y x
        _ = (b.matSet c.y c.x v).matGet y x := ih (b := b.matSet c.y c.x v) hcs hx hoffcs vs
        _ = b.matGet y x := matGet_matSet_other b v hcx hx (by rintro ⟨rfl, rfl⟩; exact hne rfl)

/-- A module holds the bit of its last visit. -/
theorem matGet_place_last {cs : List Coord} {vs : List Bool} {k : Nat} {c : Coord} {v : Bool}
    (hwf : Memory.wf b = true) (hin : ∀ c ∈ cs, c.x < b.mcols) (hk : cs[k]? = some c)
    (hlast : ∀ j, k < j → cs[j]? ≠ some c) (hv : vs[k]? = some v) :
    (b.place cs vs).matGet c.y c.x = v := by
  induction cs generalizing b vs k with
  | nil => cases hk
  | cons d cs ih =>
    cases vs with
    | nil => cases hv
    | cons u vs =>
      obtain ⟨hdx, hcs⟩ := List.forall_mem_cons.mp hin
      cases k with
      | zero =>
        obtain rfl : d = c := Option.some.inj hk
        obtain rfl : u = v := Option.some.inj hv
        have hoff : d ∉ cs := fun hmem =>
          let ⟨j, hj⟩ := List.mem_iff_getElem?.mp hmem
          hlast (j + 1) (Nat.succ_pos j) hj
        exact (matGet_place_off (b := b.matSet d.y d.x u) hcs hdx hoff vs).trans
          (matGet_matSet_same b d.y d.x u hwf)
      | succ k =>
        exact ih (matSet_memory_wf b d.y d.x u hwf) hcs hk
          (fun j hj => hlast (j + 1) (Nat.succ_lt_succ hj)) hv

@[simp] theorem place_bitbuf (cs : List Coord) (vs : List Bool) : (b.place cs vs).bitbuf = b.bitbuf := by
  rw [place_eq]

@[simp] theorem place_mrows (cs : List Coord) (vs : List Bool) : (b.place cs vs).mrows = b.mrows := by
  rw [place_eq]

@[simp] theorem place_mcols (cs : List Coord) (vs : List Bool) : (b.place cs vs).mcols = b.mcols := by
  rw [place_eq]

@[simp] theorem place_path (cs : List Coord) (vs : List Bool) : (b.place cs vs).path = b.path := by
  rw [place_eq]

@[simp] theorem matGet_skipBits (n y x : Nat) : (b.skipBits n).matGet y x = b.matGet y x := rfl

/-- Along coordinates that visit no module twice, the modules are the bits that were placed. -/
theorem map_matGet_place {cs : List Coord} {vs : List Bool} (hwf : Memory.wf b = true)
    (hin : ∀ c ∈ cs, c.x < b.mcols) (hnodup : cs.Nodup) (hlen : cs.length ≤ vs.length) :
    (cs.map fun c => (b.place cs vs).matGet c.y c.x) = vs.take cs.length := by
  refine List.ext_getElem (by simpa using hlen) fun k hk _ => ?_
  have hkcs : k < cs.length := by simpa using hk
  have hlast : ∀ j, k < j → cs[j]? ≠ some cs[k] := fun j hj hvisit =>
    hj.ne ((List.getElem?_inj hkcs hnodup).mp ((List.getElem?_eq_getElem hkcs).trans hvisit.symm))
  simpa using matGet_place_last hwf hin (List.getElem?_eq_getElem hkcs) hlast
    (List.getElem?_eq_getElem (hkcs.trans_le hlen))

end Path

section Rules

variable {s : State} (hf : s.block.fault = false)
  (hin : ∀ c ∈ s.block.path, c.y < s.block.mrows ∧ c.x < s.block.mcols)
include hf hin

theorem mapwr_executes (henough : s.block.path.length ≤ s.block.available) :
    ExecutesTo .mapwr s ((s.block.place s.block.path s.block.unread).skipBits s.block.path.length) :=
  executesTo_of_effect hf
    ((mapwr_of_inside (badPathIndex_eq_none hin)).trans (if_neg (not_lt.mpr henough)))

theorem maprd_executes (hroom : s.block.bitlen + s.block.path.length ≤ s.params.bitCap) :
    ExecutesTo .maprd s (s.block.pushBits s.block.pathBits) :=
  executesTo_of_effect hf
    ((maprd_of_inside (badPathIndex_eq_none hin)).trans (if_neg (not_lt.mpr hroom)))

end Rules

/-- Settles O42: check 1 of MAPRD is the first path index outside the matrix; past it stands one more
check. -/
theorem maprdAppendsTheModulesAlongThePath : Obligations.MaprdAppendsTheModulesAlongThePath := by
  refine ⟨rfl, fun s hf => ⟨fun k c hk hout hmin => ?_, fun hin => ?_⟩⟩
  · exact faultsWith_of_effect hf (maprd_of_outside (badPathIndex_eq_some hk hout hmin))
  · exact check_outcome hf (maprd_of_inside (badPathIndex_eq_none hin)) (executesTo_of_effect hf)

/-- Settles O43: past the checks of MAPWR the unread bits are placed along the path, one after the
other. -/
theorem mapwrPlacesBitsAlongThePath : Obligations.MapwrPlacesBitsAlongThePath := by
  refine ⟨rfl, fun s ⟨_, hb⟩ hf => ⟨fun k c hk hout hmin => ?_, fun hin => ?_⟩⟩
  · exact faultsWith_of_effect hf (mapwr_of_outside (badPathIndex_eq_some hk hout hmin))
  · refine check_outcome hf (mapwr_of_inside (badPathIndex_eq_none hin)) fun hdone => ?_
    have hcols : ∀ c ∈ s.block.path, c.x < s.block.mcols := fun c hc => (hin c hc).2
    refine ⟨_, executesTo_of_effect hf hdone, ?_, ?_, ?_⟩
    · rw [place_eq]
      rfl
    · intro k c v hk hlast hv
      exact matGet_place_last hb.memory_wf hcols hk hlast (List.getElem?_drop.trans hv)
    · intro y x _ hx hoff
      exact matGet_place_off hcols hx hoff s.block.unread

/-- Settles O44: no module is visited again, so each holds the bit placed in it when MAPRD reads it. -/
theorem mapwrThenMaprdReturnsTheBits : Obligations.MapwrThenMaprdReturnsTheBits := by
  intro s ⟨_, hb⟩ hf hnodup hin henough hroom
  have hcols : ∀ c ∈ s.block.path, c.x < s.block.mcols := fun c hc => (hin c hc).2
  refine ⟨_, (runCommands_cons (mapwr_executes hf hin henough)).trans
    (runCommands_cons (maprd_executes ?unfaulted ?inside ?room)), ?bits⟩
  case unfaulted => simpa using hf
  case inside => simpa using hin
  case room => simpa [Block.bitlen] using hroom
  case bits =>
    have hread := map_matGet_place hb.memory_wf hcols hnodup
      (henough.trans_eq (unread_length s.block).symm)
    simpa [Block.pathBits, Block.unread] using hread

end Sys2Proof.Machine

/-! ### Bits to codewords and back (43_mapper.md rules R210 and R211) -/

namespace Sys2Proof.Machine

section Codewords

variable {m : Nat}

theorem unpackBits_getElem? {c j : Nat} (hj : j < c) (l : List Bool) :
    (unpackBits m c l)[j]? = some (bitsVal ((l.drop (j * m)).take m)) := by
  induction c generalizing l j with
  | zero => omega
  | succ c ih =>
    cases j with
    | zero => simp [unpackBits]
    | succ j => simp [unpackBits, ih (Nat.lt_of_succ_lt_succ hj), Nat.succ_mul, Nat.add_comm]

theorem packBits_getElem? {l : List Nat} {j i v : Nat} (hj : l[j]? = some v) (hi : i < m) :
    (packBits m l)[j * m + i]? = some (v.testBit (m - 1 - i)) := by
  induction l generalizing j with
  | nil => cases hj
  | cons c l ih =>
    cases j with
    | zero =>
      obtain rfl : c = v := Option.some.inj hj
      rw [packBits, Nat.zero_mul, Nat.zero_add, List.getElem?_append_left (by simpa using hi),
        natBits_getElem? _ hi]
    | succ j =>
      have hpos : (j + 1) * m + i = (natBits c m).length + (j * m + i) := by
        rw [natBits_length, Nat.succ_mul]
        omega
      rw [packBits, hpos, List.getElem?_append_right (Nat.le_add_right _ _), Nat.add_sub_cancel_left]
      exact ih hj

/-- Numbers of at most m bits, cut again out of the bits they were written as. -/
theorem unpackBits_packBits {l : List Nat} (hl : ∀ v ∈ l, v < 2 ^ m) :
    unpackBits m l.length (packBits m l) = l := by
  induction l with
  | nil => rfl
  | cons c l ih =>
    obtain ⟨hc, hl⟩ := List.forall_mem_cons.mp hl
    have htake : (natBits c m ++ packBits m l).take m = natBits c m := List.take_left' (natBits_length c m)
    have hdrop : (natBits c m ++ packBits m l).drop m = packBits m l := List.drop_left' (natBits_length c m)
    rw [packBits, List.length_cons, unpackBits, htake, hdrop, bitsVal_natBits, Nat.mod_eq_of_lt hc, ih hl]

@[simp] theorem toCodewords_length (l : List Nat) : (toCodewords l).length = l.length :=
  List.length_map _

theorem toCodewords_getElem?_eq_some {l : List Nat} {j : Nat} {k : BitVec 12} {v : Nat}
    (hk : (toCodewords l)[j]? = some k) (hv : l[j]? = some v) : k = BitVec.ofNat 12 v := by
  rw [toCodewords, List.getElem?_map, hv] at hk
  exact (Option.some.inj hk).symm

end Codewords

section Rules

variable {s : State} (hf : s.block.fault = false)
include hf

theorem cwunpk_executes
    (hroom : s.block.bitlen + s.block.cwbuf.length * s.block.cwWidth ≤ s.params.bitCap) :
    ExecutesTo .cwunpk s (s.block.pushBits (packBits s.block.cwWidth s.block.cws)) :=
  executesTo_of_effect hf (if_neg (not_lt.mpr hroom))

theorem cwpack_executes {rn : Reg} (henough : s.block.regNat rn * s.block.cwWidth ≤ s.block.available)
    (hroom : s.block.cwbuf.length + s.block.regNat rn ≤ s.params.cwCap) :
    ExecutesTo (.cwpack rn) s
      ({ s.block with
          cwbuf := s.block.cwbuf ++
            toCodewords (unpackBits s.block.cwWidth (s.block.regNat rn) s.block.unread) }.skipBits
        (s.block.regNat rn * s.block.cwWidth)) :=
  executesTo_of_effect hf ((if_neg (not_lt.mpr henough)).trans (if_neg (not_lt.mpr hroom)))

end Rules

/-- The j-th codeword CWPACK cuts out of the unread bits, and its bits by their position. -/
theorem cwpack_codeword {b : Block} {c j : Nat} {k : BitVec 12} (henough : c * b.cwWidth ≤ b.available)
    (hk : (toCodewords (unpackBits b.cwWidth c b.unread))[j]? = some k) :
    k.toNat < 2 ^ b.cwWidth ∧ ∀ i, i < b.cwWidth →
      b.bitbuf[b.rdpos + j * b.cwWidth + i]? = some (k.getLsbD (b.cwWidth - 1 - i)) := by
  have hj : j < c := by simpa using (List.getElem?_eq_some_iff.mp hk).1
  have hval : k.toNat = (b.skipBits (j * b.cwWidth)).peekBits b.cwWidth := by
    rw [toCodewords_getElem?_eq_some hk (unpackBits_getElem? hj _),
      toNat_ofNat_codeword (bitsVal_take_lt _ _), Block.peekBits, Block.unread, Block.unread,
      List.drop_drop]
    rfl
  have hleft : b.cwWidth ≤ (b.skipBits (j * b.cwWidth)).available := by
    have hle : (j + 1) * b.cwWidth ≤ c * b.cwWidth := Nat.mul_le_mul_right _ hj
    rw [Nat.succ_mul] at hle
    simp only [Block.available, Block.bitlen, skipBits_bitbuf, skipBits_rdpos] at henough ⊢
    omega
  refine ⟨hval ▸ peekBits_lt _ _, fun i hi => ?_⟩
  rw [BitVec.getLsbD, hval]
  exact bitbuf_getElem?_eq_testBit_peekBits (b.skipBits (j * b.cwWidth)) hleft hi

/-- Settles O45: past their checks CWPACK cuts its codewords out of the unread bits one after the other,
and CWUNPK writes its codewords one after the other. -/
theorem cwpackAndCwunpkMoveCodewords : Obligations.CwpackAndCwunpkMoveCodewords := by
  refine ⟨rfl, fun rn s hf => ⟨rfl, ?_, ?_⟩⟩
  · refine check_outcome_of_not hf rfl fun henough heff => check_outcome hf heff fun hdone => ?_
    exact ⟨_, (toCodewords_length _).trans (unpackBits_length _ _ _), executesTo_of_effect hf hdone,
      fun _ _ => cwpack_codeword (not_lt.mp henough)⟩
  · refine check_outcome hf rfl fun hdone => ?_
    refine ⟨_, by simp [packBits_length, Block.cws], executesTo_of_effect hf hdone, fun j k hk i hi => ?_⟩
    exact packBits_getElem? (by simp [Block.cws, hk]) hi

/-- Settles O46: with nothing unread before, what CWUNPK leaves unread is its codewords' bits, out of which
CWPACK cuts them again. -/
theorem cwunpkThenCwpackCopies : Obligations.CwunpkThenCwpackCopies := by
  intro rn s ⟨_, hb⟩ hf hread hcount hcap hroom
  have hunread : (s.block.pushBits (packBits s.block.cwWidth s.block.cws)).unread =
      packBits s.block.cwWidth s.block.cws := by
    rw [unread_pushBits _ _ hread.le, Block.unread, hread, List.drop_length, List.nil_append]
  have hlen : (packBits s.block.cwWidth s.block.cws).length = s.block.regNat rn * s.block.cwWidth := by
    rw [packBits_length, Block.cws, List.length_map, Block.regNat, hcount]
  refine ⟨_, (runCommands_cons (cwunpk_executes hf hroom)).trans
    (runCommands_cons (cwpack_executes (by exact hf) ?enough ?room)), ?codewords, ?cursor⟩
  case enough =>
    rw [← unread_length, hunread, hlen]
    rfl
  case room =>
    change s.block.cwbuf.length + (s.block.reg rn).toNat ≤ s.params.cwCap
    omega
  case codewords =>
    have hcopy : unpackBits s.block.cwWidth (s.block.regNat rn)
        (packBits s.block.cwWidth s.block.cws) = s.block.cws := by
      rw [Block.regNat, hcount, ← List.length_map (as := s.block.cwbuf) BitVec.toNat]
      exact unpackBits_packBits hb.cws_lt
    rw [hunread]
    exact congrArg (s.block.cwbuf ++ ·)
      ((congrArg toCodewords hcopy).trans (toCodewords_map_toNat s.block.cwbuf))
  case cursor =>
    change s.block.rdpos + s.block.regNat rn * s.block.cwWidth =
      (s.block.bitbuf ++ packBits s.block.cwWidth s.block.cws).length
    rw [List.length_append, hlen, hread]

end Sys2Proof.Machine

/-! ### Bit-stuffing (43_mapper.md rules R212 to R214) -/

namespace Sys2Proof.Machine

/-! #### The words STUFF looks at -/

theorem bitsVal_inj {l l' : List Bool} (hlen : l.length = l'.length) : bitsVal l = bitsVal l' ↔ l = l' :=
  ⟨fun h => by rw [← natBits_bitsVal l, h, hlen, natBits_bitsVal], congrArg bitsVal⟩

theorem bitsVal_replicate_false (n : Nat) : bitsVal (List.replicate n false) = 0 := by
  induction n with
  | zero => rfl
  | succ n ih => simp [List.replicate_succ, bitsVal_cons, ih]

theorem bitsVal_replicate_true (n : Nat) : bitsVal (List.replicate n true) = 2 ^ n - 1 := by
  induction n with
  | zero => rfl
  | succ n ih =>
    have hpos := Nat.two_pow_pos n
    rw [List.replicate_succ, bitsVal_cons, ih, List.length_replicate, Bool.toNat_true, pow_succ]
    omega

section Words

variable {m : Nat} (l : List Bool)

/-- Of l, padded with m ones, the first j ≤ m bits are j bits. -/
theorem length_take_padded {j : Nat} (hj : j ≤ m) : ((l ++ List.replicate m true).take j).length = j := by
  rw [List.length_take, List.length_append, List.length_replicate]
  omega

theorem stuffHead_length : (stuffHead m l).length = m - 1 :=
  length_take_padded l (Nat.sub_le m 1)

theorem stuffWord_lt : stuffWord m l < 2 ^ m :=
  bitsVal_take_lt m _

/-- The word without its last bit is the number of its first m − 1 bits. -/
theorem stuffWord_div_two (hm : 1 ≤ m) : stuffWord m l / 2 = bitsVal (stuffHead m l) := by
  obtain ⟨n, rfl⟩ := Nat.exists_eq_add_of_le' hm
  have hlt : n < (l ++ List.replicate (n + 1) true).length := by
    rw [List.length_append, List.length_replicate]
    omega
  have hbit := Bool.toNat_lt (l ++ List.replicate (n + 1) true)[n]
  rw [stuffWord, stuffHead, ← List.take_concat_get' _ _ hlt, bitsVal_append, bitsVal_cons]
  simp only [List.length_cons, List.length_nil, bitsVal_nil, Nat.add_sub_cancel]
  omega

theorem stuffHead_eq_ones_iff (hm : 1 ≤ m) :
    stuffHead m l = List.replicate (m - 1) true ↔ stuffWord m l / 2 = 2 ^ (m - 1) - 1 := by
  rw [stuffWord_div_two l hm, ← bitsVal_replicate_true, bitsVal_inj]
  rw [stuffHead_length, List.length_replicate]

theorem stuffHead_eq_zeros_iff (hm : 1 ≤ m) :
    stuffHead m l = List.replicate (m - 1) false ↔ stuffWord m l / 2 = 0 := by
  rw [stuffWord_div_two l hm, ← bitsVal_replicate_false (m - 1), bitsVal_inj]
  rw [stuffHead_length, List.length_replicate]

/-- A word whose first m − 1 bits are not all equal is none of 0, 1, max − 1, max. -/
theorem stuffWord_range (hm : 1 ≤ m) (h1 : stuffHead m l ≠ List.replicate (m - 1) true)
    (h0 : stuffHead m l ≠ List.replicate (m - 1) false) :
    1 < stuffWord m l ∧ stuffWord m l < 2 ^ m - 2 := by
  rw [Ne, stuffHead_eq_ones_iff l hm] at h1
  rw [Ne, stuffHead_eq_zeros_iff l hm] at h0
  have hlt := stuffWord_lt (m := m) l
  have hpow : 2 ^ m = 2 * 2 ^ (m - 1) := by rw [← pow_succ', Nat.sub_add_cancel hm]
  omega

end Words

/-! #### The passes of STUFF -/

section Passes

variable {m : Nat} {l : List Bool} {K : List Nat}

/-- A pass of the bounded loop, by the first m − 1 bits. -/
theorem stuffBits_of_ne_nil (hm : 1 ≤ m) {k : Nat} (h : l ≠ []) (hk : l.length ≤ k) :
    stuffBits m k l =
      if stuffHead m l = List.replicate (m - 1) true then
        (2 ^ m - 2) :: stuffBits m (k - 1) (l.drop (m - 1))
      else if stuffHead m l = List.replicate (m - 1) false then
        1 :: stuffBits m (k - 1) (l.drop (m - 1))
      else stuffWord m l :: stuffBits m (k - 1) (l.drop m) := by
  obtain ⟨v, l, rfl⟩ := List.exists_cons_of_ne_nil h
  obtain ⟨k, rfl⟩ := Nat.exists_eq_add_of_le' (Nat.one_le_of_lt hk)
  simp only [stuffBits, stuffHead_eq_ones_iff _ hm, stuffHead_eq_zeros_iff _ hm, Nat.sub_sub,
    Nat.add_sub_cancel]

/-- A pass takes at least one bit. -/
theorem length_drop_le_sub_one {j k : Nat} (hj : 1 ≤ j) (hk : l.length ≤ k) :
    (l.drop j).length ≤ k - 1 := by
  rw [List.length_drop]
  omega

/-- As many passes as there are bits come to the end. -/
theorem stuffs_stuffBits (hm : 2 ≤ m) {k : Nat} (hk : l.length ≤ k) : Stuffs m l (stuffBits m k l) := by
  induction k generalizing l with
  | zero =>
    obtain rfl := List.length_eq_zero_iff.mp (Nat.le_zero.mp hk)
    exact .nil
  | succ k ih =>
    by_cases h : l = []
    · subst h
      exact .nil
    · rw [stuffBits_of_ne_nil (by omega) h hk]
      split_ifs with h1 h0
      · exact .ones h h1 (ih (length_drop_le_sub_one (by omega) hk))
      · exact .zeros h h0 (ih (length_drop_le_sub_one (by omega) hk))
      · exact .plain h h1 h0 (ih (length_drop_le_sub_one (by omega) hk))

theorem replicate_false_ne_true {n : Nat} (hn : 1 ≤ n) :
    List.replicate n false ≠ List.replicate n true := by
  simp [List.replicate_inj, Nat.one_le_iff_ne_zero.mp hn]

/-- The passes of rule R212 have one end, that of the bounded loop. -/
theorem Stuffs.eq_stuffBits (hm : 2 ≤ m) (h : Stuffs m l K) {k : Nat} (hk : l.length ≤ k) :
    K = stuffBits m k l := by
  induction h generalizing k with
  | nil => cases k <;> rfl
  | ones h hd _ ih =>
    rw [stuffBits_of_ne_nil (by omega) h hk, if_pos hd, ih (length_drop_le_sub_one (by omega) hk)]
  | zeros h hd _ ih =>
    have h1 := hd.trans_ne (replicate_false_ne_true (show 1 ≤ m - 1 by omega))
    rw [stuffBits_of_ne_nil (by omega) h hk, if_neg h1, if_pos hd,
      ih (length_drop_le_sub_one (by omega) hk)]
  | plain h h1 h0 _ ih =>
    rw [stuffBits_of_ne_nil (by omega) h hk, if_neg h1, if_neg h0,
      ih (length_drop_le_sub_one (by omega) hk), stuffWord]

/-- Rule R214 item 3: no codeword is 0 or max. -/
theorem Stuffs.range (hm : 2 ≤ m) (h : Stuffs m l K) : ∀ k ∈ K, 1 ≤ k ∧ k < 2 ^ m - 1 := by
  have hpow : 4 ≤ 2 ^ m := Nat.pow_le_pow_right (n := 2) two_pos hm
  induction h with
  | nil => nofun
  | ones _ _ _ ih | zeros _ _ _ ih => exact List.forall_mem_cons.mpr ⟨by omega, ih⟩
  | plain h h1 h0 _ ih =>
    obtain ⟨hlow, hhigh⟩ := stuffWord_range _ (by omega) h1 h0
    exact List.forall_mem_cons.mpr ⟨⟨hlow.le, hhigh.trans_le (by omega)⟩, ih⟩

/-- A pass takes at least m − 1 bits, or all of them. -/
theorem length_drop_le_mul {j n : Nat} (hj : m - 1 ≤ j) (hn : l.length ≤ (n + 1) * (m - 1)) :
    (l.drop j).length ≤ n * (m - 1) := by
  rw [Nat.succ_mul] at hn
  rw [List.length_drop]
  omega

theorem Stuffs.eq_nil (h : Stuffs m [] K) : K = [] := by
  cases h with
  | nil => rfl
  | ones h | zeros h | plain h => exact absurd rfl h

/-- As many codewords as hold m − 1 bits each hold all bits. -/
theorem Stuffs.length_le (h : Stuffs m l K) {n : Nat} (hn : l.length ≤ n * (m - 1)) : K.length ≤ n := by
  induction n generalizing l K with
  | zero =>
    obtain rfl := List.length_eq_zero_iff.mp (Nat.le_zero.mp (hn.trans_eq (Nat.zero_mul _)))
    rw [h.eq_nil, List.length_nil]
  | succ n ih =>
    cases h with
    | nil => exact Nat.zero_le _
    | ones _ _ rest | zeros _ _ rest => exact Nat.succ_le_succ (ih rest (length_drop_le_mul le_rfl hn))
    | plain _ _ _ rest => exact Nat.succ_le_succ (ih rest (length_drop_le_mul (Nat.sub_le m 1) hn))

end Passes

theorem two_le_cwWidth (b : Block) : 2 ≤ b.cwWidth :=
  le_trans (by decide) (codewordWidth_range b.fsel).1

/-- Settles O47: the passes of rule R212 end where those of the bounded loop end. -/
theorem stuffEmitsNoForbiddenCodeword : Obligations.StuffEmitsNoForbiddenCodeword := by
  refine ⟨rfl, fun s hf => ⟨⟨_, stuffs_stuffBits (two_le_cwWidth _) le_rfl⟩, fun K hK => ?_⟩⟩
  refine ⟨hK.range (two_le_cwWidth _), ?_⟩
  rw [hK.eq_stuffBits (two_le_cwWidth _) le_rfl]
  exact check_outcome hf rfl (executesTo_of_effect hf)

/-! #### What codewords stand for -/

theorem natBits_zero (n : Nat) : natBits 0 n = List.replicate n false := by
  have hbits := natBits_bitsVal (List.replicate n false)
  rwa [bitsVal_replicate_false, List.length_replicate] at hbits

theorem natBits_two_pow_sub_one (n : Nat) : natBits (2 ^ n - 1) n = List.replicate n true := by
  have hbits := natBits_bitsVal (List.replicate n true)
  rwa [bitsVal_replicate_true, List.length_replicate] at hbits

theorem unstuffOne_eq_unstuffed (m c : Nat) : unstuffOne m c = unstuffed m c := by
  simp only [unstuffOne, unstuffed, natBits_zero, natBits_two_pow_sub_one, Nat.sub_sub]

theorem unstuffBits_eq_flatten (m : Nat) (l : List Nat) :
    unstuffBits m l = (l.map (unstuffed m)).flatten := by
  induction l with
  | nil => rfl
  | cons c l ih => rw [unstuffBits, ih, unstuffOne_eq_unstuffed, List.map_cons, List.flatten_cons]

/-- The bits that the codewords of the buffer stand for, in order. -/
def Block.unstuffedBits (b : Block) : List Bool :=
  (b.cwbuf.map fun c => unstuffed b.cwWidth c.toNat).flatten

theorem unstuffBits_cws (b : Block) : unstuffBits b.cwWidth b.cws = b.unstuffedBits := by
  rw [unstuffBits_eq_flatten, Block.cws, List.map_map]
  rfl

/-! #### UNSTUFF -/

/-- The lowest index of a codeword 0 or max (check 1 of rule R213). -/
def Block.badCodewordIndex (b : Block) : Option Nat :=
  b.cws.findIdx? fun c => c == 0 || c == 2 ^ b.cwWidth - 1

section Rules

variable {b : Block}

theorem badCodewordIndex_eq_some {i : Nat} {c : BitVec 12} (hi : b.cwbuf[i]? = some c)
    (hc : c.toNat = 0 ∨ c.toNat = 2 ^ b.cwWidth - 1)
    (hmin : ∀ j d, j < i → b.cwbuf[j]? = some d → d.toNat ≠ 0 ∧ d.toNat ≠ 2 ^ b.cwWidth - 1) :
    b.badCodewordIndex = some i := by
  rw [Block.badCodewordIndex, Block.cws, List.findIdx?_map]
  refine findIdx?_eq_some_of_getElem? hi (by simpa using hc) fun j d hj hd => ?_
  simpa using hmin j d hj hd

theorem badCodewordIndex_eq_none (h : ∀ c ∈ b.cwbuf, c.toNat ≠ 0 ∧ c.toNat ≠ 2 ^ b.cwWidth - 1) :
    b.badCodewordIndex = none := by
  rw [Block.badCodewordIndex, Block.cws, List.findIdx?_map, List.findIdx?_eq_none_iff]
  intro c hc
  simpa using h c hc

theorem unstuff_of_forbidden {p : Params} {i : Nat} (h : b.badCodewordIndex = some i) :
    unstuff p b = .raise .feStuff i := by
  rw [Block.badCodewordIndex] at h
  simp only [unstuff, h]

theorem unstuff_of_allowed {p : Params} (h : b.badCodewordIndex = none) :
    unstuff p b =
      if b.bitlen + b.unstuffedBits.length > p.bitCap then .raise .boBit b.bitlen
      else .done (b.pushBits b.unstuffedBits) 0 := by
  rw [Block.badCodewordIndex] at h
  simp only [unstuff, h, unstuffBits_cws]

theorem unstuff_executes {s : State} (hf : s.block.fault = false)
    (hall : ∀ c ∈ s.block.cwbuf, c.toNat ≠ 0 ∧ c.toNat ≠ 2 ^ s.block.cwWidth - 1)
    (hroom : s.block.bitlen + s.block.unstuffedBits.length ≤ s.params.bitCap) :
    ExecutesTo .unstuff s (s.block.pushBits s.block.unstuffedBits) :=
  executesTo_of_effect hf
    ((unstuff_of_allowed (badCodewordIndex_eq_none hall)).trans (if_neg (not_lt.mpr hroom)))

end Rules

/-- Settles O48: the first check of UNSTUFF is the first codeword 0 or max; past it stands one more
check. -/
theorem unstuffExpandsRuns : Obligations.UnstuffExpandsRuns := by
  refine ⟨rfl, fun s hf => ⟨fun i c hi hc hmin => ?_, fun hall => ?_⟩⟩
  · exact faultsWith_of_effect hf (unstuff_of_forbidden (badCodewordIndex_eq_some hi hc hmin))
  · exact check_outcome hf (unstuff_of_allowed (badCodewordIndex_eq_none hall)) (executesTo_of_effect hf)

/-! #### Stuffing and back (rule R214 item 4) -/

/-- `out` is l followed by ones, at most m − 1 of them and none where l is empty. -/
def PaddedTo (m : Nat) (l out : List Bool) : Prop :=
  ∃ p ≤ m - 1, (l = [] → p = 0) ∧ out = l ++ List.replicate p true

section Padding

variable {m : Nat} {l : List Bool}

theorem take_padded_append_drop {j : Nat} (hj : j ≤ m) (p : Nat) :
    (l ++ List.replicate m true).take j ++ (l.drop j ++ List.replicate p true) =
      l ++ List.replicate (j - l.length + p) true := by
  have hmin : min (j - l.length) m = j - l.length := by omega
  rw [List.take_append, List.take_replicate, hmin]
  obtain hle | hlt := le_or_gt j l.length
  · simp [Nat.sub_eq_zero_of_le hle, ← List.append_assoc]
  · simp [List.take_of_length_le hlt.le, List.drop_of_length_le hlt.le]

/-- A pass that gives back the j bits it looked at keeps what the later ones give back padded. -/
theorem PaddedTo.pass {j : Nat} {out : List Bool} (hl : l ≠ []) (hj : j ≤ m)
    (h : PaddedTo m (l.drop j) out) : PaddedTo m l ((l ++ List.replicate m true).take j ++ out) := by
  obtain ⟨p, hp, hzero, rfl⟩ := h
  have hpos := List.length_pos_iff.mpr hl
  refine ⟨j - l.length + p, ?_, fun hnil => absurd hnil hl, take_padded_append_drop hj p⟩
  obtain hle | hlt := le_or_gt j l.length
  · omega
  · have hnone : p = 0 := hzero (List.drop_of_length_le hlt.le)
    omega

theorem unstuffed_ones (hm : 2 ≤ m) : unstuffed m (2 ^ m - 2) = List.replicate (m - 1) true := by
  have hpow : 4 ≤ 2 ^ m := Nat.pow_le_pow_right (n := 2) two_pos hm
  rw [unstuffed, if_neg (by omega), if_pos rfl]

theorem unstuffed_zeros : unstuffed m 1 = List.replicate (m - 1) false :=
  if_pos rfl

theorem unstuffed_stuffWord (hm : 1 ≤ m) (h1 : stuffHead m l ≠ List.replicate (m - 1) true)
    (h0 : stuffHead m l ≠ List.replicate (m - 1) false) :
    unstuffed m (stuffWord m l) = (l ++ List.replicate m true).take m := by
  obtain ⟨hlow, hhigh⟩ := stuffWord_range l hm h1 h0
  have hbits := natBits_bitsVal ((l ++ List.replicate m true).take m)
  rw [length_take_padded l le_rfl] at hbits
  rw [unstuffed, if_neg hlow.ne', if_neg hhigh.ne, stuffWord, hbits]

/-- Rule R214 item 4, for the passes of rule R212. -/
theorem Stuffs.paddedTo {K : List Nat} (hm : 2 ≤ m) (h : Stuffs m l K) :
    PaddedTo m l (K.map (unstuffed m)).flatten := by
  induction h with
  | nil => exact ⟨0, Nat.zero_le _, fun _ => rfl, rfl⟩
  | ones h hd _ ih =>
    rw [List.map_cons, List.flatten_cons, unstuffed_ones hm, ← hd]
    exact ih.pass h (Nat.sub_le m 1)
  | zeros h hd _ ih =>
    rw [List.map_cons, List.flatten_cons, unstuffed_zeros, ← hd]
    exact ih.pass h (Nat.sub_le m 1)
  | plain h h1 h0 _ ih =>
    rw [List.map_cons, List.flatten_cons, ← stuffWord, unstuffed_stuffWord (by omega) h1 h0]
    exact ih.pass h le_rfl

end Padding

/-- BCLR and UNSTUFF, where the buffer holds codewords that are none of 0 and max. -/
theorem runCommands_bclr_unstuff {s : State} {K : List Nat} (hf : s.block.fault = false)
    (hbuf : s.block.cwbuf = toCodewords K) (hK : ∀ k ∈ K, 1 ≤ k ∧ k < 2 ^ s.block.cwWidth - 1)
    (hroom : (K.map (unstuffed s.block.cwWidth)).flatten.length ≤ s.params.bitCap) :
    ∃ t, runCommands [.bclr, .unstuff] s = .next t ∧
      t.block.bitbuf = (K.map (unstuffed s.block.cwWidth)).flatten ∧ t.port.resp = some ⟨0x00, 0⟩ := by
  have hcws : s.block.cws = K := by
    rw [Block.cws, hbuf, map_toNat_toCodewords fun k hk => (hK k hk).2.trans_le (Nat.sub_le _ 1)]
  have hout : s.block.unstuffedBits = (K.map (unstuffed s.block.cwWidth)).flatten := by
    rw [← unstuffBits_cws, unstuffBits_eq_flatten, hcws]
  refine ⟨_, (runCommands_cons (executesTo_of_effect (i := .bclr) hf rfl)).trans
    (runCommands_cons (unstuff_executes (by exact hf) ?allowed ?room)), hout, rfl⟩
  case allowed =>
    intro c hc
    obtain ⟨hlow, hhigh⟩ := hK c.toNat (hcws ▸ List.mem_map_of_mem hc)
    exact ⟨Nat.ne_of_gt hlow, hhigh.ne⟩
  case room =>
    rw [← hout] at hroom
    exact (Nat.zero_add _).trans_le hroom

/-- Settles O49: the codewords of STUFF fit and are none of 0 and max, so that UNSTUFF runs and gives the
bits back, padded. -/
theorem stuffThenUnstuffReturnsTheBits : Obligations.StuffThenUnstuffReturnsTheBits := by
  intro s _ hf hempty hcap hroom
  obtain ⟨⟨K, hK⟩, hend⟩ := stuffEmitsNoForbiddenCodeword.2 s hf
  obtain ⟨hrange, hstuff⟩ := hend K hK
  have hlen : K.length ≤ s.params.cwCap := hK.length_le (by simpa using hcap)
  rw [if_neg (by simpa [hempty] using hlen)] at hstuff
  obtain ⟨p, hp, -, hpad⟩ := hK.paddedTo (two_le_cwWidth s.block)
  have hbuf : s.block.cwbuf ++ K.map (BitVec.ofNat 12) = toCodewords K := by
    rw [hempty, List.nil_append, toCodewords]
  have hfits : (K.map (unstuffed s.block.cwWidth)).flatten.length ≤ s.params.bitCap := by
    rw [hpad, List.length_append, List.length_drop, List.length_replicate]
    omega
  obtain ⟨t, hrun, hbits, hresp⟩ := runCommands_bclr_unstuff
    (s := complete
      { s.block with
        cwbuf := s.block.cwbuf ++ K.map (BitVec.ofNat 12)
        rdpos := s.block.bitbuf.length } 0 s) hf hbuf hrange hfits
  exact ⟨t, p, (runCommands_cons hstuff).trans hrun, hp, hbits.trans hpad, hresp⟩

end Sys2Proof.Machine

/-! ### Mode tables and the character buffer (44_text.md rules R246 to R251) -/

namespace Sys2Proof.Machine

section Rules

variable {p : Params} {b : Block} {ra rb : Reg} {idx : Word}

/-! #### MODEW -/

theorem codeWidthOk_eq_false {w : BitVec 4} : codeWidthOk w = false ↔ w.toNat < 1 ∨ 8 < w.toNat := by
  rw [codeWidthOk, decide_eq_false_iff_not]
  omega

theorem effect_modew {k : Mode} {w : BitVec 4} :
    effect p (.modew k w) b =
      if w.toNat < 1 ∨ 8 < w.toNat then .raise .icField 0
      else .done
        { b with modew := b.modew.set k w, tbl := sparseErase (tblKey k 0) (tblKey k 256) b.tbl } 0 := by
  simp only [effect, modew, codeWidthOk_eq_false]

/-- A mode's entries have the 256 positions from its first one on. -/
theorem tblKey_mem_range {j k : Mode} {v : Nat} (hv : v < 256) :
    tblKey k 0 ≤ tblKey j v ∧ tblKey j v < tblKey k 256 ↔ j = k := by
  simp only [tblKey, Fin.ext_iff]
  omega

/-- MODEW makes the entries of its mode UNDEF and leaves those of the others. -/
theorem tblGet_modew (b : Block) (k j : Mode) (w : Vector (BitVec 4) 8) {v : Nat} (hv : v < 256) :
    { b with modew := w, tbl := sparseErase (tblKey k 0) (tblKey k 256) b.tbl }.tblGet j v =
      if j = k then .undef else b.tblGet j v := by
  rw [Block.tblGet, sparseGet_erase, Block.tblGet]
  simp only [tblKey_mem_range hv]

/-! #### Table entries as 12-bit values -/

/-- A 12-bit value is its kind and its argument (44_text.md rule R242). -/
theorem ofNat_kind_arg {e : Word} (hhigh : bits e 31 12 = 0) :
    BitVec.ofNat 32 (bits e 11 8 * 0x100 + bits e 7 0) = e := by
  apply BitVec.eq_of_toNat_eq
  simp only [bits, BitVec.toNat_ofNat] at *
  omega

/-- The entries TBLWR stores are the legal ones, and an entry stored is its 12-bit value. -/
theorem ofWord_cases (e : Word) :
    (∃ x, Entry.ofWord e = some x ∧ entryLegal e ∧ x.toWord = e) ∨
      (Entry.ofWord e = none ∧ ¬entryLegal e) := by
  unfold Entry.ofWord entryLegal
  by_cases hhigh : bits e 31 12 = 0
  case neg => exact .inr ⟨if_pos hhigh, fun h => hhigh h.1⟩
  have he := ofNat_kind_arg hhigh
  have harg : bits e 7 0 < 256 := Nat.mod_lt _ (by decide)
  rw [if_neg (not_not.mpr hhigh)]
  split
  case h_1 hkind | h_5 hkind | h_6 hkind | h_7 hkind =>
    rw [hkind] at he
    split
    case isTrue hzero =>
      rw [hzero] at he
      exact .inl ⟨_, rfl, ⟨hhigh, by omega⟩, he⟩
    case isFalse => exact .inr ⟨rfl, by omega⟩
  case h_2 hkind =>
    rw [hkind] at he
    refine .inl ⟨_, rfl, ⟨hhigh, .inl hkind⟩, ?_⟩
    rwa [Entry.toWord, BitVec.toNat_ofNat, Nat.mod_eq_of_lt harg]
  case h_3 hkind | h_4 hkind =>
    rw [hkind] at he
    split
    case isTrue hmode => exact .inl ⟨_, rfl, ⟨hhigh, by omega⟩, he⟩
    case isFalse => exact .inr ⟨rfl, by omega⟩
  case h_8 => exact .inr ⟨rfl, fun hlegal => by simp_all⟩

/-! #### TBLWR and TBLRD -/

/-- A valid table index (44_text.md rule R247 checks 1 and 2). -/
def ValidIndex (b : Block) (idx : Word) : Prop :=
  bits idx 31 11 = 0 ∧ ∀ k : Mode, k.val = bits idx 10 8 →
    b.width k ≠ 0 ∧ bits idx 7 0 < 2 ^ b.width k

theorem tblIndex_eq_some (h : ValidIndex b idx) {k : Mode} (hk : k.val = bits idx 10 8) :
    tblIndex b idx = some (k, bits idx 7 0) := by
  obtain ⟨hhigh, hvalid⟩ := h
  obtain ⟨hdefined, hcode⟩ := hvalid k hk
  obtain rfl : k = ⟨bits idx 10 8, Nat.mod_lt _ (by decide)⟩ := Fin.ext hk
  simp only [tblIndex]
  rw [if_neg (not_not.mpr hhigh), if_neg (not_or.mpr ⟨hdefined, not_le.mpr hcode⟩)]

theorem tblIndex_eq_none (h : ¬ValidIndex b idx) : tblIndex b idx = none := by
  simp only [tblIndex]
  split_ifs with hhigh hbad
  · rfl
  · rfl
  · refine absurd ⟨not_not.mp hhigh, fun k hk => ?_⟩ h
    obtain rfl : k = ⟨bits idx 10 8, Nat.mod_lt _ (by decide)⟩ := Fin.ext hk
    simpa using hbad

theorem tblwr_of_invalid (h : ¬ValidIndex b (b.reg ra)) :
    tblwr ra rb b = .raise .aeTbl (b.regNat ra) := by
  simp only [tblwr, tblIndex_eq_none h]

theorem tblrd_of_invalid (h : ¬ValidIndex b (b.reg rb)) :
    tblrd ra rb b = .raise .aeTbl (b.regNat rb) := by
  simp only [tblrd, tblIndex_eq_none h]

theorem tblrd_of_valid (h : ValidIndex b (b.reg rb)) {k : Mode} (hk : k.val = bits (b.reg rb) 10 8) :
    tblrd ra rb b = .done (b.setReg ra (b.tblGet k (bits (b.reg rb) 7 0)).toWord) 0 := by
  simp only [tblrd, tblIndex_eq_some h hk]

theorem tblwr_of_illegal (h : ValidIndex b (b.reg ra)) (he : ¬entryLegal (b.reg rb)) :
    tblwr ra rb b = .raise .ceTbl (b.regNat rb) := by
  obtain ⟨x, -, hlegal, -⟩ | ⟨hnone, -⟩ := ofWord_cases (b.reg rb)
  · exact absurd hlegal he
  · simp only [tblwr, tblIndex_eq_some (k := ⟨bits _ 10 8, Nat.mod_lt _ (by decide)⟩) h rfl, hnone]

/-- A legal entry is stored at the mode and the code of the index. -/
theorem tblwr_of_legal (h : ValidIndex b (b.reg ra)) {k : Mode} (hk : k.val = bits (b.reg ra) 10 8)
    (he : entryLegal (b.reg rb)) :
    ∃ x : Entry, x.toWord = b.reg rb ∧
      tblwr ra rb b = .done (b.tblSet k (bits (b.reg ra) 7 0) x) 0 := by
  obtain ⟨x, hx, -, hword⟩ | ⟨-, hillegal⟩ := ofWord_cases (b.reg rb)
  · exact ⟨x, hword, by simp only [tblwr, tblIndex_eq_some h hk, hx]⟩
  · exact absurd he hillegal

/-! #### CHRD -/

theorem chrd_of_length_le (h : b.chbuf.length ≤ b.regNat rb) :
    chrd ra rb b = .raise .aeCh (b.regNat rb) := by
  rw [chrd, List.getElem?_eq_none h]

theorem chrd_of_lt (h : b.regNat rb < b.chbuf.length) :
    chrd ra rb b = .done (b.setReg ra (b.chbuf[b.regNat rb].setWidth 32)) 0 := by
  rw [chrd, List.getElem?_eq_getElem h]

end Rules

/-- Settles O50, by the check of MODEW and by what an erased range reads. -/
theorem modewDefinesAMode : Obligations.ModewDefinesAMode := by
  intro k w s hf
  refine ⟨encode_of_operands rfl, check_outcome hf effect_modew fun hdone => ?_⟩
  exact ⟨_, executesTo_of_effect hf hdone, rfl, fun j v hv => tblGet_modew s.block k j _ hv⟩

/-- Settles O51, by the validity of the index and the legality of the entry; a write of TBL is read back
at its mode and code and at no other. -/
theorem tableEntriesWriteAndReadBack : Obligations.TableEntriesWriteAndReadBack := by
  intro ra rb s ⟨_, hb⟩ hf
  refine ⟨encode_of_operands rfl, encode_of_operands rfl, fun h => ?_, fun h he => ?_, fun h he => ?_,
    fun h => ?_, fun h k hk => ?_⟩
  · exact faultsWith_of_effect hf (tblwr_of_invalid h)
  · exact faultsWith_of_effect hf (tblwr_of_illegal h he)
  · obtain ⟨x, hword, hdone⟩ :=
      tblwr_of_legal (k := ⟨bits (s.block.reg ra) 10 8, Nat.mod_lt _ (by decide)⟩) h rfl he
    refine ⟨_, executesTo_of_effect hf hdone, rfl, fun k v hv => ?_⟩
    split
    case isTrue hat =>
      obtain ⟨hk, rfl⟩ := hat
      obtain rfl : k = ⟨bits (s.block.reg ra) 10 8, Nat.mod_lt _ (by decide)⟩ := Fin.ext hk
      rw [tblGet_tblSet_same s.block _ _ _ hb.memory_wf, hword]
    case isFalse hother =>
      refine tblGet_tblSet_other s.block x (Nat.mod_lt _ (by decide)) hv fun hat => hother ?_
      exact ⟨congrArg Fin.val hat.1, hat.2⟩
  · exact faultsWith_of_effect hf (tblrd_of_invalid h)
  · exact executesTo_of_effect hf (tblrd_of_valid h hk)

/-- Settles O52, by the rule of CHCLR, the check of CHAP and the two cases of CHRD's index. -/
theorem characterBufferCommands : Obligations.CharacterBufferCommands := by
  refine ⟨rfl, fun ra rb s hf =>
    ⟨rfl, encode_of_operands rfl, executesTo_of_effect hf rfl, ?_, ?_⟩⟩
  · refine check_outcome hf rfl fun hdone => ⟨_, ?_, executesTo_of_effect hf hdone⟩
    exact BitVec.toNat_setWidth _ _
  · split
    case isTrue hout => exact faultsWith_of_effect hf (chrd_of_length_le hout)
    case isFalse hin =>
      have hlt := not_le.mp hin
      exact ⟨_, _, List.getElem?_eq_getElem hlt, BitVec.toNat_setWidth_of_le (by decide),
        executesTo_of_effect hf (chrd_of_lt hlt)⟩

end Sys2Proof.Machine

/-! ### The decoder (44_text.md rules R252 to R255) -/

namespace Sys2Proof.Machine

section Pass

variable {b : Block} {latch active k : Mode} {out : List (BitVec 10)} {code rest left more : List Bool}

/-! #### One pass, by the entry of the code it reads -/

theorem txPass_of_short (h : rest.length < b.width active) :
    txPass b ⟨latch, active, out, rest⟩ = .inl (.done out rest) :=
  if_pos h

/-- A pass reads the code at the front of the unread bits. -/
theorem txPass_code (hlen : code.length = b.width active) :
    ¬(code ++ rest).length < b.width active ∧ (code ++ rest).take (b.width active) = code ∧
      (code ++ rest).drop (b.width active) = rest := by
  simp [← hlen]

theorem trailing254_iff {w v : Nat} :
    trailing254 b w v rest = true ↔ b.txcfg.getLsbD 8 = true ∧ w = 8 ∧ v = 254 ∧ rest = [] := by
  simp [trailing254, Block.acc254, and_assoc]

theorem txPass_undef (hlen : code.length = b.width active)
    (h : b.tblGet active (bitsVal code) = .undef) :
    txPass b ⟨latch, active, out, code ++ rest⟩ =
      if trailing254 b (b.width active) (bitsVal code) rest = true then .inl (.done out rest)
      else .inl (.raise .feTxundef (active.val * 256 + bitsVal code)) := by
  simp only [txPass, txPass_code hlen, h, if_false]

theorem txPass_char {c : Byte} (hlen : code.length = b.width active)
    (h : b.tblGet active (bitsVal code) = .char c) :
    txPass b ⟨latch, active, out, code ++ rest⟩ = .inr ⟨latch, latch, out ++ [charEntry c], rest⟩ := by
  simp only [txPass, txPass_code hlen, h, if_false]

theorem txPass_fnc1 (hlen : code.length = b.width active)
    (h : b.tblGet active (bitsVal code) = .fnc1) :
    txPass b ⟨latch, active, out, code ++ rest⟩ = .inr ⟨latch, latch, out ++ [fnc1Entry], rest⟩ := by
  simp only [txPass, txPass_code hlen, h, if_false]

theorem txPass_pad (hlen : code.length = b.width active)
    (h : b.tblGet active (bitsVal code) = .pad) :
    txPass b ⟨latch, active, out, code ++ rest⟩ = .inl (.done out rest) := by
  simp only [txPass, txPass_code hlen, h, if_false]

theorem txPass_latch (hlen : code.length = b.width active)
    (h : b.tblGet active (bitsVal code) = .latch k) :
    txPass b ⟨latch, active, out, code ++ rest⟩ =
      if b.width k = 0 then .inl (.raise .feTxmode (active.val * 256 + bitsVal code))
      else .inr ⟨k, k, out, rest⟩ := by
  simp only [txPass, txPass_code hlen, h, if_false]

theorem txPass_shift (hlen : code.length = b.width active)
    (h : b.tblGet active (bitsVal code) = .shift k) :
    txPass b ⟨latch, active, out, code ++ rest⟩ =
      if b.width k = 0 then .inl (.raise .feTxmode (active.val * 256 + bitsVal code))
      else .inr ⟨active, k, out, rest⟩ := by
  simp only [txPass, txPass_code hlen, h, if_false]

/-- A BINARY code whose length code is cut short (rule R245). -/
theorem txPass_binary_short (hlen : code.length = b.width active)
    (h : b.tblGet active (bitsVal code) = .binary) (hrun : readRunLength b rest = .error left) :
    txPass b ⟨latch, active, out, code ++ rest⟩ = .inl (.done out left) := by
  simp only [txPass, txPass_code hlen, h, hrun, if_false]

/-- A BINARY code and its run (rule R254). -/
theorem txPass_binary {L : Nat} (hlen : code.length = b.width active)
    (h : b.tblGet active (bitsVal code) = .binary) (hrun : readRunLength b rest = .ok (L, more)) :
    txPass b ⟨latch, active, out, code ++ rest⟩ =
      let r := readBytes L more
      if r.2.2 = true then .inl (.done (out ++ r.1.map binEntry) r.2.1)
      else .inr ⟨active, active, out ++ r.1.map binEntry, r.2.1⟩ := by
  simp only [txPass, txPass_code hlen, h, hrun, if_false]

/-! #### The run length and the literal bytes (rule R254) -/

theorem readRunLength_short (h : rest.length < b.lenW1) : readRunLength b rest = .error rest :=
  if_pos h

theorem readRunLength_direct (hlen : code.length = b.lenW1) (h : bitsVal code ≠ 0 ∨ b.lenW2 = 0) :
    readRunLength b (code ++ rest) = .ok (bitsVal code, rest) := by
  have hnot : ¬(bitsVal code = 0 ∧ b.lenW2 ≠ 0) := by omega
  simp [readRunLength, ← hlen, hnot]

theorem readRunLength_extended_short (hlen : code.length = b.lenW1) (hzero : bitsVal code = 0)
    (h : rest.length < b.lenW2) : readRunLength b (code ++ rest) = .error rest := by
  have hext : bitsVal code = 0 ∧ b.lenW2 ≠ 0 := by omega
  simp [readRunLength, ← hlen, hext, h]

theorem readRunLength_extended {ext : List Bool} (hlen : code.length = b.lenW1)
    (hzero : bitsVal code = 0) (hw : b.lenW2 ≠ 0) (hext : ext.length = b.lenW2) :
    readRunLength b (code ++ (ext ++ rest)) = .ok (bitsVal ext + b.lenBias, rest) := by
  have hext_ne : ext ≠ [] := by rintro rfl; exact hw hext.symm
  simp [readRunLength, ← hlen, hzero, ← hext, hext_ne]

/-- The bits of literal bytes, one after the other. -/
def literalBits (bytes : List Byte) : List Bool := (bytes.map fun v => natBits v.toNat 8).flatten

/-- Literal bytes read back, up to as many as there are or as there are whole bytes of bits. -/
theorem readBytes_literalBits (bytes : List Byte) (n : Nat) :
    readBytes (bytes.length + n) (literalBits bytes ++ more) =
      (bytes.map BitVec.toNat ++ (readBytes n more).1, (readBytes n more).2) := by
  induction bytes with
  | nil => simp [literalBits]
  | cons c bytes ih =>
    have hbits : literalBits (c :: bytes) ++ more = natBits c.toNat 8 ++ (literalBits bytes ++ more) := by
      simp [literalBits]
    have hbyte : bitsVal (natBits c.toNat 8) = c.toNat := by
      rw [bitsVal_natBits, Nat.mod_eq_of_lt c.isLt]
    have hcut : (natBits c.toNat 8).length = 8 := natBits_length _ _
    rw [hbits, List.length_cons, Nat.add_right_comm, readBytes, if_neg (by simp [hcut]),
      List.take_left' hcut, List.drop_left' hcut, ih, hbyte]
    rfl

theorem readBytes_short {n : Nat} (h : rest.length < 8) : readBytes (n + 1) rest = ([], rest, true) :=
  if_pos h

/-- The entry of a literal byte (rule R243). -/
def byteEntry (v : Byte) : BitVec 10 := binEntry v.toNat

theorem map_byteEntry (bytes : List Byte) :
    bytes.map byteEntry = (bytes.map BitVec.toNat).map binEntry :=
  List.map_map.symm

theorem txPass_whole_run {bytes : List Byte} (hlen : code.length = b.width active)
    (h : b.tblGet active (bitsVal code) = .binary)
    (hrun : readRunLength b rest = .ok (bytes.length, literalBits bytes ++ more)) :
    txPass b ⟨latch, active, out, code ++ rest⟩ =
      .inr ⟨active, active, out ++ bytes.map byteEntry, more⟩ := by
  have hread := readBytes_literalBits (more := more) bytes 0
  rw [Nat.add_zero, readBytes, List.append_nil] at hread
  rw [txPass_binary hlen h hrun, hread, map_byteEntry]
  rfl

theorem txPass_cut_run {bytes : List Byte} {L : Nat} (hlen : code.length = b.width active)
    (h : b.tblGet active (bitsVal code) = .binary)
    (hrun : readRunLength b rest = .ok (L, literalBits bytes ++ more)) (hL : bytes.length < L)
    (hmore : more.length < 8) :
    txPass b ⟨latch, active, out, code ++ rest⟩ = .inl (.done (out ++ bytes.map byteEntry) more) := by
  obtain ⟨n, rfl⟩ := Nat.exists_eq_add_of_lt hL
  have hread := readBytes_literalBits (more := more) bytes (n + 1)
  rw [readBytes_short hmore, List.append_nil] at hread
  rw [txPass_binary hlen h hrun, Nat.add_assoc, hread, map_byteEntry]
  rfl

theorem readRunLength_length_le {L : Nat} (h : readRunLength b rest = .ok (L, more)) :
    more.length ≤ rest.length := by
  simp only [readRunLength] at h
  split_ifs at h <;> cases h <;> simp only [List.length_drop] <;> omega

theorem readBytes_length_le (n : Nat) : (readBytes n rest).2.1.length ≤ rest.length := by
  induction n generalizing rest with
  | zero => exact le_rfl
  | succ n ih =>
    rw [readBytes]
    split
    · exact le_rfl
    · exact ih.trans (by simp)

/-! #### What a pass can do -/

/-- A defined latched and a defined active mode. -/
def Session.Defined (b : Block) (ss : Session) : Prop := b.width ss.latch ≠ 0 ∧ b.width ss.active ≠ 0

/-- A pass raises FE_TXUNDEF and FE_TXMODE only; where it does not end the decoding it has taken its code
from the unread bits, and the modes stay defined. -/
def PassSound (b : Block) (ss : Session) : TxEnd ⊕ Session → Prop
  | .inl (.done _ _) => True
  | .inl (.raise c _) => c = .feTxundef ∨ c = .feTxmode
  | .inr ss' => ss'.rest.length + b.width ss.active ≤ ss.rest.length ∧ (ss.Defined b → ss'.Defined b)

theorem txPass_sound (b : Block) (ss : Session) : PassSound b ss (txPass b ss) := by
  obtain ⟨latch, active, out, rest⟩ := ss
  by_cases hshort : rest.length < b.width active
  · rw [txPass_of_short hshort]
    trivial
  obtain ⟨code, rest, rfl, hlen⟩ : ∃ code left, rest = code ++ left ∧ code.length = b.width active :=
    ⟨_, _, (List.take_append_drop (b.width active) rest).symm, List.length_take_of_le (not_lt.mp hshort)⟩
  have hcut {left : List Bool} (h : left.length ≤ rest.length) :
      left.length + b.width active ≤ (code ++ rest).length := by
    rw [List.length_append, hlen]
    omega
  cases he : b.tblGet active (bitsVal code) with
  | undef =>
    rw [txPass_undef hlen he]
    split
    · trivial
    · exact .inl rfl
  | char c =>
    rw [txPass_char hlen he]
    exact ⟨hcut le_rfl, fun hd => ⟨hd.1, hd.1⟩⟩
  | fnc1 =>
    rw [txPass_fnc1 hlen he]
    exact ⟨hcut le_rfl, fun hd => ⟨hd.1, hd.1⟩⟩
  | pad =>
    rw [txPass_pad hlen he]
    trivial
  | latch k =>
    rw [txPass_latch hlen he]
    split
    case isTrue => exact .inr rfl
    case isFalse hk => exact ⟨hcut le_rfl, fun _ => ⟨hk, hk⟩⟩
  | shift k =>
    rw [txPass_shift hlen he]
    split
    case isTrue => exact .inr rfl
    case isFalse hk => exact ⟨hcut le_rfl, fun hd => ⟨hd.2, hk⟩⟩
  | binary =>
    cases hrun : readRunLength b rest with
    | error left =>
      rw [txPass_binary_short hlen he hrun]
      trivial
    | ok r =>
      obtain ⟨L, more⟩ := r
      rw [txPass_binary hlen he hrun]
      dsimp only
      split
      · trivial
      · exact ⟨hcut ((readBytes_length_le L).trans (readRunLength_length_le hrun)),
          fun hd => ⟨hd.2, hd.2⟩⟩

end Pass

theorem ite_eq_of_eq_ite {α : Type} {c : Prop} [Decidable c] {r x y : α} (h : r = if c then x else y) :
    if c then r = x else r = y := by
  rwa [eq_ite_iff, ← ite_prop_iff_or] at h

/-- Settles O54, by the entry of the code read. -/
theorem decoderPassFollowsLatchAndShift : Obligations.DecoderPassFollowsLatchAndShift := by
  refine ⟨fun b latch active out rest h => txPass_of_short h, ?_⟩
  intro b latch active out code rest hlen ss v
  split
  case h_1 c h => exact txPass_char hlen h
  case h_2 h => exact txPass_fnc1 hlen h
  case h_3 k h => exact ite_eq_of_eq_ite (txPass_latch hlen h)
  case h_4 k h => exact ite_eq_of_eq_ite (txPass_shift hlen h)
  case h_5 h => exact txPass_pad hlen h
  case h_6 h => exact ite_eq_of_eq_ite ((txPass_undef hlen h).trans (if_congr trailing254_iff rfl rfl))
  case h_7 h =>
    refine ⟨_, rfl, fun c i hraise => ?_⟩
    cases hrun : readRunLength b rest with
    | error left => exact nomatch hraise.symm.trans (txPass_binary_short hlen h hrun)
    | ok r =>
      have hpass := hraise.symm.trans (txPass_binary (latch := latch) (out := out) hlen h hrun)
      dsimp only at hpass
      split at hpass <;> cases hpass

/-- Settles O55: the length code decides the length of the run, and the bytes read are the literal ones. -/
theorem binaryRunReadsItsBytes : Obligations.BinaryRunReadsItsBytes := by
  intro b latch active out code hlen h w1 w2 go marked literal announces
  have hannounced {pre rest more : List Bool} {L : Nat} (hpre : announces pre L) :
      readRunLength b (pre ++ rest ++ more) = .ok (L, rest ++ more) := by
    obtain ⟨hw1, rfl, hdirect⟩ | ⟨p, q, rfl, hw1, hzero, hw2, hq, rfl⟩ := hpre
    · rw [List.append_assoc]
      exact readRunLength_direct hw1 hdirect
    · rw [List.append_assoc, List.append_assoc]
      exact readRunLength_extended hw1 hzero hw2 hq
  refine ⟨fun pre bytes more hpre => ?_, fun pre L bytes more hpre hcut hmore => ?_, fun pre hpre => ?_,
    fun p q hp hzero hq => ?_⟩
  · exact txPass_whole_run hlen h (hannounced hpre)
  · exact txPass_cut_run hlen h (hannounced hpre) hcut hmore
  · exact txPass_binary_short hlen h (readRunLength_short hpre)
  · exact txPass_binary_short hlen h (readRunLength_extended_short hp hzero hq)

/-! #### The loop (rule R252) -/

section Loop

variable {b : Block} {ss ss' : Session} {e e' : TxEnd}

theorem txPass_inr (h : txPass b ss = .inr ss') :
    ss'.rest.length + b.width ss.active ≤ ss.rest.length ∧ (ss.Defined b → ss'.Defined b) := by
  have hsound := txPass_sound b ss
  rwa [h] at hsound

theorem txPass_raise {c : FaultCode} {v : Nat} (h : txPass b ss = .inl (.raise c v)) :
    c = .feTxundef ∨ c = .feTxmode := by
  have hsound := txPass_sound b ss
  rwa [h] at hsound

theorem Decodes.unique (h : Decodes b ss e) (h' : Decodes b ss e') : e = e' := by
  induction h with
  | stop h =>
    cases h' with
    | stop h' => exact Sum.inl.inj (h.symm.trans h')
    | more h' => exact nomatch h.symm.trans h'
  | more h _ ih =>
    cases h' with
    | stop h' => exact nomatch h.symm.trans h'
    | more h' rest => exact ih (Sum.inr.inj (h'.symm.trans h) ▸ rest)

/-- Every pass takes a bit, so that more passes than there are bits reach the end. -/
theorem decodes_txLoop {n : Nat} (hd : ss.Defined b) (hn : ss.rest.length < n) :
    Decodes b ss (txLoop b n ss) := by
  induction n generalizing ss with
  | zero => omega
  | succ n ih =>
    cases h : txPass b ss with
    | inl e =>
      simp only [txLoop, h]
      exact .stop h
    | inr ss' =>
      obtain ⟨hcut, hdefined⟩ := txPass_inr h
      have hpos := Nat.pos_of_ne_zero hd.2
      simp only [txLoop, h]
      exact .more h (ih (hdefined hd) (by omega))

theorem Decodes.raise {c : FaultCode} {v : Nat} (h : Decodes b ss (.raise c v)) :
    c = .feTxundef ∨ c = .feTxmode := by
  generalize he : TxEnd.raise c v = e at h
  induction h with
  | stop h => exact txPass_raise (he ▸ h)
  | more _ _ ih => exact ih he

theorem decodes_decompress {init : Mode} (h : b.width init ≠ 0) :
    Decodes b ⟨init, init, [], b.unread⟩ (decompress b init) :=
  decodes_txLoop ⟨h, h⟩ (Nat.lt_succ_self _)

/-- TXCFG[2:0] names the first mode (rule R32). -/
theorem eq_txInit {init : Mode} (h : init.val = bits b.txcfg 2 0) : init = b.txInit := Fin.ext h

theorem txdec_of_raise {p : Params} {c : FaultCode} {v : Nat} (hdef : b.width b.txInit ≠ 0)
    (h : Decodes b ⟨b.txInit, b.txInit, [], b.unread⟩ (.raise c v)) : txdec p b = .raise c v := by
  simp only [txdec, hdef, if_false, (decodes_decompress hdef).unique h]

theorem txdec_of_done {p : Params} {out : List (BitVec 10)} {rest : List Bool}
    (hdef : b.width b.txInit ≠ 0)
    (h : Decodes b ⟨b.txInit, b.txInit, [], b.unread⟩ (.done out rest)) :
    txdec p b =
      if out.length > p.chCap then .raise .boCh out.length
      else .done { b with chbuf := out, rdpos := b.bitlen - rest.length } 0 := by
  simp only [txdec, hdef, if_false, (decodes_decompress hdef).unique h]

/-- Everything TXDEC can do: one of the faults of rule R252, or new entries and a cursor within the bits. -/
theorem txdec_cases (p : Params) (b : Block) :
    (∃ c ∈ [FaultCode.ceInitmode, .feTxundef, .feTxmode, .boCh], ∃ v, txdec p b = .raise c v) ∨
      ∃ out n, txdec p b = .done { b with chbuf := out, rdpos := b.bitlen - n } 0 := by
  by_cases hdef : b.width b.txInit = 0
  · exact .inl ⟨_, by decide, _, if_pos hdef⟩
  have hdec := decodes_decompress hdef
  cases hend : decompress b b.txInit with
  | raise c v =>
    rw [hend] at hdec
    have hc : c ∈ [FaultCode.ceInitmode, .feTxundef, .feTxmode, .boCh] := by
      obtain rfl | rfl := hdec.raise <;> decide
    exact .inl ⟨c, hc, v, txdec_of_raise hdef hdec⟩
  | done out rest =>
    rw [hend] at hdec
    rw [txdec_of_done hdef hdec]
    split
    · exact .inl ⟨_, by decide, _, rfl⟩
    · exact .inr ⟨out, rest.length, rfl⟩

end Loop

/-- Settles O53: the loop without a bound ends where the model's does, because a pass takes at least one
bit. -/
theorem txdecRunsItsLoopToTheEnd : Obligations.TxdecRunsItsLoopToTheEnd := by
  refine ⟨rfl, fun s hf init hinit => ?_⟩
  obtain rfl := eq_txInit hinit
  refine ⟨fun hundef => faultsWith_of_effect hf (if_pos hundef), fun hdef => ⟨?_, ?_, ?_⟩⟩
  · exact ⟨_, decodes_decompress hdef⟩
  · intro c v h
    exact faultsWith_of_effect hf (txdec_of_raise hdef h)
  · intro out rest h
    exact check_outcome hf (txdec_of_done hdef h) (executesTo_of_effect hf)

/-- The high digit of a fault code is the number of its class (60_exceptions.md rule R290). -/
theorem code_div_sixteen (c : FaultCode) : c.code.toNat / 16 = c.cls.nibble := by
  cases c <;> rfl

/-- Settles O56: none of TXDEC's faults is InsufficientData, and RDPOS ends at BITLEN less what is left. -/
theorem txdecNeverRunsShort : Obligations.TxdecNeverRunsShort := by
  intro s t hf h
  have hclass {c : FaultCode} (hc : c.code.toNat / 16 ≠ 1) : c.cls ≠ .insufficientData := fun hcls =>
    hc ((code_div_sixteen c).trans (congrArg FaultClass.nibble hcls))
  rw [exec_unfaulted _ hf] at h
  obtain ⟨c, hc, v, hraise⟩ | ⟨out, n, hdone⟩ := txdec_cases s.params s.block
  · obtain rfl : takeFault c v s = t := by simpa [effect, hraise] using h
    refine ⟨fun c' hresp => hclass ?_, nofun⟩
    obtain hcode : c.code = c'.code := by simpa using hresp
    rw [← hcode]
    simp only [List.mem_cons, List.not_mem_nil, or_false] at hc
    obtain rfl | rfl | rfl | rfl := hc <;> decide
  · obtain rfl : complete { s.block with chbuf := out, rdpos := s.block.bitlen - n } 0 s = t := by
      simpa [effect, hdone] using h
    refine ⟨fun c hresp => hclass ?_, fun _ => Nat.sub_le _ _⟩
    obtain hcode : 0 = c.code := by simpa using hresp
    rw [← hcode]
    decide

end Sys2Proof.Machine

/-! ### The encoder's choices (44_text.md rules R256 to R259) -/

namespace Sys2Proof.Machine

section Codes

variable {b : Block} {a s x y : Mode} {e : Entry} {c : Byte}

/-! #### Code lookup (rule R256) -/

theorem findCode_eq_some {v : Nat} :
    b.findCode a e = some v ↔
      v < 2 ^ b.width a ∧ b.tblGet a v = e ∧ ∀ u, u < v → b.tblGet a u ≠ e := by
  rw [Block.findCode, List.find?_range_eq_some]
  simp only [decide_eq_true_eq, List.mem_range, Bool.not_eq_true', decide_eq_false_iff_not]
  tauto

theorem findCode_isSome : (b.findCode a e).isSome = true ↔ ∃ v, v < 2 ^ b.width a ∧ b.tblGet a v = e := by
  simp [Block.findCode]

theorem hasCode_iff : b.hasCode a e = true ↔ Holds b a e := by
  rw [Block.hasCode, Bool.and_eq_true, findCode_isSome, Block.modeDefined, decide_eq_true_eq, Holds]

theorem Holds.exists_findCode (h : Holds b a e) : ∃ v, b.findCode a e = some v :=
  Option.isSome_iff_exists.mp (findCode_isSome.mpr h.2)

theorem findCode_eq_none (hdef : b.width a ≠ 0) : b.findCode a e = none ↔ ¬Holds b a e := by
  rw [← Option.not_isSome_iff_eq_none, findCode_isSome, Holds, and_iff_right hdef]

/-- The code `emitCode` emits is the one `find` gives. -/
theorem emitCode_eq {v : Nat} (h : b.findCode a e = some v) : b.emitCode a e = ⟨v, b.width a⟩ := by
  rw [Block.emitCode, h, Option.getD_some]

/-! #### The least mode -/

theorem mem_allModes (k : Mode) : k ∈ allModes := by
  revert k
  decide

theorem find?_allModes_eq_some {p : Mode → Bool} {k : Mode} :
    allModes.find? p = some k ↔ p k = true ∧ ∀ z < k, p z = false := by
  have hall : allModes = List.ofFn id := rfl
  have hfind := List.find?_ofFn_eq_some_of_injective (p := p) (i := k) Function.injective_id
  simpa only [hall, id_eq, Bool.not_eq_true] using hfind

theorem find?_allModes_isSome {p : Mode → Bool} :
    (allModes.find? p).isSome = true ↔ ∃ k, p k = true := by
  simp [mem_allModes]

/-! #### Local class (rule R257) -/

theorem shiftsTo_iff : b.shiftsTo a c s = true ↔ ShiftGives b a c s := by
  rw [Block.shiftsTo, Bool.and_eq_true, hasCode_iff, hasCode_iff, ShiftGives]

theorem shiftMode_isSome : (b.shiftMode a c).isSome = true ↔ ∃ s, ShiftGives b a c s := by
  simp only [Block.shiftMode, find?_allModes_isSome, shiftsTo_iff]

theorem shiftMode_eq_some :
    b.shiftMode a c = some s ↔ ShiftGives b a c s ∧ ∀ z < s, ¬ShiftGives b a c z := by
  simp only [Block.shiftMode, find?_allModes_eq_some, shiftsTo_iff, ← Bool.not_eq_true]

theorem loc_eq_direct : b.loc a c = some .direct ↔ Holds b a (.char c) := by
  rw [Block.loc, ← hasCode_iff]
  split_ifs <;> simp [*]

theorem loc_eq_shifted :
    b.loc a c = some .shifted ↔ ¬Holds b a (.char c) ∧ ∃ s, ShiftGives b a c s := by
  rw [Block.loc, ← hasCode_iff, ← shiftMode_isSome]
  split_ifs <;> simp [*]

theorem loc_eq_bin :
    b.loc a c = some .bin ↔
      ¬Holds b a (.char c) ∧ (¬∃ s, ShiftGives b a c s) ∧ Holds b a .binary := by
  rw [Block.loc, ← hasCode_iff, ← hasCode_iff, ← shiftMode_isSome]
  split_ifs <;> simp [*]

end Codes

/-! #### Distance (rule R258) -/

section Distance

variable {b : Block} {a t x y m : Mode} {d k : Nat} {l l₁ l₂ : List Mode}

theorem edge_iff : b.edge x y = true ↔ LatchEdge b x y := by
  rw [Block.edge, Bool.and_eq_true, hasCode_iff, Block.modeDefined, decide_eq_true_eq, LatchEdge]

/-- A chain of latches from a to t, through the modes l. -/
def LatchChain (b : Block) (a t : Mode) (l : List Mode) : Prop :=
  List.IsChain (LatchEdge b) (a :: l) ∧ (a :: l).getLast (List.cons_ne_nil _ _) = t

theorem latchChain_nil : LatchChain b a t [] ↔ a = t := by
  simp [LatchChain]

theorem latchChain_cons : LatchChain b a t (y :: l) ↔ LatchEdge b a y ∧ LatchChain b y t l := by
  simp [LatchChain, and_assoc]

theorem latchChain_append :
    LatchChain b a t (l₁ ++ l₂) ↔ ∃ m, LatchChain b a m l₁ ∧ LatchChain b m t l₂ := by
  induction l₁ generalizing a with
  | nil => simp [latchChain_nil]
  | cons y l₁ ih => simp [latchChain_cons, ih, and_assoc]

theorem latchChain_concat :
    LatchChain b a t (l ++ [y]) ↔ y = t ∧ ∃ m, LatchChain b a m l ∧ LatchEdge b m t := by
  simp only [latchChain_append, latchChain_cons, latchChain_nil]
  constructor
  · rintro ⟨m, hl, hedge, rfl⟩
    exact ⟨rfl, m, hl, hedge⟩
  · rintro ⟨rfl, m, hl, hedge⟩
    exact ⟨m, hl, hedge, rfl⟩

/-- A chain without its loops. -/
theorem LatchChain.exists_nodup (h : LatchChain b a t l) :
    ∃ l', LatchChain b a t l' ∧ (a :: l').Nodup ∧ l'.length ≤ l.length := by
  induction l generalizing a with
  | nil => exact ⟨[], h, List.nodup_singleton a, le_rfl⟩
  | cons y l ih =>
    obtain ⟨hedge, hrest⟩ := latchChain_cons.mp h
    obtain ⟨l', hl', hnodup, hlen⟩ := ih hrest
    have hchain : LatchChain b a t (y :: l') := latchChain_cons.mpr ⟨hedge, hl'⟩
    by_cases hmem : a ∈ y :: l'
    · obtain ⟨p, r, hsplit⟩ := List.append_of_mem hmem
      rw [hsplit, List.append_cons, latchChain_append] at hchain
      obtain ⟨m, hloop, hr⟩ := hchain
      obtain ⟨rfl, -⟩ := latchChain_concat.mp hloop
      rw [hsplit] at hnodup
      have hlen' := congrArg List.length hsplit
      simp only [List.length_cons, List.length_append] at hlen' ⊢
      exact ⟨r, hr, hnodup.of_append_right, by omega⟩
    · exact ⟨y :: l', hchain, List.nodup_cons.mpr ⟨hmem, hnodup⟩, by simpa using hlen⟩

theorem mem_layer : t ∈ b.layer a d ↔ ∃ l, LatchChain b a t l ∧ l.length = d := by
  induction d generalizing t with
  | zero => simp [Block.layer, latchChain_nil, eq_comm (a := t)]
  | succ d ih =>
    simp only [Block.layer, Block.nextLayer, List.mem_filter, mem_allModes, true_and, List.any_eq_true,
      edge_iff, ih]
    constructor
    · rintro ⟨m, ⟨l, hl, rfl⟩, hedge⟩
      exact ⟨l ++ [t], latchChain_concat.mpr ⟨rfl, m, hl, hedge⟩, by simp⟩
    · rintro ⟨l, hl, hlen⟩
      obtain rfl | ⟨l, y, rfl⟩ := List.eq_nil_or_concat l
      · simp at hlen
      · obtain ⟨rfl, m, hm, hedge⟩ := latchChain_concat.mp (by simpa using hl)
        exact ⟨m, ⟨l, hm, by simpa using hlen⟩, hedge⟩

theorem latchDist_eq_some :
    b.latchDist a t = some d ↔ d < 8 ∧ t ∈ b.layer a d ∧ ∀ j < d, t ∉ b.layer a j := by
  rw [Block.latchDist, List.find?_range_eq_some]
  simp only [List.contains_eq_mem, decide_eq_true_eq, List.mem_range, Bool.not_eq_true',
    decide_eq_false_iff_not]
  tauto

theorem exists_chain_of_latchDist (h : b.latchDist a t = some d) :
    ∃ l, LatchChain b a t l ∧ l.length = d :=
  mem_layer.mp (latchDist_eq_some.mp h).2.1

/-- A chain without loops leads through at most seven modes, so that the search among eight layers finds
the least one. -/
theorem LatchChain.latchDist_le (h : LatchChain b a t l) :
    ∃ d, b.latchDist a t = some d ∧ d ≤ l.length := by
  obtain ⟨l', hl', hnodup, hlen⟩ := h.exists_nodup
  have hshort : l'.length < 8 := by simpa using hnodup.length_le_card
  have hmem : t ∈ b.layer a l'.length := mem_layer.mpr ⟨l', hl', rfl⟩
  have hsome : (b.latchDist a t).isSome = true := by
    rw [Block.latchDist, List.find?_isSome]
    exact ⟨l'.length, List.mem_range.mpr hshort, by simpa using hmem⟩
  obtain ⟨d, hd⟩ := Option.isSome_iff_exists.mp hsome
  obtain ⟨-, -, hleast⟩ := latchDist_eq_some.mp hd
  exact ⟨d, hd, (not_lt.mp fun hlt => hleast _ hlt hmem).trans hlen⟩

theorem exists_latchDist_trans {e : Nat} (h₁ : b.latchDist a m = some d) (h₂ : b.latchDist m t = some e) :
    ∃ f, b.latchDist a t = some f := by
  obtain ⟨l₁, hl₁, -⟩ := exists_chain_of_latchDist h₁
  obtain ⟨l₂, hl₂, -⟩ := exists_chain_of_latchDist h₂
  obtain ⟨f, hf, -⟩ := (latchChain_append.mpr ⟨m, hl₁, hl₂⟩).latchDist_le
  exact ⟨f, hf⟩

theorem latchDist_self : b.latchDist a a = some 0 := by
  obtain ⟨d, hd, hle⟩ := LatchChain.latchDist_le (latchChain_nil.mpr (Eq.refl a) : LatchChain b a a [])
  rwa [Nat.le_zero.mp hle] at hd

theorem eq_of_latchDist_zero (h : b.latchDist a t = some 0) : a = t := by
  obtain ⟨l, hl, hlen⟩ := exists_chain_of_latchDist h
  obtain rfl := List.length_eq_zero_iff.mp hlen
  exact latchChain_nil.mp hl

/-! #### The latch path (rule R259) -/

/-- The second mode of a shortest chain is one latch nearer. -/
theorem exists_nearer (h : b.latchDist a t = some (d + 1)) :
    ∃ y, LatchEdge b a y ∧ b.latchDist y t = some d := by
  obtain ⟨l, hl, hlen⟩ := exists_chain_of_latchDist h
  obtain ⟨y, l, rfl⟩ := List.exists_cons_of_length_eq_add_one hlen
  obtain ⟨hedge, hrest⟩ := latchChain_cons.mp hl
  obtain ⟨d', hd', hle⟩ := hrest.latchDist_le
  obtain ⟨l', hl', rfl⟩ := exists_chain_of_latchDist hd'
  obtain ⟨d'', hd'', hle'⟩ := (latchChain_cons.mpr ⟨hedge, hl'⟩).latchDist_le
  rw [h] at hd''
  cases hd''
  simp only [List.length_cons] at hlen hle'
  obtain rfl : l'.length = d := by omega
  exact ⟨y, hedge, hd'⟩

theorem latchStep_eq_some :
    b.latchStep a t (d + 1) = some y ↔
      (LatchEdge b a y ∧ b.latchDist y t = some d) ∧
        ∀ z < y, LatchEdge b a z → b.latchDist z t ≠ some d := by
  simp only [Block.latchStep, find?_allModes_eq_some, Bool.and_eq_true, edge_iff, decide_eq_true_eq,
    Nat.add_sub_cancel, ← Bool.not_eq_true, not_and, ne_eq]

theorem exists_latchStep (h : b.latchDist a t = some (d + 1)) : ∃ y, b.latchStep a t (d + 1) = some y := by
  obtain ⟨y, hedge, hy⟩ := exists_nearer h
  refine Option.isSome_iff_exists.mp (find?_allModes_isSome.mpr ⟨y, ?_⟩)
  rw [Bool.and_eq_true, edge_iff]
  exact ⟨hedge, by simpa using hy⟩

theorem latchPath_succ {v : Nat} (h : b.latchDist a t = some (d + 1))
    (hstep : b.latchStep a t (d + 1) = some y) (hcode : b.findCode a (.latch y) = some v) :
    b.latchPath (k + 1) a t = ⟨v, b.width a⟩ :: b.latchPath k y t := by
  have hne : a ≠ t := by
    rintro rfl
    cases latchDist_self.symm.trans h
  simp only [Block.latchPath, if_neg hne, h, hstep, emitCode_eq hcode]

theorem latchPath_self : b.latchPath k a a = [] := by
  cases k
  · rfl
  · exact if_pos rfl

/-- The latch path reaches its target, if it may be as long as the distance. -/
theorem latchCodes_latchPath (h : b.latchDist a t = some d) (hk : d ≤ k) :
    ∃ l, LatchChain b a t l ∧ l.length = d ∧ LatchCodes b t a l (b.latchPath k a t) := by
  induction d generalizing a k with
  | zero =>
    obtain rfl := eq_of_latchDist_zero h
    rw [latchPath_self]
    exact ⟨[], latchChain_nil.mpr rfl, rfl, .arrived⟩
  | succ d ih =>
    obtain ⟨k, rfl⟩ := Nat.exists_eq_add_of_le' (Nat.one_le_of_lt hk)
    obtain ⟨y, hy⟩ := exists_latchStep h
    obtain ⟨⟨hedge, hnear⟩, hleast⟩ := latchStep_eq_some.mp hy
    obtain ⟨v, hv⟩ := hedge.1.exists_findCode
    obtain ⟨l, hl, hlen, hcodes⟩ := ih hnear (Nat.le_of_succ_le_succ hk)
    rw [latchPath_succ h hy hv]
    exact ⟨y :: l, latchChain_cons.mpr ⟨hedge, hl⟩, congrArg (· + 1) hlen,
      .latch h hedge hnear hleast hv hcodes⟩

theorem LatchCodes.length_eq {es : List Emit} (h : LatchCodes b t a l es) : es.length = l.length := by
  induction h with
  | arrived => rfl
  | latch _ _ _ _ _ _ ih => exact congrArg (· + 1) ih

theorem latchCodes_of_latchDist (h : b.latchDist a t = some d) :
    ∃ l, LatchChain b a t l ∧ l.length = d ∧ LatchCodes b t a l (b.latchPath 8 a t) :=
  latchCodes_latchPath h (latchDist_eq_some.mp h).1.le

end Distance

/-- Settles O59: layers are chains by their length, loops are cut off a chain, and the latch path follows
the least mode that is one nearer. -/
theorem latchPathIsShortest : Obligations.LatchPathIsShortest := by
  refine fun b => ⟨fun x y => edge_iff, fun a t => ⟨fun d h => ?_, fun l hl ht => ?_⟩⟩
  · obtain ⟨l, ⟨hl, ht⟩, hlen, hcodes⟩ := latchCodes_of_latchDist h
    exact ⟨l, hl, ht, hlen, hcodes, hcodes.length_eq.trans hlen⟩
  · exact LatchChain.latchDist_le ⟨hl, ht⟩

/-! #### The target (rule R258) -/

section Target

variable {b : Block} {cur a t : Mode} {c : Byte} {nx : Option Byte} {k : Cls} {d : Nat}
  {p q : Candidate} {l : List Candidate}

theorem rank_eq_clsNumber (k : Cls) : k.rank = clsNumber k := by
  cases k <;> rfl

theorem clsNumber_inj {k k' : Cls} (h : clsNumber k = clsNumber k') : k = k' := by
  revert h
  cases k <;> cases k' <;> decide

theorem before_iff :
    p.before q = true ↔ clsNumber p.cls < clsNumber q.cls ∨ clsNumber p.cls = clsNumber q.cls ∧
      (p.dist < q.dist ∨ p.dist = q.dist ∧ p.mode.val < q.mode.val) := by
  simp only [Candidate.before, decide_eq_true_eq, rank_eq_clsNumber, Fin.lt_def]

theorem leastCandidate_eq_none : leastCandidate l = none ↔ l = [] := by
  cases l with
  | nil => simp [leastCandidate]
  | cons p l =>
    rw [leastCandidate]
    split <;> simp

/-- The least of some candidates is one of them, and none is before it. -/
theorem leastCandidate_spec (h : leastCandidate l = some p) :
    p ∈ l ∧ ∀ q ∈ l, ¬q.before p = true := by
  induction l generalizing p with
  | nil => cases h
  | cons p₀ l ih =>
    rw [leastCandidate] at h
    split at h
    case h_1 hnone =>
      cases h
      rw [leastCandidate_eq_none.mp hnone]
      simp [before_iff]
    case h_2 q hq =>
      obtain ⟨hmem, hleast⟩ := ih hq
      simp only [Option.some.injEq] at h
      split at h
      case isTrue hbefore =>
        subst h
        refine ⟨List.mem_cons_of_mem _ hmem, List.forall_mem_cons.mpr ⟨?_, hleast⟩⟩
        rw [before_iff] at hbefore ⊢
        omega
      case isFalse hbefore =>
        subst h
        refine ⟨List.mem_cons_self, List.forall_mem_cons.mpr ⟨?_, fun r hr => ?_⟩⟩
        · rw [before_iff]
          omega
        · have hr := hleast r hr
          rw [before_iff] at hbefore hr ⊢
          omega

theorem mem_candidates : p ∈ b.candidates cur c ↔ IsCandidate b cur c p.cls p.dist p.mode := by
  simp only [Block.candidates, List.mem_filterMap, mem_allModes, true_and, Block.modeDefined,
    decide_eq_true_eq, IsCandidate]
  constructor
  · rintro ⟨a, h⟩
    split_ifs at h with hdef
    split at h
    case h_1 d k hd hk =>
      cases h
      exact ⟨hdef, hd, hk⟩
    case h_2 => cases h
  · rintro ⟨hdef, hd, hk⟩
    exact ⟨p.mode, by rw [if_pos hdef, hd, hk]⟩

theorem leastCandidate_candidates :
    leastCandidate (b.candidates cur c) = some ⟨k, d, a⟩ ↔ LeastCandidate b cur c k d a := by
  have hspec {p : Candidate} (h : leastCandidate (b.candidates cur c) = some p) :
      LeastCandidate b cur c p.cls p.dist p.mode := by
    obtain ⟨hmem, hleast⟩ := leastCandidate_spec h
    refine ⟨mem_candidates.mp hmem, fun k' d' a' h' => ?_⟩
    have hnot := hleast ⟨k', d', a'⟩ (mem_candidates.mpr h')
    rw [before_iff] at hnot
    dsimp only at hnot
    omega
  refine ⟨fun h => hspec h, fun h => ?_⟩
  cases hl : leastCandidate (b.candidates cur c) with
  | none =>
    have hmem : (⟨k, d, a⟩ : Candidate) ∈ b.candidates cur c := mem_candidates.mpr h.1
    rw [leastCandidate_eq_none.mp hl] at hmem
    cases hmem
  | some p =>
    obtain ⟨k', d', a'⟩ := p
    have hle := h.2 _ _ _ (hspec hl).1
    have hge := (hspec hl).2 _ _ _ h.1
    dsimp only at hle hge
    obtain rfl : k' = k := clsNumber_inj (by omega)
    obtain rfl : d' = d := by omega
    obtain rfl : a' = a := Fin.ext (by omega)
    rfl

theorem choose_of_odd (h : OddCharacter b cur c nx) : b.choose cur c nx = some (cur, .shifted) := by
  obtain ⟨hshift, hnext⟩ := h
  refine if_pos ⟨hshift, ?_⟩
  cases nx with
  | none => rfl
  | some c' => simpa using hnext c' rfl

theorem choose_of_not_odd (h : ¬OddCharacter b cur c nx) :
    b.choose cur c nx = (leastCandidate (b.candidates cur c)).map fun p => (p.mode, p.cls) := by
  refine if_neg fun hodd => h ⟨hodd.1, fun c' hc' => ?_⟩
  subst hc'
  simpa using hodd.2

theorem choose_eq_some (h : ¬OddCharacter b cur c nx) :
    b.choose cur c nx = some (a, k) ↔ ∃ d, LeastCandidate b cur c k d a := by
  simp only [choose_of_not_odd h, Option.map_eq_some_iff, ← leastCandidate_candidates, Prod.mk.injEq]
  constructor
  · rintro ⟨⟨k, d, a⟩, hp, rfl, rfl⟩
    exact ⟨d, hp⟩
  · rintro ⟨d, hp⟩
    exact ⟨_, hp, rfl, rfl⟩

theorem choose_eq_none (h : ¬OddCharacter b cur c nx) :
    b.choose cur c nx = none ↔ ∀ k d a, ¬IsCandidate b cur c k d a := by
  rw [choose_of_not_odd h, Option.map_eq_none_iff, leastCandidate_eq_none, List.eq_nil_iff_forall_not_mem]
  exact ⟨fun hall k d a hcand => hall ⟨k, d, a⟩ (mem_candidates.mpr hcand),
    fun hall p hp => hall _ _ _ (mem_candidates.mp hp)⟩

end Target

/-- Settles O57, by the rules of find, loc and choose. -/
theorem chooseTakesTheLeastCandidate : Obligations.ChooseTakesTheLeastCandidate := by
  refine fun b => ⟨fun a e hdef => ⟨fun v => findCode_eq_some, findCode_eq_none hdef⟩, fun a c => ?_,
    fun cur c nx => ⟨choose_of_odd, fun h => ⟨fun a k => choose_eq_some h, choose_eq_none h⟩⟩⟩
  exact ⟨loc_eq_direct, loc_eq_shifted, loc_eq_bin⟩

end Sys2Proof.Machine

/-! ### The encoder (44_text.md rule R260) -/

namespace Sys2Proof.Machine

section Choice

variable {b : Block} {cur t : Mode} {c : Byte} {nx : Option Byte} {k : Cls}

/-! #### What a choice gives -/

/-- The mode chosen is reached by latches and gives the byte in the class chosen. -/
theorem choose_sound (h : b.choose cur c nx = some (t, k)) :
    (∃ d, b.latchDist cur t = some d) ∧ b.loc t c = some k := by
  by_cases hodd : OddCharacter b cur c nx
  · rw [choose_of_odd hodd] at h
    cases h
    exact ⟨⟨0, latchDist_self⟩, hodd.1⟩
  · obtain ⟨d, ⟨-, hdist, hloc⟩, -⟩ := (choose_eq_some hodd).mp h
    exact ⟨⟨d, hdist⟩, hloc⟩

/-- A mode chosen for a binary run is chosen again from itself: every mode reachable from it was reachable
before, so that none offers the byte at a lower class (the derived note of rule R260). -/
theorem choose_bin_self (h : b.choose cur c nx = some (t, .bin)) : b.choose t c nx = some (t, .bin) := by
  have hodd : ¬OddCharacter b cur c nx := fun hodd => nomatch (choose_of_odd hodd).symm.trans h
  obtain ⟨d, ⟨hdef, hdist, hloc⟩, hleast⟩ := (choose_eq_some hodd).mp h
  have hodd' : ¬OddCharacter b t c nx := fun hodd' => nomatch hodd'.1.symm.trans hloc
  refine (choose_eq_some hodd').mpr ⟨0, ⟨hdef, latchDist_self, hloc⟩, ?_⟩
  rintro k' d' a' ⟨hdef', hdist', hloc'⟩
  obtain ⟨e, he⟩ := exists_latchDist_trans hdist hdist'
  have hcls : clsNumber .bin ≤ clsNumber k' := by
    have := hleast k' e a' ⟨hdef', he, hloc'⟩
    omega
  obtain rfl | hpos := Nat.eq_zero_or_pos d'
  · rw [eq_of_latchDist_zero hdist']
    omega
  · omega

end Choice

section Loop

variable {b : Block} {cur t s : Mode} {c : Byte} {rest text run left : List Byte} {i k u v : Nat}

/-! #### The run of a binary code -/

theorem binRun_spec (b : Block) (t : Mode) (k : Nat) (text : List Byte) :
    ∃ left, text = b.binRun t k text ++ left ∧ (b.binRun t k text).length ≤ k ∧
      (∀ j c, (b.binRun t k text)[j]? = some c → b.choose t c text[j + 1]? = some (t, .bin)) ∧
      ((b.binRun t k text).length < k → ∀ c rest, left = c :: rest →
        b.choose t c rest.head? ≠ some (t, .bin)) := by
  induction k generalizing text with
  | zero => exact ⟨text, rfl, le_rfl, nofun, nofun⟩
  | succ k ih =>
    cases text with
    | nil => exact ⟨[], rfl, Nat.zero_le _, nofun, nofun⟩
    | cons c rest =>
      rw [Block.binRun]
      split
      case isTrue hc =>
        obtain ⟨left, hsplit, hle, hchosen, hlongest⟩ := ih rest
        refine ⟨left, congrArg (c :: ·) hsplit, Nat.succ_le_succ hle, fun j c' hj => ?_,
          fun hlt => hlongest (Nat.lt_of_succ_lt_succ hlt)⟩
        cases j with
        | zero =>
          cases hj
          rwa [List.getElem?_cons_succ, ← List.head?_eq_getElem?]
        | succ j => exact hchosen j c' hj
      case isFalse hc =>
        refine ⟨c :: rest, rfl, Nat.zero_le _, nofun, ?_⟩
        rintro - _ _ ⟨⟩
        exact hc

theorem takesRun_binRun (b : Block) (t : Mode) (text : List Byte) :
    ∃ left, TakesRun b t text (b.binRun t b.maxRun text) left := by
  obtain ⟨left, hsplit, hle, hchosen, hlongest⟩ := binRun_spec b t b.maxRun text
  exact ⟨left, hsplit, hle, hchosen, hlongest⟩

/-- No run of the rule is longer than another of the same text. -/
theorem TakesRun.length_le {run' left' : List Byte} (h : TakesRun b t text run left)
    (h' : TakesRun b t text run' left') : run'.length ≤ run.length := by
  by_contra hlt
  rw [not_le] at hlt
  have hnext : left[0]? = run'[run.length]? := calc
    left[0]? = (run ++ left)[run.length]? := by rw [List.getElem?_append_right le_rfl, Nat.sub_self]
    _ = (run' ++ left')[run.length]? := by rw [← h.split, ← h'.split]
    _ = run'[run.length]? := List.getElem?_append_left hlt
  rw [List.getElem?_eq_getElem hlt] at hnext
  cases left with
  | nil => cases hnext
  | cons c rest =>
    have hchosen := h'.chosen run.length c (by rw [List.getElem?_eq_getElem hlt, ← hnext]; rfl)
    rw [h.split, List.getElem?_append_right (Nat.le_add_right _ 1), Nat.add_sub_cancel_left,
      List.getElem?_cons_succ, ← List.head?_eq_getElem?] at hchosen
    exact h.longest (hlt.trans_le h'.limit) c rest rfl hchosen

theorem TakesRun.unique {run' left' : List Byte} (h : TakesRun b t text run left)
    (h' : TakesRun b t text run' left') : run = run' ∧ left = left' :=
  List.append_inj (h.split.symm.trans h'.split) (le_antisymm (h'.length_le h) (h.length_le h'))

/-- A run may be at least one byte long under a legal BINCFG (rule R31). -/
theorem runLimit_pos (h : bincfgLegal b.bincfg = true) : 1 ≤ runLimit b := by
  simp only [bincfgLegal, decide_eq_true_eq] at h
  have hpow {n : Nat} (hn : n ≠ 0) : 2 ≤ 2 ^ n := Nat.le_self_pow hn 2
  rw [runLimit]
  split
  case isTrue hext =>
    have := hpow hext
    omega
  case isFalse =>
    have := hpow (n := bits b.bincfg 4 0) (by omega)
    omega

theorem TakesRun.ne_nil (h : TakesRun b t (c :: rest) run left)
    (hc : b.choose t c rest.head? = some (t, .bin)) (hlimit : 1 ≤ runLimit b) : run ≠ [] := by
  rintro rfl
  exact h.longest hlimit c rest h.split.symm hc

/-! #### One pass, by the class chosen -/

theorem txencLoop_nil : txencLoop b k i cur [] = .ok [] := by
  cases k <;> rfl

theorem txencLoop_stuck (h : b.choose cur c rest.head? = none) :
    txencLoop b (k + 1) i cur (c :: rest) = .error i := by
  rw [txencLoop, h]

theorem txencLoop_direct (h : b.choose cur c rest.head? = some (t, .direct))
    (code : b.findCode t (.char c) = some v) :
    txencLoop b (k + 1) i cur (c :: rest) =
      (txencLoop b k (i + 1) t rest).map fun es => b.latchPath 8 cur t ++ [⟨v, b.width t⟩] ++ es := by
  rw [txencLoop, h]
  simp only [List.length_singleton, List.drop_one, List.tail_cons, emitCode_eq code]
  cases txencLoop b k (i + 1) t rest <;> rfl

theorem txencLoop_shifted (h : b.choose cur c rest.head? = some (t, .shifted))
    (hs : b.shiftMode t c = some s) (shift : b.findCode t (.shift s) = some u)
    (code : b.findCode s (.char c) = some v) :
    txencLoop b (k + 1) i cur (c :: rest) =
      (txencLoop b k (i + 1) t rest).map fun es =>
        b.latchPath 8 cur t ++ [⟨u, b.width t⟩, ⟨v, b.width s⟩] ++ es := by
  rw [txencLoop, h]
  simp only [List.length_singleton, List.drop_one, List.tail_cons, Block.emitShifted, hs,
    emitCode_eq shift, emitCode_eq code]
  cases txencLoop b k (i + 1) t rest <;> rfl

theorem txencLoop_run (h : b.choose cur c rest.head? = some (t, .bin))
    (takes : TakesRun b t (c :: rest) run left) (code : b.findCode t .binary = some v) :
    txencLoop b (k + 1) i cur (c :: rest) =
      (txencLoop b k (i + run.length) t left).map fun es =>
        b.latchPath 8 cur t ++
          (⟨v, b.width t⟩ :: (runPrefix b run.length ++ run.map fun x => ⟨x.toNat, 8⟩)) ++ es := by
  obtain ⟨left', takes'⟩ := takesRun_binRun b t (c :: rest)
  obtain ⟨hrun, -⟩ := takes'.unique takes
  have hleft : (c :: rest).drop run.length = left := by rw [takes.split, List.drop_left]
  rw [txencLoop, h]
  simp only [hrun, hleft, Block.emitRun, emitCode_eq code]
  cases txencLoop b k (i + run.length) t left <;> rfl

/-! #### The loop -/

theorem TakesRun.length_left_lt (h : TakesRun b t text run left) (hrun : run ≠ []) :
    left.length < text.length := by
  have hpos := List.length_pos_iff.mpr hrun
  rw [h.split, List.length_append]
  omega

/-- Every pass takes a byte, so that as many passes as there are bytes reach the end. -/
theorem encodes_txencLoop (hlimit : 1 ≤ runLimit b) (hk : text.length ≤ k) :
    Encodes b i cur text (txencLoop b k i cur text) := by
  induction k generalizing i cur text with
  | zero =>
    obtain rfl := List.length_eq_zero_iff.mp (Nat.le_zero.mp hk)
    exact .done
  | succ k ih =>
    cases text with
    | nil => exact .done
    | cons c rest =>
      have hrest : rest.length ≤ k := Nat.le_of_succ_le_succ hk
      cases h : b.choose cur c rest.head? with
      | none =>
        rw [txencLoop_stuck h]
        exact .stuck h
      | some choice =>
        obtain ⟨t, cls⟩ := choice
        obtain ⟨-, hloc⟩ := choose_sound h
        cases cls with
        | direct =>
          obtain ⟨v, hv⟩ := (loc_eq_direct.mp hloc).exists_findCode
          rw [txencLoop_direct h hv]
          exact .direct h hv (ih hrest)
        | shifted =>
          obtain ⟨-, hgives⟩ := loc_eq_shifted.mp hloc
          obtain ⟨s, hs⟩ := Option.isSome_iff_exists.mp (shiftMode_isSome.mpr hgives)
          obtain ⟨hgives, hleast⟩ := shiftMode_eq_some.mp hs
          obtain ⟨u, hu⟩ := hgives.1.exists_findCode
          obtain ⟨v, hv⟩ := hgives.2.exists_findCode
          rw [txencLoop_shifted h hs hu hv]
          exact .shifted h hgives hleast hu hv (ih hrest)
        | bin =>
          obtain ⟨-, -, hholds⟩ := loc_eq_bin.mp hloc
          obtain ⟨v, hv⟩ := hholds.exists_findCode
          obtain ⟨left, takes⟩ := takesRun_binRun b t (c :: rest)
          have hrun := takes.ne_nil (choose_bin_self h) hlimit
          have hleft := takes.length_left_lt hrun
          rw [txencLoop_run h takes hv]
          exact .run h takes hrun hv (ih (Nat.le_of_lt_succ (hleft.trans_le hk)))

theorem Encodes.eq_txencLoop {r : Except Nat (List Emit)} (h : Encodes b i cur text r)
    (hk : text.length ≤ k) : r = txencLoop b k i cur text := by
  induction h generalizing k with
  | done => rw [txencLoop_nil]
  | stuck h =>
    obtain ⟨k, rfl⟩ := Nat.exists_eq_add_of_le' (Nat.one_le_of_lt hk)
    rw [txencLoop_stuck h]
  | direct h code _ ih =>
    obtain ⟨k, rfl⟩ := Nat.exists_eq_add_of_le' (Nat.one_le_of_lt hk)
    rw [txencLoop_direct h code, ih (Nat.le_of_succ_le_succ hk)]
  | shifted h gives least shift code _ ih =>
    obtain ⟨k, rfl⟩ := Nat.exists_eq_add_of_le' (Nat.one_le_of_lt hk)
    rw [txencLoop_shifted h (shiftMode_eq_some.mpr ⟨gives, least⟩) shift code,
      ih (Nat.le_of_succ_le_succ hk)]
  | run h takes pos code _ ih =>
    obtain ⟨k, rfl⟩ := Nat.exists_eq_add_of_le' (Nat.one_le_of_lt hk)
    have hleft := takes.length_left_lt pos
    rw [txencLoop_run h takes code, ih (Nat.le_of_lt_succ (hleft.trans_le hk))]

/-! #### The command -/

theorem emitBits_eq_flatten (es : List Emit) :
    emitBits es = (es.map fun e => natBits e.val e.width).flatten := by
  induction es with
  | nil => rfl
  | cons e es ih => rw [emitBits, ih, List.map_cons, List.flatten_cons]

theorem emitBits_length (es : List Emit) : (emitBits es).length = (es.map Emit.width).sum := by
  induction es with
  | nil => rfl
  | cons e es ih => rw [emitBits, List.length_append, natBits_length, ih, List.map_cons, List.sum_cons]

theorem Encodes.eq_compress {r : Except Nat (List Emit)} (h : Encodes b 0 t b.text r) :
    compress b t = r :=
  (h.eq_txencLoop le_rfl).symm

theorem txenc_of_error {p : Params} (hdef : b.width b.txInit ≠ 0)
    (h : Encodes b 0 b.txInit b.text (.error i)) : txenc p b = .raise .feUnenc i := by
  simp only [txenc, if_neg hdef, h.eq_compress]

theorem txenc_of_ok {p : Params} {es : List Emit} (hdef : b.width b.txInit ≠ 0)
    (h : Encodes b 0 b.txInit b.text (.ok es)) :
    txenc p b =
      if b.bitlen + (es.map Emit.width).sum > p.bitCap then .raise .boBit b.bitlen
      else .done (b.pushBits (es.map fun e => natBits e.val e.width).flatten) 0 := by
  simp only [txenc, if_neg hdef, h.eq_compress, emitBits_length]
  rw [emitBits_eq_flatten]

end Loop

/-- Settles O58: the loop without a bound ends where the model's does, because a pass takes at least one
byte. -/
theorem txencRunsItsLoopToTheEnd : Obligations.TxencRunsItsLoopToTheEnd := by
  refine ⟨rfl, fun s ⟨_, hb⟩ hf init hinit => ?_⟩
  obtain rfl := eq_txInit hinit
  refine ⟨fun hundef => faultsWith_of_effect hf (if_pos hundef), fun hdef => ⟨?_, ?_, ?_⟩⟩
  · exact ⟨_, encodes_txencLoop (runLimit_pos hb.bincfg_legal) le_rfl⟩
  · intro i h
    exact faultsWith_of_effect hf (txenc_of_error hdef h)
  · intro es h
    exact check_outcome hf (txenc_of_ok hdef h) (executesTo_of_effect hf)

end Sys2Proof.Machine

/-! ### Text there and back (44_text.md rule R261 item 1) -/

namespace Sys2Proof.Machine

/-- Entries that stand for the bytes of a text, none of them an FNC1 marker (rule R243). -/
def Spells (out : List (BitVec 10)) (text : List Byte) : Prop :=
  out.map (fun e => e.setWidth 8) = text ∧ ∀ e ∈ out, e.getLsbD 9 = false

theorem Spells.append {out out' : List (BitVec 10)} {text text' : List Byte} (h : Spells out text)
    (h' : Spells out' text') : Spells (out ++ out') (text ++ text') :=
  ⟨by rw [List.map_append, h.1, h'.1], List.forall_mem_append.mpr ⟨h.2, h'.2⟩⟩

theorem Spells.length_eq {out : List (BitVec 10)} {text : List Byte} (h : Spells out text) :
    out.length = text.length := by
  rw [← h.1, List.length_map]

theorem spells_charEntry (c : Byte) : Spells [charEntry c] [c] := by
  simp [Spells, charEntry]

theorem spells_byteEntry (bytes : List Byte) : Spells (bytes.map byteEntry) bytes := by
  refine ⟨?_, List.forall_mem_map.mpr fun v _ => ?_⟩
  · rw [List.map_map]
    refine List.map_id'' (fun v => BitVec.eq_of_toNat_eq ?_) bytes
    have hlt := v.isLt
    simp only [Function.comp_apply, byteEntry, binEntry, BitVec.toNat_setWidth, BitVec.toNat_ofNat]
    omega
  · have hlt : (byteEntry v).toNat < 2 ^ 9 := by
      have hlt := v.isLt
      simp only [byteEntry, binEntry, BitVec.toNat_ofNat]
      omega
    exact Nat.testBit_lt_two_pow hlt

section Codes

variable {b : Block} {a cur s t : Mode} {c : Byte} {e : Entry} {E : TxEnd} {out : List (BitVec 10)}
  {rest : List Bool} {es : List Emit} {text run left : List Byte} {u v L : Nat}

/-! #### The passes that read what one choice emitted -/

theorem emitBits_append (es fs : List Emit) : emitBits (es ++ fs) = emitBits es ++ emitBits fs := by
  simp only [emitBits_eq_flatten, List.map_append, List.flatten_append]

/-- The bits of a code that `find` gives are read as the entry looked for. -/
theorem tblGet_findCode (h : b.findCode a e = some v) :
    b.tblGet a (bitsVal (natBits v (b.width a))) = e := by
  obtain ⟨hlt, hentry, -⟩ := findCode_eq_some.mp h
  rw [bitsVal_natBits, Nat.mod_eq_of_lt hlt, hentry]

theorem decodes_direct (code : b.findCode t (.char c) = some v)
    (h : Decodes b ⟨t, t, out ++ [charEntry c], rest⟩ E) :
    Decodes b ⟨t, t, out, emitBits [⟨v, b.width t⟩] ++ rest⟩ E := by
  simp only [emitBits, List.append_nil]
  exact .more (txPass_char (natBits_length _ _) (tblGet_findCode code)) h

theorem decodes_shifted (gives : ShiftGives b t c s) (shift : b.findCode t (.shift s) = some u)
    (code : b.findCode s (.char c) = some v) (h : Decodes b ⟨t, t, out ++ [charEntry c], rest⟩ E) :
    Decodes b ⟨t, t, out, emitBits [⟨u, b.width t⟩, ⟨v, b.width s⟩] ++ rest⟩ E := by
  have hdef : b.width s ≠ 0 := gives.2.1
  simp only [emitBits, List.append_nil, List.append_assoc]
  exact .more ((txPass_shift (natBits_length _ _) (tblGet_findCode shift)).trans (if_neg hdef))
    (.more (txPass_char (natBits_length _ _) (tblGet_findCode code)) h)

theorem decodes_latchCodes {l : List Mode} (hcodes : LatchCodes b t a l es)
    (h : Decodes b ⟨t, t, out, rest⟩ E) : Decodes b ⟨a, a, out, emitBits es ++ rest⟩ E := by
  induction hcodes with
  | arrived => exact h
  | latch _ edge _ _ code _ ih =>
    rw [emitBits, List.append_assoc]
    exact .more ((txPass_latch (natBits_length _ _) (tblGet_findCode code)).trans (if_neg edge.2)) ih

/-- What precedes a run announces its length (rules R254 and R260). -/
theorem readRunLength_runPrefix (hb : bincfgLegal b.bincfg = true) (hpos : 1 ≤ L)
    (hlimit : L ≤ runLimit b) : readRunLength b (emitBits (runPrefix b L) ++ rest) = .ok (L, rest) := by
  simp only [bincfgLegal, decide_eq_true_eq] at hb
  have hpow : 1 ≤ 2 ^ bits b.bincfg 4 0 := Nat.one_le_two_pow
  rw [runPrefix]
  split
  case isTrue hshort =>
    have hval : bitsVal (natBits L (bits b.bincfg 4 0)) = L := by
      rw [bitsVal_natBits, Nat.mod_eq_of_lt (by omega)]
    have hread := readRunLength_direct (b := b) (rest := rest) (natBits_length L b.lenW1)
      (.inl (by rw [Block.lenW1, hval]; omega))
    rw [emitBits, emitBits, List.append_nil]
    rwa [Block.lenW1, hval] at hread
  case isFalse hlong =>
    have hext : bits b.bincfg 12 8 ≠ 0 := fun hzero => by
      rw [runLimit, if_neg (not_not.mpr hzero)] at hlimit
      omega
    rw [runLimit, if_pos hext] at hlimit
    have hpow2 : 1 ≤ 2 ^ bits b.bincfg 12 8 := Nat.one_le_two_pow
    have hval : bitsVal (natBits (L - bits b.bincfg 31 16) (bits b.bincfg 12 8)) =
        L - bits b.bincfg 31 16 := by
      rw [bitsVal_natBits, Nat.mod_eq_of_lt (by omega)]
    have hread := readRunLength_extended (b := b) (rest := rest) (natBits_length 0 b.lenW1)
      (by rw [bitsVal_natBits, Nat.zero_mod]) hext
      (natBits_length (L - bits b.bincfg 31 16) b.lenW2)
    rw [Block.lenW2, hval, Block.lenBias, Nat.sub_add_cancel (by omega)] at hread
    rwa [emitBits, emitBits, emitBits, List.append_nil, List.append_assoc]

theorem emitBits_bytes (bytes : List Byte) :
    emitBits (bytes.map fun x => ⟨x.toNat, 8⟩) = literalBits bytes := by
  rw [emitBits_eq_flatten, List.map_map]
  rfl

theorem decodes_run (hb : bincfgLegal b.bincfg = true) (takes : TakesRun b t text run left)
    (hrun : run ≠ []) (code : b.findCode t .binary = some v)
    (h : Decodes b ⟨t, t, out ++ run.map byteEntry, rest⟩ E) :
    Decodes b ⟨t, t, out,
      emitBits (⟨v, b.width t⟩ :: (runPrefix b run.length ++ run.map fun x => ⟨x.toNat, 8⟩)) ++ rest⟩
      E := by
  have hlength := readRunLength_runPrefix (rest := literalBits run ++ rest) hb
    (List.length_pos_iff.mpr hrun) takes.limit
  rw [emitBits, emitBits_append, emitBits_bytes, List.append_assoc, List.append_assoc]
  exact .more (txPass_whole_run (natBits_length _ _) (tblGet_findCode code) hlength) h

/-! #### The whole text -/

theorem map_eq_ok {r : Except Nat (List Emit)} {f : List Emit → List Emit} (h : r.map f = .ok es) :
    ∃ fs, r = .ok fs ∧ es = f fs := by
  cases r with
  | error => cases h
  | ok fs => exact ⟨fs, rfl, (Except.ok.inj h).symm⟩

theorem width_ne_zero_of_loc {k : Cls} (h : b.loc t c = some k) : b.width t ≠ 0 := by
  cases k with
  | direct => exact (loc_eq_direct.mp h).1
  | shifted =>
    obtain ⟨-, s, hshift, -⟩ := loc_eq_shifted.mp h
    exact hshift.1
  | bin =>
    obtain ⟨-, -, hbinary⟩ := loc_eq_bin.mp h
    exact hbinary.1

/-- What one choice emitted is read back: the latch path, then its codes. -/
theorem decodes_choice {codes fs : List Emit} {new out' : List (BitVec 10)} {d : Nat}
    (hdist : b.latchDist cur t = some d)
    (hcodes : ∀ {rest E}, Decodes b ⟨t, t, out ++ new, rest⟩ E →
      Decodes b ⟨t, t, out, emitBits codes ++ rest⟩ E)
    (h : Decodes b ⟨t, t, out ++ new, emitBits fs⟩ (.done (out ++ new ++ out') [])) :
    Decodes b ⟨cur, cur, out, emitBits (b.latchPath 8 cur t ++ codes ++ fs)⟩
      (.done (out ++ (new ++ out')) []) := by
  obtain ⟨l, -, -, hpath⟩ := latchCodes_of_latchDist hdist
  rw [emitBits_append, emitBits_append, List.append_assoc, ← List.append_assoc out]
  exact decodes_latchCodes hpath (hcodes h)

/-- The codes of a text are read back to their last bit, as entries that spell the text. -/
theorem Encodes.exists_decodes {i : Nat} {r : Except Nat (List Emit)} (hb : bincfgLegal b.bincfg = true)
    (h : Encodes b i cur text r) (hr : r = .ok es) (hdef : b.width cur ≠ 0) :
    ∃ out', Spells out' text ∧ Decodes b ⟨cur, cur, out, emitBits es⟩ (.done (out ++ out') []) := by
  induction h generalizing es out with
  | done =>
    cases hr
    rw [emitBits]
    refine ⟨[], ⟨rfl, nofun⟩, .stop ?_⟩
    rw [List.append_nil]
    exact txPass_of_short (Nat.pos_of_ne_zero hdef)
  | stuck => cases hr
  | @direct _ _ c _ _ _ _ h code _ ih =>
    obtain ⟨fs, hfs, rfl⟩ := map_eq_ok hr
    obtain ⟨⟨d, hdist⟩, hloc⟩ := choose_sound h
    obtain ⟨out', hspells, hrest⟩ := ih (out := out ++ [charEntry c]) hfs (width_ne_zero_of_loc hloc)
    exact ⟨_, (spells_charEntry c).append hspells, decodes_choice hdist (decodes_direct code) hrest⟩
  | @shifted _ _ c _ _ _ _ _ _ h gives _ shift code _ ih =>
    obtain ⟨fs, hfs, rfl⟩ := map_eq_ok hr
    obtain ⟨⟨d, hdist⟩, hloc⟩ := choose_sound h
    obtain ⟨out', hspells, hrest⟩ := ih (out := out ++ [charEntry c]) hfs (width_ne_zero_of_loc hloc)
    exact ⟨_, (spells_charEntry c).append hspells,
      decodes_choice hdist (decodes_shifted gives shift code) hrest⟩
  | @run _ _ _ _ _ _ run _ _ h takes pos code _ ih =>
    obtain ⟨fs, hfs, rfl⟩ := map_eq_ok hr
    obtain ⟨⟨d, hdist⟩, hloc⟩ := choose_sound h
    obtain ⟨out', hspells, hrest⟩ := ih (out := out ++ run.map byteEntry) hfs (width_ne_zero_of_loc hloc)
    refine ⟨_, ?_, decodes_choice hdist (decodes_run hb takes pos code) hrest⟩
    rw [takes.split]
    exact (spells_byteEntry run).append hspells

/-- The decoder reads no field that an append changes. -/
theorem Decodes.pushBits {ss : Session} (h : Decodes b ss E) (l : List Bool) :
    Decodes (b.pushBits l) ss E := by
  induction h with
  | stop h => exact .stop h
  | more h _ ih => exact .more h ih

end Codes

/-- What a successful TXENC has done. -/
theorem txenc_executes {s t : State} (hs : s.Inv) (hf : s.block.fault = false)
    (hex : exec .txenc s = .next t) (ht : t.block.fault = false) :
    s.block.width s.block.txInit ≠ 0 ∧ ∃ es, Encodes s.block 0 s.block.txInit s.block.text (.ok es) ∧
      t = complete (s.block.pushBits (emitBits es)) 0 s := by
  have hfault {c : FaultCode} {v : Nat} : ¬FaultsWith .txenc s c v := fun h => by
    cases hex.symm.trans h
    cases ht
  obtain ⟨hundef, hrun⟩ := txencRunsItsLoopToTheEnd.2 s hs hf s.block.txInit rfl
  have hdef : s.block.width s.block.txInit ≠ 0 := fun h => hfault (hundef h)
  obtain ⟨⟨r, hr⟩, herror, hok⟩ := hrun hdef
  cases r with
  | error i => exact absurd (herror i hr) hfault
  | ok es =>
    have hdone := hok es hr
    split at hdone
    case isTrue => exact absurd hdone hfault
    case isFalse =>
      rw [← emitBits_eq_flatten] at hdone
      cases hex.symm.trans hdone
      exact ⟨hdef, es, hr, rfl⟩

/-- Settles O60: what TXENC appended is all that is unread, and the decoder reads it back pass by pass. -/
theorem textRoundTrip : Obligations.TextRoundTrip := by
  intro s t hs hf hread hex ht
  obtain ⟨hdef, es, hes, rfl⟩ := txenc_executes hs hf hex ht
  obtain ⟨-, hb⟩ := hs
  obtain ⟨out, hspells, hdec⟩ := hes.exists_decodes (out := []) hb.bincfg_legal rfl hdef
  have hunread : (s.block.pushBits (emitBits es)).unread = emitBits es := by
    rw [unread_pushBits _ _ hb.rdpos_le, Block.unread, List.drop_eq_nil_of_le hread.ge, List.nil_append]
  have hlen : ¬out.length > s.params.chCap := by
    rw [hspells.length_eq, Block.text, List.length_map]
    exact not_lt.mpr hb.chlen_le
  have hends : Decodes (s.block.pushBits (emitBits es))
      ⟨s.block.txInit, s.block.txInit, [], (s.block.pushBits (emitBits es)).unread⟩ (.done out []) := by
    rw [hunread]
    exact hdec.pushBits _
  have hdone := (txdec_of_done (p := s.params) (b := s.block.pushBits (emitBits es)) hdef hends).trans
    (if_neg hlen)
  exact ⟨_, executesTo_of_effect hf hdone, rfl, rfl, hspells⟩

end Sys2Proof.Machine

/-! ### The fault stop (60_exceptions.md rules R295 and R298) -/

namespace Sys2Proof.Machine

theorem inFaultStop_iff {i : Instr} :
    inFaultStop i = true ↔
      (∃ r, i = .getr r) ∨ (∃ r c, i = .csrr r c) ∨ i = .clrerr ∨ i = .srst := by
  cases i <;> simp [inFaultStop]

/-- A word that is no command is refused in the fault stop, an ill-formed GETR or CSRR among them. -/
theorem illegalWord_refused (e : DecodeError) {s : State} (hf : s.block.fault = true) :
    illegalWord e s = .next (refuse s) := by
  rw [illegalWord, command, if_pos hf]

/-- Settles O9: the four commands run their rule, which never raises; any other word, whether it decodes
or not, is refused. -/
theorem faultStopRefusesEveryOtherWord : Obligations.FaultStopRefusesEveryOtherWord := by
  intro s w rest hp hf
  constructor
  · intro i hi hfour
    have hstop := inFaultStop_iff.mpr hfour
    obtain ⟨b, d, hdone⟩ := effect_anytime hstop s.params s.block
    refine ⟨b, d, ?_⟩
    rw [stepExecutesTheDecodedCommand s w rest i hp hi, exec_anytime hstop, hdone]
    rfl
  · intro hother
    cases hd : decode w with
    | ok i =>
      have hrefused : inFaultStop i = false := by simpa [← inFaultStop_iff] using hother i hd
      exact (stepExecutesTheDecodedCommand s w rest i hp hd).trans (exec_refused hrefused hf)
    | error e =>
      have hstep : step s = illegalWord e (present w rest s) := by simp only [step, hp, hd]
      exact hstep.trans (illegalWord_refused e hf)

/-! ### Faults (60_exceptions.md rules R290 to R297) -/

/-- Settles O10: past STATUS.FAULT a command's rule is done or raises, and a `raise` carries no block. -/
theorem faultsAreAllOrNothing : Obligations.FaultsAreAllOrNothing := by
  intro i s hf
  obtain ⟨hset, -⟩ | ⟨b, d, -, -, he⟩ | ⟨c, v, hraise, -⟩ := exec_cases i s
  · simp [hf] at hset
  · exact .inl ⟨b, d, he⟩
  · exact .inr ⟨c, v, faultsWith_of_effect hf hraise⟩

/-- The fault codes in the order of rule R292. -/
def allFaultCodes : List FaultCode :=
  [.idRdbits, .idCwpack, .idMapwr, .feStuff, .feTxundef, .feTxmode, .feRslen, .feUnenc, .ueRs,
    .ceCwwidth, .ceFsel, .ceRslen, .ceDim, .ceTbl, .ceCsr, .ceInitmode, .aeCw, .aeMat, .aePath, .aeCh,
    .aeTbl, .boBit, .boCw, .boPath, .boCh, .icOpcode, .icField]

theorem mem_allFaultCodes (c : FaultCode) : c ∈ allFaultCodes := by
  cases c <;> decide

theorem code_injective : Function.Injective FaultCode.code := by
  have hnodup : (allFaultCodes.map FaultCode.code).Nodup := by decide
  exact fun c d => List.inj_on_of_nodup_map hnodup (mem_allFaultCodes c) (mem_allFaultCodes d)

/-- Settles O15, by the cases of the code; no value occurs twice in the list of the 27 codes. -/
theorem faultCodesHaveTheirValuesAndClasses : Obligations.FaultCodesHaveTheirValuesAndClasses := by
  refine ⟨fun c => ?_, rfl, code_div_sixteen, fun _ _ h => code_injective h⟩
  cases c <;> rfl

/-! ### Commands without checks, and faults on data (60_exceptions.md rule R303) -/

theorem effect_withoutChecks {i : Instr} (hwf : i.wf = true) (h : withoutChecks i = true) (p : Params)
    (b : Block) : ∃ b' d, effect p i b = .done b' d := by
  cases i with
  | nop | ldi | ldih | getr | csrr | clrerr | srst | bclr | brwd | avail | bitoff | cwclr | pathclr
  | chclr => exact ⟨_, _, rfl⟩
  | modew k w =>
    have hwidth : codeWidthOk w = true := hwf
    exact ⟨_, _, if_neg (by simp [hwidth])⟩
  | _ => cases h

/-- The result is no fault of the classes 0x1, 0x2 and 0x3. -/
def Result.NoDataFault (r : Result) : Prop := ∀ c v, r = .raise c v → 3 < c.cls.nibble

namespace Result.NoDataFault

variable {b : Block} {d : Word} {c : FaultCode} {v : Nat}

theorem done : (Result.done b d).NoDataFault := nofun

theorem raise (h : 3 < c.cls.nibble) : (Result.raise c v).NoDataFault := by
  rintro _ _ ⟨⟩
  exact h

theorem check {P : Prop} [Decidable P] {r : Result} (h : 3 < c.cls.nibble) (hr : r.NoDataFault) :
    (if P then .raise c v else r).NoDataFault := by
  split
  · exact raise h
  · exact hr

end Result.NoDataFault

theorem csrWrite_noDataFault (csr : Csr) (v : Word) (b : Block) : (csrWrite csr v b).NoDataFault := by
  cases csr with
  | rscfg => exact .check (by decide) (.check (by decide) .done)
  | bincfg | txcfg => exact .check (by decide) .done
  | _ => exact .raise (by decide)

/-- The checks of every command but the seven are of the classes 0x4 to 0x7. -/
theorem effect_noDataFault {i : Instr} (h : canFailOnData i = false) (p : Params) (b : Block) :
    (effect p i b).NoDataFault := by
  cases i with
  | rdbits | cwpack | mapwr | unstuff | rsdec | txdec | txenc => cases h
  | nop | ldi | ldih | getr | csrr | clrerr | srst | bclr | brwd | avail | bitoff | cwclr | pathclr
  | chclr => exact .done
  | csrw => exact csrWrite_noDataFault _ _ _
  | cwtrunc | cwunpk | stuff | modew | chap => exact .check (by decide) .done
  | apbits | rsenc | cwap | cwwr | matdim | matwr | matrd =>
    exact .check (by decide) (.check (by decide) .done)
  | pathap => exact .check (by decide) (.check (by decide) (.check (by decide) .done))
  | cwrd | tblrd | chrd =>
    simp only [effect, cwrd, tblrd, chrd]
    split
    · exact .raise (by decide)
    · exact .done
  | maprd =>
    simp only [effect, maprd]
    split
    · exact .raise (by decide)
    · exact .check (by decide) .done
  | tblwr =>
    simp only [effect, tblwr]
    split
    · exact .raise (by decide)
    · split
      · exact .raise (by decide)
      · exact .done

/-- A fault taken is the one the command's rule raised. -/
theorem effect_of_faultsWith {i : Instr} {s : State} {c : FaultCode} {v : Nat}
    (hf : s.block.fault = false) (h : FaultsWith i s c v) :
    ∃ u, effect s.params i s.block = .raise c u := by
  obtain ⟨hset, -⟩ | ⟨b, d, -, -, he⟩ | ⟨c', u, hraise, -, he⟩ := exec_cases i s
  · simp [hf] at hset
  · have hstatus : some 0x00 = some c.code :=
      congrArg (·.port.resp.map Response.status) (Host.Outcome.next.inj (he.symm.trans h))
    exact absurd (Option.some.inj hstatus).symm (code_ne c).1
  · have hcode : c'.code = c.code :=
      congrArg (·.block.errcode) (Host.Outcome.next.inj (he.symm.trans h))
    exact ⟨u, code_injective hcode ▸ hraise⟩

/-- Settles O14: a command without checks has a rule that is done at once, MODEW once its width is in
range, and the rules of all commands but the seven raise faults of other classes only. -/
theorem commandsWithoutChecksSucceed : Obligations.CommandsWithoutChecksSucceed := by
  intro i s hwf hf
  constructor
  · intro hi
    obtain ⟨b, d, hdone⟩ := effect_withoutChecks hwf hi s.params s.block
    refine ⟨b, d, ?_⟩
    rw [exec_unfaulted i hf, hdone]
    rfl
  · intro c v hfault hclass
    obtain ⟨u, hraise⟩ := effect_of_faultsWith hf hfault
    by_contra hdata
    exact absurd (effect_noDataFault (by simpa using hdata) _ _ c u hraise) (not_lt.mpr hclass)

end Sys2Proof.Machine

/-! ### Waiting between commands (70_reset_and_hazards.md rules R338 and R339) -/

namespace Sys2Proof.Machine

/-- Settles O8: a step always has a next state, and each but the state itself needs a word to come. -/
theorem stepWithoutACommandWaits : Obligations.StepWithoutACommandWaits := by
  intro s hp
  obtain ⟨t, hstep⟩ := step_total s
  obtain ⟨-, rfl⟩ | ⟨w, rest, hcons, -⟩ := step_cases hstep
  · exact hstep
  · exact absurd (hp.symm.trans hcons) (List.cons_ne_nil w rest).symm

end Sys2Proof.Machine
